-- ==== Sys2Proof/Word.lean ====
section
/-! DEFINITION. The words of the machine: bytes, 8-bit deltas, positions, and the Pixel (00_scope.md R7). -/

namespace Sys2Proof

/-- One byte of a stream, or one channel of a pixel (R4: 8 bits, unsigned). -/
abbrev Byte := BitVec 8

/-- A signed 8-bit value, read with `BitVec.toInt` (R98; 92_eei_decisions.md D13). -/
abbrev Delta := BitVec 8

/-- A 64-bit counter or position: NPIX, PPOS, OPOS, SPOS, D_SLEN (R12, R13, R21). -/
abbrev Count := BitVec 64

/-- The number of one of the 64 cache slots, 6 bits (R82). -/
abbrev Slot := BitVec 6

/-- A Pixel: four channels, always in the order r, g, b, a (R4, R7). -/
structure Pixel where
  r : Byte
  g : Byte
  b : Byte
  a : Byte
  deriving DecidableEq, Repr

/-- `v in [lo, hi]` on integers (R7). -/
def inRange (lo hi v : Int) : Bool := decide (lo ≤ v) && decide (v ≤ hi)

end Sys2Proof
end

