-- ==== Sys2Proof/Config.lean ====
section
/-! DEFINITION. The constants the spec fixes (00_scope.md R4) and the free values it leaves open. -/

namespace Sys2Proof.Config

/-- START_PIXEL, the value of PREV at the start of a call (R4). -/
def startPixel : Pixel := ⟨0, 0, 0, 255⟩

/-- CACHE_INIT, the value of every slot at the start of a call (R4). -/
def zeroPixel : Pixel := ⟨0, 0, 0, 0⟩

/-- RUN_MAX, the largest count of one RUN chunk (R4). -/
abbrev runMax : Nat := 62

/-- MAGIC, the four bytes "qoif", the first byte most significant (R4).
PRESUMED (log 12): the spec supplies the ASCII codes from general knowledge (93_implementation_defined.md G1). -/
def magic : BitVec 32 := 0x716F6966#32

/-- FOOTER, the eight bytes 00 00 00 00 00 00 00 01, the first byte most significant (R4, R111). -/
def footerMarker : BitVec 64 := 1#64

/-- RGB tag byte (R4). -/
def rgbTag : Byte := 0xFE#8

/-- RGBA tag byte (R4). -/
def rgbaTag : Byte := 0xFF#8

/-- DESIGN CHOICE (logs 2 and 3): a free value of `w` bits, for a register the spec leaves unspecified.
`draw` is the state's counter of draws, `item` tells the registers of one draw apart. It has no body: nothing can
be proved about what it is. -/
opaque freeBits (w draw item : Nat) : BitVec w

end Sys2Proof.Config
end

