-- ==== Sys2Proof/Syntax.lean ====
section
/-! DEFINITION. The items of a stream as syntax (the eight rows of opcode_table.json), and the names of errors. -/

namespace Sys2Proof

/-- One item of the stream SIN, one constructor per row of opcode_table.json. Operands are the decoded (unbiased)
ones of R75; deltas are signed 8-bit, RUN's count is unsigned 8-bit (D13), INDEX's slot is 6-bit (R82).
HEADER and FOOTER are recognised by position, so they carry the bytes their own rules check (log 9). -/
inductive Instr where
  /-- RGBA r, g, b, a: all channels explicit (R67, R143). -/
  | rgba (r g b a : Byte)
  /-- RGB r, g, b: alpha of the previous pixel (R66, R144). -/
  | rgb (r g b : Byte)
  /-- RUN count: count copies of the previous pixel (R65, R145). -/
  | run (count : Byte)
  /-- INDEX idx: the pixel of a cache slot (R62, R146). -/
  | index (idx : Slot)
  /-- DIFF dr, dg, db (R63, R147). -/
  | diff (dr dg db : Delta)
  /-- LUMA dg, drg, dbg, where drg = dr - dg and dbg = db - dg (R64, R148). -/
  | luma (dg drg dbg : Delta)
  /-- HEADER: the 14 bytes at offset 0 (R73, R141). -/
  | header (magic width height : BitVec 32) (channels colorspace : Byte)
  /-- FOOTER: the 8 bytes at SPOS when OPOS has reached NPIX (R74, R150). -/
  | footer (marker : BitVec 64)
  deriving DecidableEq, Repr

/-- Where in the stream an item stands; the decoder knows it by PHASE, never by the bytes (R74, R76, R201). -/
inductive Position where
  | header
  | body
  | footer
  deriving DecidableEq, Repr

/-- The position at which an item can stand. -/
def Instr.position : Instr → Position
  | .rgba _ _ _ _ => .body
  | .rgb _ _ _ => .body
  | .run _ => .body
  | .index _ => .body
  | .diff _ _ _ => .body
  | .luma _ _ _ => .body
  | .header _ _ _ _ _ => .header
  | .footer _ => .footer

/-- The six ops, as the first byte names them (R60). -/
inductive OpKind where
  | rgba
  | rgb
  | run
  | index
  | diff
  | luma
  deriving DecidableEq, Repr

/-- The causes an error reports (R161). -/
inductive Cause where
  /-- CAUSE 0, no error. -/
  | noError
  /-- CAUSE 1: the first four bytes are not the magic (R112). -/
  | badMagic
  /-- CAUSE 2: the header's channels byte is neither 3 nor 4 (R112). -/
  | badChannels
  /-- CAUSE 3: the header's colorspace byte is neither 0 nor 1 (R112). -/
  | badColorspace
  /-- CAUSE 4: the 8 bytes after the last pixel are not FOOTER, or fewer than 8 remain (R113, R150). -/
  | badFooter
  /-- CAUSE 5: the stream ends inside the header, before an op or inside one (R141, R142). -/
  | truncated
  /-- CAUSE 6: bytes remain after the footer (R150). -/
  | trailingData
  /-- CAUSE 7: a RUN would write past the last pixel (R145). -/
  | runOverrun
  /-- CAUSE 8: width × height = 0 (R120, R141). -/
  | zeroSize
  /-- CAUSE 9: ENC is configured with illegal channels or colorspace (R120). -/
  | badMeta
  /-- CAUSE 10: a pack function is given an operand outside its range (R90 to R93). -/
  | opRange
  deriving DecidableEq, Repr

/-- The error kinds (R160). -/
inductive Kind where
  | noKind
  | formatError
  | invalidArgument
  | bufferOverrun
  deriving DecidableEq, Repr

/-- The four metadata values of an image (R20, R21). -/
structure Metadata where
  width : BitVec 32
  height : BitVec 32
  channels : Byte
  colorspace : Byte
  deriving DecidableEq, Repr

end Sys2Proof
end

