-- ==== Sys2Proof/Machine/State.lean ====
section
/-! DEFINITION. The whole state of the core as plain data (10_state.md), the reasons a step stops, and the state right
after hardware reset. -/

namespace Sys2Proof.Machine

/-- PHASE of an engine; the values 6 and 7 are never taken, so they do not exist here (R14, U13). -/
inductive Phase where
  | idle
  | header
  | body
  | footer
  | done
  | error
  deriving DecidableEq, Repr

/-- A space walked by an engine: (index, value) pairs, indices strictly rising. An index that is not listed holds no
value (R24; log 5). -/
abbrev Space (α : Type) := List (Nat × α)

/-- The byte space SIN: (address, byte) pairs. -/
abbrev Memory := List Host.Cell

/-- The color cache: exactly 64 Pixel slots (R23). -/
abbrev Cache := Vector Pixel 64

/-- Every slot (0,0,0,0) (R4 CACHE_INIT). -/
def Cache.zero : Cache := Vector.replicate 64 Config.zeroPixel

/-- The encoder engine ENC: its registers and its two spaces. -/
structure Encoder where
  /-- E_WIDTH (R20). -/
  width : BitVec 32
  /-- E_HEIGHT (R20). -/
  height : BitVec 32
  /-- E_CHANNELS (R20). -/
  channels : Byte
  /-- E_COLORSPACE (R20). -/
  colorspace : Byte
  /-- ENC.PREV (R10). -/
  prev : Pixel
  /-- ENC.CACHE (R23). -/
  cache : Cache
  /-- RUN_CNT, 6 bits (R11). -/
  runCnt : BitVec 6
  /-- ENC.NPIX (R12). -/
  npix : Count
  /-- PPOS, the index of the next input pixel (R12). -/
  ppos : Count
  /-- ENC.PHASE (R14). -/
  phase : Phase
  /-- ENC.ERR.CAUSE; KIND is determined by it (R22, R161; log 21). -/
  err : Cause
  /-- PIXIN, owned by HOST (R24). -/
  pixin : Space Pixel
  /-- SOUT, append only; its length is WPOS (R24). -/
  sout : List Byte
  deriving DecidableEq, Repr

/-- The decoder engine DEC: its registers and its two spaces. -/
structure Decoder where
  /-- D_SLEN (R21). -/
  slen : Count
  /-- D_WIDTH (R21). -/
  width : BitVec 32
  /-- D_HEIGHT (R21). -/
  height : BitVec 32
  /-- D_CHANNELS (R21). -/
  channels : Byte
  /-- D_COLORSPACE (R21). -/
  colorspace : Byte
  /-- DEC.PREV (R10). -/
  prev : Pixel
  /-- DEC.CACHE (R23). -/
  cache : Cache
  /-- DEC.NPIX (R12). -/
  npix : Count
  /-- OPOS, the index of the next output pixel (R12). -/
  opos : Count
  /-- SPOS, the program counter: the offset of the next byte to parse (R13). -/
  spos : Count
  /-- DEC.PHASE (R14). -/
  phase : Phase
  /-- DEC.ERR.CAUSE; KIND is determined by it (R22, R161; log 21). -/
  err : Cause
  /-- SIN, owned by HOST (R24). -/
  sin : Memory
  /-- PIXOUT, write once (R24). -/
  pixout : Space Pixel
  deriving DecidableEq, Repr

/-- The registers of ENC by name (R20, R22). -/
inductive EncReg where
  | width
  | height
  | channels
  | colorspace
  | ctrl
  | status
  | err
  deriving DecidableEq, Repr

/-- The registers of DEC by name (R21, R22). -/
inductive DecReg where
  | slen
  | width
  | height
  | channels
  | colorspace
  | ctrl
  | status
  | err
  deriving DecidableEq, Repr

/-- One move of HOST (R6, R195): there is one for each register HOST may write, for each it may read, for each input
buffer, for hardware reset, and `pass` for a turn HOST lets go by (log 7, log 17). -/
inductive HostMove where
  | writeEWidth (v : BitVec 32)
  | writeEHeight (v : BitVec 32)
  | writeEChannels (v : Byte)
  | writeEColorspace (v : Byte)
  | writeDSlen (v : Count)
  /-- a write of ENC.CTRL: bit 0 is START (R22) -/
  | writeECtrl (v : Byte)
  /-- a write of DEC.CTRL: bit 0 is START (R22) -/
  | writeDCtrl (v : Byte)
  /-- PIXIN as the words of the 32-bit pixel port, from index 0 (R43) -/
  | supplyPixin (words : List (BitVec 32))
  /-- SIN, from offset 0 -/
  | supplySin (bytes : List Byte)
  | readEnc (r : EncReg)
  | readDec (r : DecReg)
  /-- hardware reset of ENC (R190) -/
  | resetEnc
  /-- hardware reset of DEC (R190) -/
  | resetDec
  | pass
  deriving DecidableEq, Repr

/-- The three agents (R6). -/
inductive Agent where
  | enc
  | dec
  | host
  deriving DecidableEq, Repr

/-- The state of the machine: both engines, and what is pending from outside them. -/
structure State where
  enc : Encoder
  dec : Decoder
  /-- HOST's moves still to come, the next one first (log 7). -/
  hostq : List HostMove
  /-- What HOST has read from registers, the latest first (log 17). -/
  hostGot : List Count
  /-- The turns fixed in advance, the next one first; with none left, the default order of log 6 holds. -/
  sched : List Agent
  /-- The model's own counter of free values drawn (log 2). -/
  freeIx : Nat
  deriving DecidableEq, Repr

/-- Why the machine stops with a fault. Nothing in the spec stops it: an error is a next state in PHASE ERROR
(R170), and an engine without input waits (R135). So there is no constructor. -/
inductive Fault where
  deriving DecidableEq, Repr

/-- Why a step has no meaning. -/
inductive Refusal where
  /-- Raised by exec for an instruction that has no meaning yet. Safe. -/
  | notModelled (mnemonic : String)
  /-- Raised by a HOST move that writes a configuration register, PIXIN or SIN of a BUSY engine: the spec gives it no
  move (R196, U4). Safe. -/
  | hostWriteWhileBusy
  /-- Raised by a HOST write of the CTRL register of a BUSY engine: the spec gives it no step (R180, R196, U5). Safe. -/
  | startWhileBusy
  /-- Raised by exec when DEC is not in the phase of the item's own rule (R141, R142, R150); no step of the machine
  raises it, since step fetches what the phase calls for (log 14). Safe. -/
  | outOfPhase
  deriving DecidableEq, Repr

/-- ENC right after hardware reset: PHASE, ERR and SOUT by R30; DESIGN CHOICE for the rest (log 1). -/
def Encoder.reset : Encoder where
  width := 0
  height := 0
  channels := 0
  colorspace := 0
  prev := Config.startPixel
  cache := Cache.zero
  runCnt := 0
  npix := 0
  ppos := 0
  phase := .idle
  err := .noError
  pixin := []
  sout := []

/-- DEC right after hardware reset: PHASE, ERR and PIXOUT by R30; DESIGN CHOICE for the rest (log 1). -/
def Decoder.reset : Decoder where
  slen := 0
  width := 0
  height := 0
  channels := 0
  colorspace := 0
  prev := Config.startPixel
  cache := Cache.zero
  npix := 0
  opos := 0
  spos := 0
  phase := .idle
  err := .noError
  sin := []
  pixout := []

/-- The machine right after hardware reset of both engines, HOST having moved nothing yet (R30, R190). -/
def State.reset : State where
  enc := Encoder.reset
  dec := Decoder.reset
  hostq := []
  hostGot := []
  sched := []
  freeIx := 0

end Sys2Proof.Machine
end

