-- ==== Sys2Proof/Machine/Flags.lean ====
section
/-! DEFINITION. The flags and the status registers: BUSY, DONE, ERR (R15), STATUS and ERR (R22), the numeric codes of
phases, kinds and causes (R14, R160, R161), and the register numbers (R20 to R22). -/

namespace Sys2Proof.Machine

/-- BUSY (R15). -/
def Phase.busy : Phase → Bool
  | .idle => false
  | .header => true
  | .body => true
  | .footer => true
  | .done => false
  | .error => false

/-- The 3-bit value of PHASE (R14). -/
def Phase.code : Phase → BitVec 3
  | .idle => 0
  | .header => 1
  | .body => 2
  | .footer => 3
  | .done => 4
  | .error => 5

/-- The 4-bit CAUSE (R161). -/
def causeCode : Cause → BitVec 4
  | .noError => 0
  | .badMagic => 1
  | .badChannels => 2
  | .badColorspace => 3
  | .badFooter => 4
  | .truncated => 5
  | .trailingData => 6
  | .runOverrun => 7
  | .zeroSize => 8
  | .badMeta => 9
  | .opRange => 10

/-- The kind a cause determines (R161). -/
def kindOf : Cause → Kind
  | .noError => .noKind
  | .badMagic => .formatError
  | .badChannels => .formatError
  | .badColorspace => .formatError
  | .badFooter => .formatError
  | .truncated => .formatError
  | .trailingData => .formatError
  | .runOverrun => .bufferOverrun
  | .zeroSize => .invalidArgument
  | .badMeta => .invalidArgument
  | .opRange => .invalidArgument

/-- The 2-bit KIND (R160). -/
def kindCode : Kind → BitVec 2
  | .noKind => 0
  | .formatError => 1
  | .invalidArgument => 2
  | .bufferOverrun => 3

/-- STATUS: bit 0 BUSY, bit 1 DONE, bit 2 ERR, bit 3 zero, bits 6:4 PHASE, bit 7 zero (R22). -/
def statusByte (p : Phase) : Byte :=
  0#1 ++ p.code ++ 0#1 ++ BitVec.ofBool (decide (p = .error)) ++ BitVec.ofBool (decide (p = .done)) ++
    BitVec.ofBool p.busy

/-- ERR: bits 3:0 CAUSE, bits 5:4 KIND, bits 7:6 zero (R22). -/
def errByte (c : Cause) : Byte := 0#2 ++ kindCode (kindOf c) ++ causeCode c

/-- The number of a register of ENC (R20, R22). -/
def EncReg.number : EncReg → Nat
  | .width => 0
  | .height => 1
  | .channels => 2
  | .colorspace => 3
  | .ctrl => 4
  | .status => 5
  | .err => 6

/-- The number of a register of DEC (R21, R22). -/
def DecReg.number : DecReg → Nat
  | .slen => 0
  | .width => 1
  | .height => 2
  | .channels => 3
  | .colorspace => 4
  | .ctrl => 5
  | .status => 6
  | .err => 7

end Sys2Proof.Machine
end

