-- ==== Sys2Proof/WellFormed.lean ====
section
/-! DEFINITION. Which instruction terms stand for an item of a legal stream. -/

namespace Sys2Proof

/-- The legal values of the header's channels byte (R4, R72). -/
def legalChannels (c : Byte) : Bool := c == 3#8 || c == 4#8

/-- The legal values of the header's colorspace byte (R4, R72). -/
def legalColorspace (s : Byte) : Bool := s == 0#8 || s == 1#8

/-- The operand ranges of R63, R64, R65, the legal header of R72 and the one legal footer of R74.
RGBA, RGB and INDEX have no illegal operand (R94, R95, R82). -/
def Instr.wellFormed : Instr → Bool
  | .rgba _ _ _ _ => true
  | .rgb _ _ _ => true
  | .run count => decide (1 ≤ count.toNat) && decide (count.toNat ≤ Config.runMax)
  | .index _ => true
  | .diff dr dg db => inRange (-2) 1 dr.toInt && inRange (-2) 1 dg.toInt && inRange (-2) 1 db.toInt
  | .luma dg drg dbg => inRange (-32) 31 dg.toInt && inRange (-8) 7 drg.toInt && inRange (-8) 7 dbg.toInt
  | .header m _ _ c s => m == Config.magic && legalChannels c && legalColorspace s
  | .footer m => m == Config.footerMarker

end Sys2Proof
end

