-- ==== Sys2Proof/Decode.lean ====
section
/-! DEFINITION. The op-codec and the frame codec: decoding of any bytes, then the encoder of a well-formed item
(30_encoding.md, 41_opcodec.md, 42_framecodec.md). -/

namespace Sys2Proof

/-! ## Byte order -/

/-- The four bytes of a 32-bit value, most significant first (R7 `be32`, R40). -/
def be32 (v : BitVec 32) : List Byte :=
  [v.extractLsb' 24 8, v.extractLsb' 16 8, v.extractLsb' 8 8, v.extractLsb' 0 8]

/-- `unbe32([b0, b1, b2, b3])` (R7). -/
def unbe32 (b0 b1 b2 b3 : Byte) : BitVec 32 := b0 ++ b1 ++ b2 ++ b3

/-- The eight bytes of a footer, the first most significant (R74). -/
def be64 (v : BitVec 64) : List Byte :=
  [v.extractLsb' 56 8, v.extractLsb' 48 8, v.extractLsb' 40 8, v.extractLsb' 32 8,
   v.extractLsb' 24 8, v.extractLsb' 16 8, v.extractLsb' 8 8, v.extractLsb' 0 8]

/-! ## Decoding -/

/-- `classify(b0)`: the op a first byte names, by the ordered tests of R60 (R96, R61). -/
def classify (b0 : Byte) : OpKind :=
  if b0 = Config.rgbaTag then .rgba
  else if b0 = Config.rgbTag then .rgb
  else if b0.extractLsb' 6 2 = 3#2 then .run
  else if b0.extractLsb' 6 2 = 0#2 then .index
  else if b0.extractLsb' 6 2 = 1#2 then .diff
  else .luma

/-- The length of an op in bytes (R60). -/
def OpKind.length : OpKind → Nat
  | .rgba => 5
  | .rgb => 4
  | .run => 1
  | .index => 1
  | .diff => 1
  | .luma => 2

/-- A biased field of an op byte: zero-extended, then the bias is subtracted (R68). -/
def unbias {n : Nat} (field : BitVec n) (bias : Delta) : Delta := field.setWidth 8 - bias

/-- `unpack_RUN`: the field plus 1 (R97, R65). -/
def unpackRun (b0 : Byte) : Instr := .run ((b0.extractLsb' 0 6).setWidth 8 + 1#8)

/-- `unpack_INDEX` (R97, R62). -/
def unpackIndex (b0 : Byte) : Instr := .index (b0.extractLsb' 0 6)

/-- `unpack_DIFF` (R97, R63): dr in bits 5:4, dg in 3:2, db in 1:0. -/
def unpackDiff (b0 : Byte) : Instr :=
  .diff (unbias (b0.extractLsb' 4 2) 2#8) (unbias (b0.extractLsb' 2 2) 2#8) (unbias (b0.extractLsb' 0 2) 2#8)

/-- `unpack_LUMA` (R97, R64): dg in bits 5:0 of byte 0, drg in 7:4 and dbg in 3:0 of byte 1. -/
def unpackLuma (b0 b1 : Byte) : Instr :=
  .luma (unbias (b0.extractLsb' 0 6) 32#8) (unbias (b1.extractLsb' 4 4) 8#8) (unbias (b1.extractLsb' 0 4) 8#8)

/-- One op at the front of the bytes, with the bytes after it; rejected by name when the bytes end before the op or
inside it (R142 TRUNCATED). Every first byte is an op (R70). -/
def decodeOp : List Byte → Except Cause (Instr × List Byte)
  | [] => .error .truncated
  | b0 :: rest =>
    match classify b0 with
    | .rgba =>
      match rest with
      | r :: g :: b :: a :: tail => .ok (.rgba r g b a, tail)
      | _ => .error .truncated
    | .rgb =>
      match rest with
      | r :: g :: b :: tail => .ok (.rgb r g b, tail)
      | _ => .error .truncated
    | .run => .ok (unpackRun b0, rest)
    | .index => .ok (unpackIndex b0, rest)
    | .diff => .ok (unpackDiff b0, rest)
    | .luma =>
      match rest with
      | b1 :: tail => .ok (unpackLuma b0 b1, tail)
      | _ => .error .truncated

/-- The 14 bytes of a header (R73); rejected as TRUNCATED when there are fewer (R141). What the bytes hold is checked
by HEADER's own rule. -/
def decodeHeader : List Byte → Except Cause (Instr × List Byte)
  | m0 :: m1 :: m2 :: m3 :: w0 :: w1 :: w2 :: w3 :: h0 :: h1 :: h2 :: h3 :: c :: s :: tail =>
    .ok (.header (unbe32 m0 m1 m2 m3) (unbe32 w0 w1 w2 w3) (unbe32 h0 h1 h2 h3) c s, tail)
  | _ => .error .truncated

/-- The 8 bytes of a footer (R74); rejected as BAD_FOOTER when there are fewer (R150). -/
def decodeFooter : List Byte → Except Cause (Instr × List Byte)
  | b0 :: b1 :: b2 :: b3 :: b4 :: b5 :: b6 :: b7 :: tail =>
    .ok (.footer (unbe32 b0 b1 b2 b3 ++ unbe32 b4 b5 b6 b7), tail)
  | _ => .error .badFooter

/-- The item that the bytes hold at a position of the stream, with the bytes after it. Total on any bytes. -/
def decode : Position → List Byte → Except Cause (Instr × List Byte)
  | .header, bytes => decodeHeader bytes
  | .body, bytes => decodeOp bytes
  | .footer, bytes => decodeFooter bytes

/-! ## The frame codec's checks -/

/-- `read_header` on the fields of the 14 bytes: magic, then channels, then colorspace (R112, D14). -/
def readHeader (m w h : BitVec 32) (c s : Byte) : Except Cause Metadata :=
  if m ≠ Config.magic then .error .badMagic
  else if legalChannels c = false then .error .badChannels
  else if legalColorspace s = false then .error .badColorspace
  else .ok ⟨w, h, c, s⟩

/-- `verify_footer` (R113). -/
def verifyFooter (marker : BitVec 64) : Except Cause Unit :=
  if marker = Config.footerMarker then .ok () else .error .badFooter

/-! ## Encoding -/

/-- `pack_INDEX`, on the 8-bit operand of D13 (R90). -/
def packIndex (idx : Byte) : Except Cause (List Byte) :=
  if 63 < idx.toNat then .error .opRange else .ok [idx]

/-- `pack_DIFF` (R91). -/
def packDiff (dr dg db : Delta) : Except Cause (List Byte) :=
  if inRange (-2) 1 dr.toInt && inRange (-2) 1 dg.toInt && inRange (-2) 1 db.toInt then
    .ok [0x40#8 ||| ((dr + 2#8) <<< 4) ||| ((dg + 2#8) <<< 2) ||| (db + 2#8)]
  else .error .opRange

/-- `pack_LUMA` (R92). -/
def packLuma (dg drg dbg : Delta) : Except Cause (List Byte) :=
  if inRange (-32) 31 dg.toInt && inRange (-8) 7 drg.toInt && inRange (-8) 7 dbg.toInt then
    .ok [0x80#8 ||| (dg + 32#8), ((drg + 8#8) <<< 4) ||| (dbg + 8#8)]
  else .error .opRange

/-- `pack_RUN` (R93). -/
def packRun (count : Byte) : Except Cause (List Byte) :=
  if count.toNat < 1 ∨ Config.runMax < count.toNat then .error .opRange
  else .ok [0xC0#8 ||| (count - 1#8)]

/-- `pack_RGB` (R94). -/
def packRgb (r g b : Byte) : List Byte := [Config.rgbTag, r, g, b]

/-- `pack_RGBA` (R95). -/
def packRgba (r g b a : Byte) : List Byte := [Config.rgbaTag, r, g, b, a]

/-- `write_header` (R110). -/
def writeHeader (md : Metadata) : List Byte :=
  be32 Config.magic ++ be32 md.width ++ be32 md.height ++ [md.channels, md.colorspace]

/-- `FOOTER` (R111). -/
def footerBytes : List Byte := be64 Config.footerMarker

/-- The bytes of an item; the error of the pack function on an operand outside its range (R103). -/
def encode : Instr → Except Cause (List Byte)
  | .rgba r g b a => .ok (packRgba r g b a)
  | .rgb r g b => .ok (packRgb r g b)
  | .run count => packRun count
  | .index idx => packIndex (idx.setWidth 8)
  | .diff dr dg db => packDiff dr dg db
  | .luma dg drg dbg => packLuma dg drg dbg
  | .header m w h c s => .ok (be32 m ++ be32 w ++ be32 h ++ [c, s])
  | .footer m => .ok (be64 m)

/-- The bytes of a sequence of items, in order (R49 (b)); the first error, if there is one. -/
def encodeAll : List Instr → Except Cause (List Byte)
  | [] => .ok []
  | i :: rest =>
    match encode i with
    | .error c => .error c
    | .ok bytes =>
      match encodeAll rest with
      | .error c => .error c
      | .ok more => .ok (bytes ++ more)

/-! ## The op map (R69, R76) -/

/-- One row of the op table: a first byte selects it when its masked bits match and it is not excluded (R76). -/
structure OpRow where
  kind : OpKind
  mask : Byte
  pattern : Byte
  exclude : List Byte
  deriving DecidableEq, Repr

/-- The six op rows of opcode_table.json, in its order. -/
def opRows : List OpRow :=
  [⟨.rgba, 0xFF, 0xFF, []⟩, ⟨.rgb, 0xFF, 0xFE, []⟩, ⟨.run, 0xC0, 0xC0, [0xFE, 0xFF]⟩,
   ⟨.index, 0xC0, 0x00, []⟩, ⟨.diff, 0xC0, 0x40, []⟩, ⟨.luma, 0xC0, 0x80, []⟩]

/-- Whether a first byte selects a row (R76). -/
def OpRow.selects (row : OpRow) (b0 : Byte) : Bool :=
  (b0 &&& row.mask == row.pattern) && !row.exclude.contains b0

/-! ## Words as the op table numbers their bits -/

/-- The first `n` bytes of a word whose bit 0 is the least significant bit of the first byte. -/
def wordBytes : Nat → Nat → List Byte
  | 0, _ => []
  | n + 1, w => BitVec.ofNat 8 w :: wordBytes n (w / 256)

/-- The longest item is the 14-byte header (R4). -/
abbrev longestItem : Nat := 14

/-- The position a table row of so many bits stands for: the ops have at most 40 bits, FOOTER 64, HEADER 112. A row
says its position by its length alone, since HEADER and FOOTER are not recognised by their bytes (log 10). -/
def tablePosition (nbits : Nat) : Position :=
  if 64 < nbits then .header else if 40 < nbits then .footer else .body

/-- The bytes of a table word: every bit above `nbits` is 0. -/
def tableBytes (nbits w : Nat) : List Byte := wordBytes longestItem (w % 2 ^ nbits)

/-- The instruction the decoder reads from a table word. -/
def decodeTableWord (nbits w : Nat) : Option Instr :=
  match decode (tablePosition nbits) (tableBytes nbits w) with
  | .ok (i, _) => some i
  | .error _ => none

end Sys2Proof
end

