-- ==== Sys2Proof/Machine/Operands.lean ====
section
/-! DEFINITION. Operands and channel arithmetic: the wrapped readings of R7, the hash and the cache unit
(40_pixelcache.md), the deltas of the op-codec (41_opcodec.md section 3), the pixel port (R43). -/

namespace Sys2Proof.Machine

/-- `u8(v)`: v mod 256 (R7). -/
def u8 (v : Int) : Byte := BitVec.ofInt 8 v

/-- `s8(v)`: the signed reading of u8(v) (R7). -/
def s8 (v : Int) : Int := (u8 v).toInt

/-- `hash(p)`, the slot number: the weighted sum mod 64 (R80). -/
def hash (p : Pixel) : Slot :=
  BitVec.ofNat 6 (p.r.toNat * 3 + p.g.toNat * 5 + p.b.toNat * 7 + p.a.toNat * 11)

/-- `lookup(i)` (R82). -/
def lookup (c : Cache) (i : Slot) : Pixel := c.get ⟨i.toNat, i.isLt⟩

/-- `hit(p)`: only the slot hash(p) is examined (R83). -/
def hit (c : Cache) (p : Pixel) : Bool := decide (lookup c (hash p) = p)

/-- `store(p)`: overwrites the slot of p unconditionally (R84). -/
def store (c : Cache) (p : Pixel) : Cache := c.set (hash p).toNat p (hash p).isLt

/-- `delta(cur, prev)` = s8(cur - prev), kept as the 8-bit value (R98). -/
def delta (cur prev : Byte) : Delta := u8 ((cur.toNat : Int) - prev.toNat)

/-- `apply(prev, d)` = u8(prev + d) (R100). -/
def applyDelta (prev : Byte) (d : Int) : Byte := u8 ((prev.toNat : Int) + d)

/-- `fits_diff` (R99). -/
def fitsDiff (dr dg db : Delta) : Bool :=
  inRange (-2) 1 dr.toInt && inRange (-2) 1 dg.toInt && inRange (-2) 1 db.toInt

/-- `fits_luma` (R99). -/
def fitsLuma (dr dg db : Delta) : Bool :=
  inRange (-32) 31 dg.toInt && inRange (-8) 7 (s8 (dr.toInt - dg.toInt)) && inRange (-8) 7 (s8 (db.toInt - dg.toInt))

/-- The pixel of a delta op: wrapping addition to the previous pixel, alpha unchanged (R147, R148). -/
def shiftPixel (prev : Pixel) (dr dg db : Int) : Pixel :=
  ⟨applyDelta prev.r dr, applyDelta prev.g dg, applyDelta prev.b db, prev.a⟩

/-- A Pixel on the 32-bit port: r in bits 31:24, g in 23:16, b in 15:8, a in 7:0 (R43). -/
def Pixel.toWord (p : Pixel) : BitVec 32 := p.r ++ p.g ++ p.b ++ p.a

/-- The Pixel a port word carries (R43). -/
def Pixel.ofWord (w : BitVec 32) : Pixel :=
  ⟨w.extractLsb' 24 8, w.extractLsb' 16 8, w.extractLsb' 8 8, w.extractLsb' 0 8⟩

end Sys2Proof.Machine
end

