-- ==== Sys2Proof/Machine/Ops.lean ====
section
/-! DEFINITION. The named operations over the spaces and the registers, raising an error, and START, which is the one
way out of it. -/

namespace Sys2Proof.Machine

/-! ## The spaces (R24, R45, R46) -/

/-- Indices strictly rising: the one canonical form of a space. -/
def Space.wf {α : Type} : Space α → Bool
  | [] => true
  | [_] => true
  | (i, _) :: (j, w) :: t => decide (i < j) && Space.wf ((j, w) :: t)

/-- The canonical form of the byte space. -/
def Memory.wf (m : Memory) : Bool := Space.wf m

/-- The value at an index; none where the space holds no value. -/
def Space.read {α : Type} : Space α → Nat → Option α
  | [], _ => none
  | (j, w) :: t, i => if i = j then some w else Space.read t i

/-- Write the value at an index, keeping the indices rising. -/
def Space.write {α : Type} : Space α → Nat → α → Space α
  | [], i, v => [(i, v)]
  | (j, w) :: t, i, v =>
    if i < j then (i, v) :: (j, w) :: t
    else if i = j then (i, v) :: t
    else (j, w) :: Space.write t i v

/-- `MemRead(SIN, pos, n)`: n values from an index on; none when one of them is not there. -/
def Space.readN {α : Type} (m : Space α) (pos : Nat) : Nat → Option (List α)
  | 0 => some []
  | n + 1 =>
    match Space.read m pos, Space.readN m (pos + 1) n with
    | some v, some vs => some (v :: vs)
    | _, _ => none

/-- The same value at `n` indices from `pos` on (R145: count copies). -/
def Space.fill {α : Type} (m : Space α) (pos : Nat) (v : α) : Nat → Space α
  | 0 => m
  | n + 1 => Space.write (Space.fill m pos v n) (pos + n) v

/-- Write a sequence of values from an index on. -/
def Space.writeN {α : Type} (m : Space α) (pos : Nat) : List α → Space α
  | [] => m
  | v :: vs => Space.writeN (Space.write m pos v) (pos + 1) vs

/-- The space that holds exactly a sequence, from index 0. -/
def Space.ofList {α : Type} (vs : List α) : Space α := Space.writeN [] 0 vs

/-! ## Taking an error (60_exceptions.md R170, R171), and START -/

/-- `raise` in ENC: ERR and PHASE are written, nothing is saved; SOUT is void, so it holds no byte (R170, R171;
DEDUCED, log 4). -/
def Encoder.raise (e : Encoder) (c : Cause) : Encoder :=
  { e with err := c, phase := .error, sout := [] }

/-- `raise` in DEC: ERR and PHASE are written, nothing is saved; PIXOUT is void, so no cell holds a value (R170,
R171; DEDUCED, log 4). -/
def Decoder.raise (d : Decoder) (c : Cause) : Decoder :=
  { d with err := c, phase := .error, pixout := [] }

/-- ENC START (R120). The configuration is tested in the order BAD_META, ZERO_SIZE (R172), and both tests come before
every write, so a refused START writes nothing but the error (R171, D20; DEDUCED, log 15). -/
def Encoder.start (e : Encoder) : Encoder :=
  if legalChannels e.channels && legalColorspace e.colorspace then
    let npix : Count := e.width.setWidth 64 * e.height.setWidth 64
    if npix = 0 then e.raise .zeroSize
    else
      { e with
        err := .noError, sout := [], npix := npix, prev := Config.startPixel, cache := Cache.zero, runCnt := 0,
        ppos := 0, phase := .header }
  else e.raise .badMeta

/-- DEC START (R140). NPIX is unspecified until the header step (R30): it takes a free value, number `draw` (log 3). -/
def Decoder.start (d : Decoder) (draw : Nat) : Decoder :=
  { d with
    err := .noError, prev := Config.startPixel, cache := Cache.zero, spos := 0, opos := 0, pixout := [],
    npix := Config.freeBits 64 draw 0, phase := .header }

/-! ## Hardware reset (R190) -/

/-- A free pixel, for a register that hardware reset leaves unspecified (log 2). -/
def freePixel (draw item : Nat) : Pixel := Pixel.ofWord (Config.freeBits 32 draw item)

/-- A cache of free pixels (log 2). -/
def freeCache (draw : Nat) : Cache := Vector.ofFn fun i => freePixel draw (100 + i.val)

/-- Hardware reset of ENC: IDLE, ERR 0, SOUT empty; every other register of ENC is unspecified (R190, R30), so it takes
a free value (log 2). PIXIN is HOST's and stays (log 19). -/
def Encoder.hardwareReset (e : Encoder) (draw : Nat) : Encoder where
  width := Config.freeBits 32 draw 0
  height := Config.freeBits 32 draw 1
  channels := Config.freeBits 8 draw 2
  colorspace := Config.freeBits 8 draw 3
  prev := freePixel draw 4
  cache := freeCache draw
  runCnt := Config.freeBits 6 draw 5
  npix := Config.freeBits 64 draw 6
  ppos := Config.freeBits 64 draw 7
  phase := .idle
  err := .noError
  pixin := e.pixin
  sout := []

/-- Hardware reset of DEC: IDLE, ERR 0, PIXOUT without values; every other register of DEC is unspecified (R190, R30),
so it takes a free value (log 2). SIN is HOST's and stays (log 19). -/
def Decoder.hardwareReset (d : Decoder) (draw : Nat) : Decoder where
  slen := Config.freeBits 64 draw 0
  width := Config.freeBits 32 draw 1
  height := Config.freeBits 32 draw 2
  channels := Config.freeBits 8 draw 3
  colorspace := Config.freeBits 8 draw 4
  prev := freePixel draw 5
  cache := freeCache draw
  npix := Config.freeBits 64 draw 6
  opos := Config.freeBits 64 draw 7
  spos := Config.freeBits 64 draw 8
  phase := .idle
  err := .noError
  sin := d.sin
  pixout := []

/-! ## What every op step of DEC shares (R142) -/

/-- `CACHE[hash(px)] <- px` (R84, R85). -/
def Decoder.storePixel (d : Decoder) (px : Pixel) : Decoder := { d with cache := store d.cache px }

/-- `cnt` copies of `px` to PIXOUT from OPOS on (R143 to R148, `MemWrite`). -/
def Decoder.writeOut (d : Decoder) (px : Pixel) (cnt : Nat) : Decoder :=
  { d with pixout := Space.fill d.pixout d.opos.toNat px cnt }

/-- The end of an op step: PREV, SPOS, OPOS, and FOOTER when the output buffer is full (R142). -/
def Decoder.finish (d : Decoder) (px : Pixel) (len cnt : Nat) : Decoder :=
  let opos := d.opos + BitVec.ofNat 64 cnt
  { d with
    prev := px, spos := d.spos + BitVec.ofNat 64 len, opos := opos,
    phase := if opos = d.npix then .footer else d.phase }

/-- An op that stores its pixel and writes it once (R143, R144, R147, R148). -/
def Decoder.literal (d : Decoder) (px : Pixel) (len : Nat) : Decoder :=
  ((d.storePixel px).writeOut px 1).finish px len 1

/-- An op that writes `cnt` copies of a pixel and stores nothing (R145, R146, R86). -/
def Decoder.replay (d : Decoder) (px : Pixel) (len cnt : Nat) : Decoder :=
  (d.writeOut px cnt).finish px len cnt

/-- The precondition of an op step (R142). -/
def Decoder.inBody (d : Decoder) : Bool := decide (d.phase = .body) && decide (d.opos.toNat < d.npix.toNat)

/-- DEC goes from `s.dec` to `d`, if the precondition of the item's rule holds; no step executes an item outside it
(log 14). -/
def commit (s : State) (pre : Bool) (d : Decoder) : Host.Outcome State Fault Refusal :=
  if pre then .next { s with dec := d } else .refused .outOfPhase

end Sys2Proof.Machine
end

