-- ==== Sys2Proof/Machine/Frame.lean ====
section
/-! DEFINITION. The two frames: HEADER and FOOTER (44_decoder.md R141, R150). -/

namespace Sys2Proof.Machine

/-- HEADER: the checks of read_header, then the size; only then the D_ registers and NPIX are written (R141, R112). -/
def execHeader (m w h : BitVec 32) (c cs : Byte) (s : State) : Host.Outcome State Fault Refusal :=
  commit s (decide (s.dec.phase = .header))
    (match readHeader m w h c cs with
     | .error cause => s.dec.raise cause
     | .ok md =>
       let npix : Count := md.width.setWidth 64 * md.height.setWidth 64
       if npix = 0 then s.dec.raise .zeroSize
       else
         { s.dec with
           width := md.width, height := md.height, channels := md.channels, colorspace := md.colorspace,
           npix := npix, spos := 14, phase := .body })

/-- FOOTER: BAD_FOOTER on a mismatch, TRAILING_DATA when bytes follow, else the call is DONE (R150, R113). -/
def execFooter (marker : BitVec 64) (s : State) : Host.Outcome State Fault Refusal :=
  commit s (decide (s.dec.phase = .footer))
    (match verifyFooter marker with
     | .error cause => s.dec.raise cause
     | .ok () =>
       if s.dec.spos.toNat + 8 ≠ s.dec.slen.toNat then s.dec.raise .trailingData
       else { s.dec with spos := s.dec.spos + 8, phase := .done })

end Sys2Proof.Machine
end

