-- ==== Sys2Proof/Machine/Literal.lean ====
section
/-! DEFINITION. The ops that store their pixel in the cache: RGBA, RGB, DIFF, LUMA (44_decoder.md section 3). -/

namespace Sys2Proof.Machine

/-- RGBA: the four payload bytes are the pixel; 5 bytes, 1 pixel (R143). -/
def execRgba (r g b a : Byte) (s : State) : Host.Outcome State Fault Refusal :=
  commit s s.dec.inBody (s.dec.literal ⟨r, g, b, a⟩ 5)

/-- RGB: the three payload bytes and the alpha of PREV; 4 bytes, 1 pixel (R144). -/
def execRgb (r g b : Byte) (s : State) : Host.Outcome State Fault Refusal :=
  commit s s.dec.inBody (s.dec.literal ⟨r, g, b, s.dec.prev.a⟩ 4)

/-- DIFF: wrapping addition of the three deltas to PREV; 1 byte, 1 pixel (R147). -/
def execDiff (dr dg db : Delta) (s : State) : Host.Outcome State Fault Refusal :=
  commit s s.dec.inBody (s.dec.literal (shiftPixel s.dec.prev dr.toInt dg.toInt db.toInt) 1)

/-- LUMA: dr = drg + dg and db = dbg + dg on integers, then as DIFF; 2 bytes, 1 pixel (R148). -/
def execLuma (dg drg dbg : Delta) (s : State) : Host.Outcome State Fault Refusal :=
  commit s s.dec.inBody
    (s.dec.literal (shiftPixel s.dec.prev (drg.toInt + dg.toInt) dg.toInt (dbg.toInt + dg.toInt)) 2)

end Sys2Proof.Machine
end

