-- ==== Sys2Proof/Machine/Repeat.lean ====
section
/-! DEFINITION. The ops that repeat a pixel and store nothing: RUN, INDEX (44_decoder.md section 3). -/

namespace Sys2Proof.Machine

/-- RUN: count copies of PREV, or RUN_OVERRUN before any of them is written (R145). -/
def execRun (count : Byte) (s : State) : Host.Outcome State Fault Refusal :=
  commit s s.dec.inBody
    (if s.dec.npix.toNat < s.dec.opos.toNat + count.toNat then s.dec.raise .runOverrun
     else s.dec.replay s.dec.prev 1 count.toNat)

/-- INDEX: the pixel of the slot, (0,0,0,0) if it was never written; 1 byte, 1 pixel (R146). -/
def execIndex (idx : Slot) (s : State) : Host.Outcome State Fault Refusal :=
  commit s s.dec.inBody (s.dec.replay (lookup s.dec.cache idx) 1 1)

end Sys2Proof.Machine
end

