-- ==== Sys2Proof/Machine/Encoder.lean ====
section
/-! DEFINITION. The encoder engine ENC: op selection, run folding, emission (43_encoder.md). -/

namespace Sys2Proof.Machine

/-- What the encoder chooses for a pixel: a run, or one op (R132). -/
inductive Selection where
  | run
  | op (i : Instr)
  deriving DecidableEq, Repr

/-- The literal op of a cache miss: RGBA when alpha changed, else DIFF, LUMA, RGB in this order (R126, R131). -/
def literalItem (px prev : Pixel) : Instr :=
  if px.a = prev.a then
    let dr := delta px.r prev.r
    let dg := delta px.g prev.g
    let db := delta px.b prev.b
    if fitsDiff dr dg db then .diff dr dg db
    else if fitsLuma dr dg db then .luma dg (u8 (dr.toInt - dg.toInt)) (u8 (db.toInt - dg.toInt))
    else .rgb px.r px.g px.b
  else .rgba px.r px.g px.b px.a

/-- `select(px, prev, cache)`, on the cache before the store (R132). -/
def select (px prev : Pixel) (cache : Cache) : Selection :=
  if px = prev then .run
  else if hit cache px then .op (.index (hash px))
  else .op (literalItem px prev)

/-- `Emit` of packed bytes (R8). -/
def Encoder.emit (e : Encoder) (bytes : List Byte) : Encoder := { e with sout := e.sout ++ bytes }

/-- Emit an op through its pack function; the pack function's error if it has one (R103). -/
def Encoder.emitItem (e : Encoder) (i : Instr) : Except Cause Encoder :=
  match encode i with
  | .error c => .error c
  | .ok bytes => .ok (e.emit bytes)

/-- Flush the pending run, if there is one (R124, R127). -/
def Encoder.flushRun (e : Encoder) : Except Cause Encoder :=
  if e.runCnt = 0 then .ok e
  else
    match e.emitItem (.run (e.runCnt.setWidth 8)) with
    | .error c => .error c
    | .ok flushed => .ok { flushed with runCnt := 0 }

/-- PREV <- px, PPOS <- PPOS + 1: the end of every pixel step (R123, R124). -/
def Encoder.consume (e : Encoder) (px : Pixel) : Encoder := { e with prev := px, ppos := e.ppos + 1 }

/-- Pixel step, run branch: the count 62 exists only inside this step (R123, R11). -/
def Encoder.runPixel (e : Encoder) (px : Pixel) : Except Cause Encoder :=
  if e.runCnt.toNat + 1 = Config.runMax then
    match e.emitItem (.run (BitVec.ofNat 8 Config.runMax)) with
    | .error c => .error c
    | .ok full => .ok ({ full with runCnt := 0 }.consume px)
  else .ok ({ e with runCnt := e.runCnt + 1 }.consume px)

/-- Cache miss: store first, then emit the literal op (R126). -/
def Encoder.missPixel (e : Encoder) (px : Pixel) : Except Cause Encoder :=
  { e with cache := store e.cache px }.emitItem (literalItem px e.prev)

/-- Pixel step, non-run branch: flush, then INDEX on a hit (R125) or a literal on a miss (R126); R124. -/
def Encoder.otherPixel (e : Encoder) (px : Pixel) : Except Cause Encoder :=
  match e.flushRun with
  | .error c => .error c
  | .ok flushed =>
    match (if hit flushed.cache px then flushed.emitItem (.index (hash px)) else flushed.missPixel px) with
    | .error c => .error c
    | .ok emitted => .ok (emitted.consume px)

/-- One pixel step: exactly one of R123 and R124 applies. -/
def Encoder.pixelStep (e : Encoder) (px : Pixel) : Except Cause Encoder :=
  if px = e.prev then e.runPixel px else e.otherPixel px

/-- The header step (R122). -/
def Encoder.headerStep (e : Encoder) : Encoder :=
  { e.emit (writeHeader ⟨e.width, e.height, e.channels, e.colorspace⟩) with phase := .body }

/-- The end-of-image step (R127). -/
def Encoder.endStep (e : Encoder) : Except Cause Encoder :=
  match e.flushRun with
  | .error c => .error c
  | .ok flushed => .ok { flushed with phase := .footer }

/-- The footer step (R129). -/
def Encoder.footerStep (e : Encoder) : Encoder := { e.emit footerBytes with phase := .done }

/-- Whether ENC has an enabled step: it has none when it is not BUSY, and none while the pixel it needs has not been
supplied (R133, R135). -/
def Encoder.enabled (e : Encoder) : Bool :=
  match e.phase with
  | .idle => false
  | .header => true
  | .body =>
    if e.ppos.toNat < e.npix.toNat then (Space.read e.pixin e.ppos.toNat).isSome
    else decide (e.ppos = e.npix)
  | .footer => true
  | .done => false
  | .error => false

/-- The step of ENC in its phase; without an enabled step ENC waits (R135). -/
def Encoder.move (e : Encoder) : Except Cause Encoder :=
  match e.phase with
  | .idle => .ok e
  | .header => .ok e.headerStep
  | .body =>
    if e.ppos.toNat < e.npix.toNat then
      match Space.read e.pixin e.ppos.toNat with
      | some px => e.pixelStep px
      | none => .ok e
    else if e.ppos = e.npix then e.endStep
    else .ok e
  | .footer => .ok e.footerStep
  | .done => .ok e
  | .error => .ok e

/-- One step of ENC; an error of a pack function would be raised, with nothing of the step kept (R103, R171). -/
def Encoder.step (e : Encoder) : Encoder :=
  match e.move with
  | .ok e' => e'
  | .error c => e.raise c

end Sys2Proof.Machine
end

