-- ==== Sys2Proof/Machine/Fetch.lean ====
section
/-! DEFINITION. The decoder's fetch: the tests and reads of SIN that come before an item is executed (R141, R142,
R150, R46), and how an item is placed where the next fetch reads it. -/

namespace Sys2Proof.Machine

/-- What DEC's fetch answers. -/
inductive Fetched where
  /-- an item to execute -/
  | item (i : Instr)
  /-- the stream is too short: an error to raise -/
  | raise (c : Cause)
  /-- no enabled step: DEC is not BUSY, or a byte it needs has not been supplied (D3) -/
  | wait
  deriving DecidableEq, Repr

/-- Decode the `n` bytes at an offset of SIN; wait while one of them has not been supplied (log 5). -/
def Decoder.fetchBytes (d : Decoder) (pos : Position) (at_ n : Nat) : Fetched :=
  match Space.readN d.sin at_ n with
  | none => .wait
  | some bytes =>
    match decode pos bytes with
    | .ok (i, _) => .item i
    | .error c => .raise c

/-- The fetch of the header step: 14 bytes at offset 0, TRUNCATED if the stream is shorter (R141). -/
def Decoder.fetchHeader (d : Decoder) : Fetched :=
  if d.slen.toNat < 14 then .raise .truncated else d.fetchBytes .header 0 14

/-- The fetch of an op step: the first byte, then all bytes of the op, TRUNCATED if the stream ends before or inside
it (R142). -/
def Decoder.fetchOp (d : Decoder) : Fetched :=
  if d.slen.toNat < d.spos.toNat + 1 then .raise .truncated
  else
    match Space.read d.sin d.spos.toNat with
    | none => .wait
    | some b0 =>
      if d.slen.toNat < d.spos.toNat + (classify b0).length then .raise .truncated
      else d.fetchBytes .body d.spos.toNat (classify b0).length

/-- The fetch of the footer step: 8 bytes at SPOS, BAD_FOOTER if fewer remain (R150). -/
def Decoder.fetchFooter (d : Decoder) : Fetched :=
  if d.slen.toNat < d.spos.toNat + 8 then .raise .badFooter else d.fetchBytes .footer d.spos.toNat 8

/-- DEC's fetch in its phase. -/
def Decoder.fetch (d : Decoder) : Fetched :=
  match d.phase with
  | .idle => .wait
  | .header => d.fetchHeader
  | .body => if d.opos.toNat < d.npix.toNat then d.fetchOp else .wait
  | .footer => d.fetchFooter
  | .done => .wait
  | .error => .wait

/-- Whether DEC has an enabled step. -/
def Decoder.enabled (d : Decoder) : Bool := decide (d.fetch ≠ .wait)

/-! ## Placing one item (withFetchWord) -/

/-- Whether SPOS lies in the op-stream (R44: offset 14 or more) and an item of the longest length fits below the end of
the 64-bit stream offsets. -/
def Decoder.roomInStream (d : Decoder) : Bool :=
  decide (14 ≤ d.spos.toNat) && decide (d.spos.toNat + longestItem < 2 ^ 64)

/-- SPOS, moved to the op-stream's first byte if no op can stand at it. -/
def Decoder.itemPos (d : Decoder) : Count := if d.roomInStream then d.spos else 14

/-- Whether the longest run still fits in the output. -/
def Decoder.roomInOutput (d : Decoder) : Bool := decide (d.opos.toNat + Config.runMax ≤ d.npix.toNat)

/-- Place the bytes of a header, an op or a footer where the next fetch reads them, and set what that fetch needs
(log 10, log 11). -/
def Decoder.placeItem (d : Decoder) : Position → List Byte → Decoder
  | .header, bytes =>
    { d with
      phase := .header, sin := Space.writeN d.sin 0 bytes,
      slen := if d.slen.toNat < longestItem then BitVec.ofNat 64 longestItem else d.slen }
  | .body, bytes =>
    let endPos := d.itemPos + BitVec.ofNat 64 longestItem
    { d with
      phase := .body, spos := d.itemPos, sin := Space.writeN d.sin d.itemPos.toNat bytes,
      slen := if d.slen.toNat < endPos.toNat then endPos else d.slen,
      opos := if d.roomInOutput then d.opos else 0,
      npix := if d.roomInOutput then d.npix else 64 }
  | .footer, bytes =>
    { d with
      phase := .footer, spos := d.itemPos, sin := Space.writeN d.sin d.itemPos.toNat bytes,
      slen := d.itemPos + 8 }

end Sys2Proof.Machine
end

