-- ==== Sys2Proof/Machine/HostMoves.lean ====
section
/-! DEFINITION. HOST's moves on the registers and buffers (R20 to R22, R43, R180, R190, R196), and what HOST may take
as a result (R50). -/

namespace Sys2Proof.Machine

/-- What a HOST read of a register of ENC returns, zero-extended; CTRL reads as 0 (R20, R22). -/
def Encoder.readReg (e : Encoder) : EncReg → Count
  | .width => e.width.setWidth 64
  | .height => e.height.setWidth 64
  | .channels => e.channels.setWidth 64
  | .colorspace => e.colorspace.setWidth 64
  | .ctrl => 0
  | .status => (statusByte e.phase).setWidth 64
  | .err => (errByte e.err).setWidth 64

/-- What a HOST read of a register of DEC returns, zero-extended; CTRL reads as 0 (R21, R22). It does not depend on the
phase: a read of D_SLEN while BUSY, which R21 leaves open, returns the register too (DESIGN CHOICE, log 25). -/
def Decoder.readReg (d : Decoder) : DecReg → Count
  | .slen => d.slen
  | .width => d.width.setWidth 64
  | .height => d.height.setWidth 64
  | .channels => d.channels.setWidth 64
  | .colorspace => d.colorspace.setWidth 64
  | .ctrl => 0
  | .status => (statusByte d.phase).setWidth 64
  | .err => (errByte d.err).setWidth 64

/-- A HOST write to ENC's configuration or PIXIN: only while ENC is not BUSY (R196, U4). -/
def writeEnc (s : State) (e : Encoder) : Host.Outcome State Fault Refusal :=
  if s.enc.phase.busy then .refused .hostWriteWhileBusy else .next { s with enc := e }

/-- A HOST write to D_SLEN or SIN: only while DEC is not BUSY (R196, U4). -/
def writeDec (s : State) (d : Decoder) : Host.Outcome State Fault Refusal :=
  if s.dec.phase.busy then .refused .hostWriteWhileBusy else .next { s with dec := d }

/-- START of ENC: accepted in IDLE, DONE and ERROR (R180). -/
def startEnc (s : State) : Host.Outcome State Fault Refusal := .next { s with enc := s.enc.start }

/-- START of DEC: accepted in IDLE, DONE and ERROR (R180). -/
def startDec (s : State) : Host.Outcome State Fault Refusal :=
  .next { s with dec := s.dec.start s.freeIx, freeIx := s.freeIx + 1 }

/-- A write of ENC.CTRL: START when bit 0 is 1, bits 7:1 ignored (R22); no step while BUSY (R180, U5; log 8). -/
def writeEncCtrl (v : Byte) (s : State) : Host.Outcome State Fault Refusal :=
  if s.enc.phase.busy then .refused .startWhileBusy
  else if v.getLsbD 0 then startEnc s else .next s

/-- A write of DEC.CTRL: START when bit 0 is 1, bits 7:1 ignored (R22); no step while BUSY (R180, U5; log 8). -/
def writeDecCtrl (v : Byte) (s : State) : Host.Outcome State Fault Refusal :=
  if s.dec.phase.busy then .refused .startWhileBusy
  else if v.getLsbD 0 then startDec s else .next s

/-- One move of HOST. A read is made in every phase; for D_SLEN while BUSY that is the model's choice (DESIGN CHOICE,
log 25). -/
def hostMove (m : HostMove) (s : State) : Host.Outcome State Fault Refusal :=
  match m with
  | .writeEWidth v => writeEnc s { s.enc with width := v }
  | .writeEHeight v => writeEnc s { s.enc with height := v }
  | .writeEChannels v => writeEnc s { s.enc with channels := v }
  | .writeEColorspace v => writeEnc s { s.enc with colorspace := v }
  | .writeDSlen v => writeDec s { s.dec with slen := v }
  | .writeECtrl v => writeEncCtrl v s
  | .writeDCtrl v => writeDecCtrl v s
  | .supplyPixin words => writeEnc s { s.enc with pixin := Space.ofList (words.map Pixel.ofWord) }
  | .supplySin bytes => writeDec s { s.dec with sin := Space.ofList bytes }
  | .readEnc r => .next { s with hostGot := s.enc.readReg r :: s.hostGot }
  | .readDec r => .next { s with hostGot := s.dec.readReg r :: s.hostGot }
  | .resetEnc => .next { s with enc := s.enc.hardwareReset s.freeIx, freeIx := s.freeIx + 1 }
  | .resetDec => .next { s with dec := s.dec.hardwareReset s.freeIx, freeIx := s.freeIx + 1 }
  | .pass => .next s

/-- HOST's turn: its next pending move, or nothing when none is pending (log 7, log 20). -/
def hostTurn (s : State) : Host.Outcome State Fault Refusal :=
  match s.hostq with
  | [] => .next s
  | m :: rest => hostMove m { s with hostq := rest }

/-- SOUT as a result: defined for HOST only at DONE (R50, R171). -/
def Encoder.result (e : Encoder) : Option (List Byte) := if e.phase = .done then some e.sout else none

/-- PIXOUT, as the words of the pixel port, and the metadata as a result: defined for HOST only at DONE (R21, R43,
R50, R171). -/
def Decoder.result (d : Decoder) : Option (Metadata × List (BitVec 32)) :=
  if d.phase = .done then
    match Space.readN d.pixout 0 d.npix.toNat with
    | some pixels => some (⟨d.width, d.height, d.channels, d.colorspace⟩, pixels.map Pixel.toWord)
    | none => none
  else none

end Sys2Proof.Machine
end

