-- ==== Sys2Proof/Machine/Turns.lean ====
section
/-! DEFINITION. Which agent moves next, and what each agent does in its turn (R6; log 6). -/

namespace Sys2Proof.Machine

/-- The agent that moves next: the turn fixed in advance if there is one; else DEC if it has an enabled step, else ENC
if it has one, else HOST (DESIGN CHOICE, log 6). -/
def State.mover (s : State) : Agent :=
  match s.sched with
  | a :: _ => a
  | [] => if s.dec.enabled then .dec else if s.enc.enabled then .enc else .host

/-- The turn is used up. -/
def State.popTurn (s : State) : State := { s with sched := s.sched.tail }

/-- DEC's turn: fetch, then execute the item or raise (R141, R142, R150); without an enabled step DEC waits. -/
def decTurn (s : State) : Host.Outcome State Fault Refusal :=
  match s.dec.fetch with
  | .item i => exec i s
  | .raise c => .next { s with dec := s.dec.raise c }
  | .wait => .next s

/-- ENC's turn. -/
def encTurn (s : State) : Host.Outcome State Fault Refusal := .next { s with enc := s.enc.step }

/-- The turn of an agent. -/
def turn (a : Agent) (s : State) : Host.Outcome State Fault Refusal :=
  match a with
  | .enc => encTurn s
  | .dec => decTurn s
  | .host => hostTurn s

/-- Place the item of a table word where DEC's next fetch reads it, and give DEC the next turn (log 10, log 11). -/
def State.placeWord (s : State) (nbits w : Nat) : State :=
  { s with
    dec := s.dec.placeItem (tablePosition nbits) (tableBytes nbits w)
    sched := .dec :: s.sched }

end Sys2Proof.Machine
end

