-- ==== Sys2Proof/Machine/Step.lean ====
section
/-! DEFINITION. One step of the machine: the agent whose turn it is moves. -/

namespace Sys2Proof.Machine

/-- One step (R6, R49, R205): atomic and untimed. -/
def step (s : State) : Host.Outcome State Fault Refusal := turn s.mover s.popTurn

/-- The state whose very next step fetches and runs the item of a table word. -/
def State.withFetchWord (s : State) (nbits w : Nat) : State := s.placeWord nbits w

end Sys2Proof.Machine
end

