-- ==== Sys2Proof/Machine/Reference.lean ====
section
/-! DEFINITION. The source's own algorithms as functions: encode_ops (43_encoder.md R128, normative for the bytes) and
decode_ops with a whole decode (44_decoder.md R151). No step calls them; claims compare the engines with them. -/

namespace Sys2Proof.Machine

/-- What encoder and decoder keep in lock step: the previous pixel and the cache (R9 "mirroring", R87 (c)). -/
structure Mirror where
  prev : Pixel
  cache : Cache
  deriving DecidableEq, Repr

/-- The mirror at the start of a call (R191). -/
def Mirror.start : Mirror := ⟨Config.startPixel, Cache.zero⟩

/-- How many pixels at the front of the list equal `prev`: the forward scan of R128 step 1. -/
def runLength (prev : Pixel) : List Pixel → Nat
  | [] => 0
  | px :: ps => if px = prev then runLength prev ps + 1 else 0

/-- The RUN chunks of a run of n: n div 62 full ones, and the remainder if it is not 0 (R128, C5). -/
def runChunks (n : Nat) : List Instr :=
  List.replicate (n / Config.runMax) (.run (BitVec.ofNat 8 Config.runMax)) ++
    (if n % Config.runMax = 0 then [] else [.run (BitVec.ofNat 8 (n % Config.runMax))])

/-- The ops of a pixel sequence and the mirror after it, by R128's loop; `fuel` bounds the number of rounds, and the
length of the sequence is enough. -/
def encodeFrom : Nat → Mirror → List Pixel → List Instr × Mirror
  | 0, m, _ => ([], m)
  | _ + 1, m, [] => ([], m)
  | fuel + 1, m, px :: ps =>
    if px = m.prev then
      let n := runLength m.prev (px :: ps)
      let rest := encodeFrom fuel m ((px :: ps).drop n)
      (runChunks n ++ rest.1, rest.2)
    else if hit m.cache px then
      let rest := encodeFrom fuel ⟨px, m.cache⟩ ps
      (.index (hash px) :: rest.1, rest.2)
    else
      let rest := encodeFrom fuel ⟨px, store m.cache px⟩ ps
      (literalItem px m.prev :: rest.1, rest.2)

/-- The ops that represent a pixel sequence (R128). -/
def encodeItems (ps : List Pixel) : List Instr := (encodeFrom ps.length Mirror.start ps).1

/-- The mirror after encoding a pixel sequence (R128, R130). -/
def encodeMirror (ps : List Pixel) : Mirror := (encodeFrom ps.length Mirror.start ps).2

/-- `encode_ops(P)`: the op-stream (R128). -/
def encodeOps (ps : List Pixel) : Except Cause (List Byte) := encodeAll (encodeItems ps)

/-- The pixel an op writes last, the number of pixels it writes, and the cache after it (R143 to R148). -/
def opEffect (i : Instr) (m : Mirror) : Pixel × Nat × Cache :=
  match i with
  | .rgba r g b a => (⟨r, g, b, a⟩, 1, store m.cache ⟨r, g, b, a⟩)
  | .rgb r g b => (⟨r, g, b, m.prev.a⟩, 1, store m.cache ⟨r, g, b, m.prev.a⟩)
  | .run count => (m.prev, count.toNat, m.cache)
  | .index idx => (lookup m.cache idx, 1, m.cache)
  | .diff dr dg db =>
    let px := shiftPixel m.prev dr.toInt dg.toInt db.toInt
    (px, 1, store m.cache px)
  | .luma dg drg dbg =>
    let px := shiftPixel m.prev (drg.toInt + dg.toInt) dg.toInt (dbg.toInt + dg.toInt)
    (px, 1, store m.cache px)
  | .header _ _ _ _ _ => (m.prev, 0, m.cache)
  | .footer _ => (m.prev, 0, m.cache)

/-- R151's loop for `want` more pixels: the pixels, the bytes left and the mirror. Every op writes at least one pixel,
so `want` is enough fuel. -/
def decodeFrom : Nat → Nat → Mirror → List Byte → Except Cause (List Pixel × List Byte × Mirror)
  | 0, _, m, bytes => .ok ([], bytes, m)
  | _ + 1, 0, m, bytes => .ok ([], bytes, m)
  | fuel + 1, want + 1, m, bytes =>
    match decodeOp bytes with
    | .error c => .error c
    | .ok (i, tail) =>
      let effect := opEffect i m
      if want + 1 < effect.2.1 then .error .runOverrun
      else
        match decodeFrom fuel (want + 1 - effect.2.1) ⟨effect.1, effect.2.2⟩ tail with
        | .error c => .error c
        | .ok (ps, left, final) => .ok (List.replicate effect.2.1 effect.1 ++ ps, left, final)

/-- `decode_ops(S, N)`: the N pixels, the bytes after the ops, and the mirror (R151). -/
def decodeOps (bytes : List Byte) (n : Nat) : Except Cause (List Pixel × List Byte × Mirror) :=
  decodeFrom n n Mirror.start bytes

/-- What must follow the last op: the footer, and then the end of the stream (R150, R151). -/
def checkEnd (bytes : List Byte) : Except Cause Unit :=
  match decodeFooter bytes with
  | .ok (.footer marker, tail) =>
    match verifyFooter marker with
    | .error c => .error c
    | .ok () => if tail = [] then .ok () else .error .trailingData
  | .ok _ => .error .badFooter
  | .error c => .error c

/-- The metadata of a header that is accepted, and the bytes after it (R141, R151). -/
def openHeader (bytes : List Byte) : Except Cause (Metadata × List Byte) :=
  match decodeHeader bytes with
  | .ok (.header m w h c s, tail) =>
    match readHeader m w h c s with
    | .error cause => .error cause
    | .ok md => if md.width.toNat * md.height.toNat = 0 then .error .zeroSize else .ok (md, tail)
  | .ok _ => .error .truncated
  | .error cause => .error cause

/-- A whole decode as R151 puts it: header, ops for width × height pixels, footer, end. -/
def decodeStream (bytes : List Byte) : Except Cause (Metadata × List Pixel × Mirror) :=
  match openHeader bytes with
  | .error c => .error c
  | .ok (md, body) =>
    match decodeOps body (md.width.toNat * md.height.toNat) with
    | .error c => .error c
    | .ok (ps, left, final) =>
      match checkEnd left with
      | .error c => .error c
      | .ok () => .ok (md, ps, final)

/-- A whole encode (R130): header, op-stream, footer. -/
def encodeStream (md : Metadata) (ps : List Pixel) : Except Cause (List Byte) :=
  match encodeOps ps with
  | .error c => .error c
  | .ok bytes => .ok (writeHeader md ++ bytes ++ footerBytes)

end Sys2Proof.Machine
end

