-- ==== Sys2Proof/Safety.lean ====
section
/-! DEFINITION. The terms the claims use: the invariants of a safe run (43_encoder.md R121, 44_decoder.md R149,
40_pixelcache.md R87), what a step stores and what it leaves alone, and what HOST has supplied. -/

namespace Sys2Proof.Machine

/-! ## Frames -/

/-- Nothing but DEC differs. -/
structure SameOutsideDec (s t : State) : Prop where
  enc : t.enc = s.enc
  hostq : t.hostq = s.hostq
  hostGot : t.hostGot = s.hostGot
  sched : t.sched = s.sched
  freeIx : t.freeIx = s.freeIx

/-- The registers of DEC that no op writes, and SIN. -/
structure SameConfig (d d' : Decoder) : Prop where
  slen : d'.slen = d.slen
  width : d'.width = d.width
  height : d'.height = d.height
  channels : d'.channels = d.channels
  colorspace : d'.colorspace = d.colorspace
  npix : d'.npix = d.npix
  err : d'.err = d.err
  sin : d'.sin = d.sin

/-- `cnt` cells from `pos` on hold `v`, and every other cell reads as before. -/
structure StoredRun {α : Type} (m m' : Space α) (pos cnt : Nat) (v : α) : Prop where
  stored : ∀ k, k < cnt → Space.read m' (pos + k) = some v
  others : ∀ j, j < pos ∨ pos + cnt ≤ j → Space.read m' j = Space.read m j

/-- The slot of `p` holds `p`, and every other slot reads as before (R84). -/
structure StoredSlot (c c' : Cache) (p : Pixel) : Prop where
  stored : lookup c' (hash p) = p
  others : ∀ i, i ≠ hash p → lookup c' i = lookup c i

/-- The end of an op step (R142): SPOS and OPOS advance without wrapping, FOOTER follows when OPOS reaches NPIX. -/
structure Advanced (d d' : Decoder) (len cnt : Nat) : Prop where
  spos : d'.spos = d.spos + BitVec.ofNat 64 len
  opos : d'.opos.toNat = d.opos.toNat + cnt
  phase : d'.phase = if d'.opos = d.npix then .footer else .body

/-- Nothing but ENC differs, and the turn is used up. -/
structure EncMoved (s t : State) : Prop where
  dec : t.dec = s.dec
  hostq : t.hostq = s.hostq
  hostGot : t.hostGot = s.hostGot
  sched : t.sched = s.sched.tail
  freeIx : t.freeIx = s.freeIx

/-- The registers of ENC that no step of ENC writes, and PIXIN. -/
structure SameEncConfig (e e' : Encoder) : Prop where
  width : e'.width = e.width
  height : e'.height = e.height
  channels : e'.channels = e.channels
  colorspace : e'.colorspace = e.colorspace
  npix : e'.npix = e.npix
  err : e'.err = e.err
  pixin : e'.pixin = e.pixin

/-- What every op step leaves (R142): `px` is PREV and was written `cnt` times from OPOS on, SPOS advanced by `len`, and
no other register, space or agent changed; the cache is said apart. -/
structure OpDone (s t : State) (px : Pixel) (len cnt : Nat) : Prop where
  outside : SameOutsideDec s t
  config : SameConfig s.dec t.dec
  prev : t.dec.prev = px
  pixels : StoredRun s.dec.pixout t.dec.pixout s.dec.opos.toNat cnt px
  advanced : Advanced s.dec t.dec len cnt

/-- An op whose first byte is at SPOS and whose bytes go past SLEN raises TRUNCATED (R142). -/
def OpTruncates (k : OpKind) : Prop :=
  ∀ (s : State) (b0 : Byte), s.mover = .dec → s.dec.inBody = true → Space.read s.dec.sin s.dec.spos.toNat = some b0 →
    classify b0 = k → s.dec.slen.toNat < s.dec.spos.toNat + k.length →
    step s = .next { s.popTurn with dec := s.dec.raise .truncated }

/-- The bytes of an item stand where DEC's next fetch reads them, inside the stream (R141, R142, R150). -/
def Decoder.Presents (d : Decoder) (bytes : List Byte) : Position → Prop
  | .header => d.phase = .header ∧ bytes.length = 14 ∧ 14 ≤ d.slen.toNat ∧ Space.readN d.sin 0 14 = some bytes
  | .body =>
    d.inBody = true ∧ d.spos.toNat + bytes.length ≤ d.slen.toNat ∧
      Space.readN d.sin d.spos.toNat bytes.length = some bytes
  | .footer =>
    d.phase = .footer ∧ bytes.length = 8 ∧ d.spos.toNat + 8 ≤ d.slen.toNat ∧
      Space.readN d.sin d.spos.toNat 8 = some bytes

/-- ENC is about to take a pixel step on `px` (R123, R124; RUN_CNT as R11 bounds it). -/
structure Encoder.AtPixel (e : Encoder) (px : Pixel) : Prop where
  phase : e.phase = .body
  more : e.ppos.toNat < e.npix.toNat
  supplied : Space.read e.pixin e.ppos.toNat = some px
  run : e.runCnt.toNat ≤ 61

/-- The RUN byte of a pending run: 0xC0 + (count - 1), or nothing (R65, R124, R127). -/
def Encoder.pendingBytes (e : Encoder) : List Byte :=
  if e.runCnt.toNat = 0 then [] else [BitVec.ofNat 8 (0xC0 + (e.runCnt.toNat - 1))]

/-- What every pixel step of ENC leaves: PREV is the pixel, PPOS has advanced by one, the bytes were appended. -/
structure PixelDone (s t : State) (px : Pixel) (bytes : List Byte) : Prop where
  moved : EncMoved s t
  config : SameEncConfig s.enc t.enc
  phase : t.enc.phase = .body
  prev : t.enc.prev = px
  ppos : t.enc.ppos.toNat = s.enc.ppos.toNat + 1
  sout : t.enc.sout = s.enc.sout ++ bytes

/-! ## What HOST has supplied -/

/-- The space holds the sequence from index 0 on. -/
def Holds {α : Type} (m : Space α) (vs : List α) : Prop := ∀ i, i < vs.length → Space.read m i = vs[i]?

/-- ENC is at the beginning of an accepted call on the pixels `ps` (R120, R195). -/
structure Encoder.Ready (e : Encoder) (md : Metadata) (ps : List Pixel) : Prop where
  width : e.width = md.width
  height : e.height = md.height
  channels : e.channels = md.channels
  colorspace : e.colorspace = md.colorspace
  pixels : Holds e.pixin ps
  size : md.width.toNat * md.height.toNat = ps.length

/-- SIN and D_SLEN hold the stream `bytes` (R195). -/
structure Decoder.Ready (d : Decoder) (bytes : List Byte) : Prop where
  stream : Holds d.sin bytes
  slen : d.slen.toNat = bytes.length

/-- The metadata registers of DEC (R21). -/
def Decoder.metadata (d : Decoder) : Metadata := ⟨d.width, d.height, d.channels, d.colorspace⟩

/-- The metadata registers of ENC (R20). -/
def Encoder.metadata (e : Encoder) : Metadata := ⟨e.width, e.height, e.channels, e.colorspace⟩

/-- Metadata that ENC accepts (R115, R120). -/
def legalMetadata (md : Metadata) : Bool := legalChannels md.channels && legalColorspace md.colorspace

/-! ## Invariants -/

/-- Every slot holds a pixel of its own hash, or the zero pixel (R87 (b)). -/
def CacheInv (c : Cache) : Prop := ∀ i : Slot, hash (lookup c i) = i ∨ lookup c i = Config.zeroPixel

/-- Exactly the cells below `n` hold a value. -/
def FilledTo (m : Space Pixel) (n : Nat) : Prop := ∀ i, (Space.read m i).isSome = true ↔ i < n

/-- PREV is the last pixel of a space walked up to `n`, or START_PIXEL before the first (R121, R149). -/
def PrevIsLast (m : Space Pixel) (n : Nat) (prev : Pixel) : Prop :=
  if n = 0 then prev = Config.startPixel else Space.read m (n - 1) = some prev

/-- What holds of DEC in BODY and FOOTER (R149, R21). -/
structure Decoder.Running (d : Decoder) : Prop where
  npix : d.npix.toNat = d.width.toNat * d.height.toNat
  nonempty : 0 < d.npix.toNat
  legal : legalMetadata d.metadata = true
  err : d.err = .noError
  posLow : 14 ≤ d.spos.toNat
  posHigh : d.spos.toNat ≤ d.slen.toNat
  filled : FilledTo d.pixout d.opos.toNat
  prev : PrevIsLast d.pixout d.opos.toNat d.prev
  cache : CacheInv d.cache

/-- The invariant of DEC (R14, R30, R87, R149, R171). -/
structure Decoder.Inv (d : Decoder) : Prop where
  sinWf : Memory.wf d.sin = true
  pixoutWf : Space.wf d.pixout = true
  idle : d.phase = .idle → d.err = .noError ∧ d.pixout = []
  header : d.phase = .header →
    d.err = .noError ∧ d.pixout = [] ∧ d.spos = 0 ∧ d.opos = 0 ∧ d.prev = Config.startPixel ∧ d.cache = Cache.zero
  body : d.phase = .body → d.Running ∧ d.opos.toNat < d.npix.toNat
  footer : d.phase = .footer → d.Running ∧ d.opos = d.npix
  done : d.phase = .done → d.err = .noError ∧ d.opos = d.npix ∧ FilledTo d.pixout d.npix.toNat
  error : d.phase = .error → d.err ≠ .noError ∧ d.pixout = []

/-- What holds of ENC from HEADER to FOOTER (R120, R121). -/
structure Encoder.Running (e : Encoder) : Prop where
  npix : e.npix.toNat = e.width.toNat * e.height.toNat
  nonempty : 0 < e.npix.toNat
  legal : legalMetadata e.metadata = true
  err : e.err = .noError
  pos : e.ppos.toNat ≤ e.npix.toNat
  runLt : e.runCnt.toNat ≤ 61
  runLe : e.runCnt.toNat ≤ e.ppos.toNat
  pending : ∀ i, e.ppos.toNat ≤ i + e.runCnt.toNat → i < e.ppos.toNat → Space.read e.pixin i = some e.prev
  prev : PrevIsLast e.pixin e.ppos.toNat e.prev
  cache : CacheInv e.cache

/-- The invariant of ENC (R14, R30, R87, R121, R171). -/
structure Encoder.Inv (e : Encoder) : Prop where
  pixinWf : Space.wf e.pixin = true
  idle : e.phase = .idle → e.err = .noError ∧ e.sout = []
  header : e.phase = .header →
    e.Running ∧ e.sout = [] ∧ e.ppos = 0 ∧ e.runCnt = 0 ∧ e.prev = Config.startPixel ∧ e.cache = Cache.zero
  body : e.phase = .body → e.Running ∧ writeHeader e.metadata <+: e.sout
  footer : e.phase = .footer → e.Running ∧ e.ppos = e.npix ∧ e.runCnt = 0 ∧ writeHeader e.metadata <+: e.sout
  done : e.phase = .done → e.err = .noError ∧ footerBytes <:+ e.sout
  error : e.phase = .error → e.err ≠ .noError ∧ e.sout = []

/-- The invariant of the machine: both engines meet theirs. -/
structure State.Inv (s : State) : Prop where
  enc : s.enc.Inv
  dec : s.dec.Inv

/-! ## Phases and HOST's moves -/

/-- The moves of PHASE in a call that goes well: HEADER, BODY, FOOTER, DONE (R133, R152). -/
def Phase.advance : Phase → Phase → Bool
  | .header, .body => true
  | .body, .footer => true
  | .footer, .done => true
  | _, _ => false

/-- It is HOST's turn, and `m` is the move it makes. -/
def State.HostMakes (s : State) (m : HostMove) : Prop := s.mover = .host ∧ ∃ rest, s.hostq = m :: rest

end Sys2Proof.Machine
end

