-- ==== Sys2Proof/Certificates/Slice0/Obligations.lean ====
section
/-! DEFINITION. The statements about the model, for the provers. Each docstring says which rule it formalises; "derived"
means that it rests on what the spec itself marks as an inference, on one part of a rule, or on a log entry. -/

open Sys2Proof Sys2Proof.Machine

/-! ## Encoding -/

/-- Derived, 41_opcodec.md section 3 (R101 (b), marked derived, for the six ops), 42_framecodec.md R114 for HEADER,
30_encoding.md R74 and 42_framecodec.md R111 for FOOTER: decoding the bytes of any well-formed item gives the item back,
whatever bytes follow. -/
def Obligations.WellFormedItemsRoundTrip : Prop :=
  ∀ i : Instr, i.wellFormed = true →
    ∃ bytes, encode i = .ok bytes ∧ ∀ rest, decode i.position (bytes ++ rest) = .ok (i, rest)

/-- Derived, 41_opcodec.md section 3 (R101 (c), marked derived): the bytes a decode uses are the bytes its item packs to,
an item decoded at a position stands at that position, and an op decoded in the body has its operands in range. -/
def Obligations.DecodedBytesPackBack : Prop :=
  ∀ (pos : Position) (bytes rest : List Byte) (i : Instr), decode pos bytes = .ok (i, rest) →
    (∃ own, encode i = .ok own ∧ bytes = own ++ rest) ∧ i.position = pos ∧ (pos = .body → i.wellFormed = true)

/-- R60: the ordered classification of a first byte, the lengths, that exactly one row of the op table takes each byte,
and that the first byte alone decides how many bytes the op has. -/
def Obligations.FirstByteDecidesOpAndLength : Prop :=
  (∀ b0 : Byte,
    (b0.toNat = 0xFF → classify b0 = .rgba) ∧ (b0.toNat = 0xFE → classify b0 = .rgb) ∧
    (0xC0 ≤ b0.toNat → b0.toNat ≤ 0xFD → classify b0 = .run) ∧ (b0.toNat ≤ 0x3F → classify b0 = .index) ∧
    (0x40 ≤ b0.toNat → b0.toNat ≤ 0x7F → classify b0 = .diff) ∧
    (0x80 ≤ b0.toNat → b0.toNat ≤ 0xBF → classify b0 = .luma)) ∧
  (OpKind.rgba.length = 5 ∧ OpKind.rgb.length = 4 ∧ OpKind.run.length = 1 ∧ OpKind.index.length = 1 ∧
    OpKind.diff.length = 1 ∧ OpKind.luma.length = 2) ∧
  (∀ b0 : Byte, (opRows.filter fun row => row.selects b0).map (fun row => row.kind) = [classify b0]) ∧
  (∀ (b0 : Byte) (more : List Byte), (classify b0).length ≤ more.length + 1 →
    ∃ i, decodeOp (b0 :: more) = .ok (i, (b0 :: more).drop (classify b0).length)) ∧
  (∀ (b0 : Byte) (more : List Byte), more.length + 1 < (classify b0).length →
    decodeOp (b0 :: more) = .error .truncated)

/-- Derived, 30_encoding.md section 2 and 95_test_vectors.md Part 2: words written out from the formats decode to the items
they stand for (the magic's byte values are PRESUMED, log 12). -/
def Obligations.SpecWordsDecode : Prop :=
  decodeOp [0xFF, 0x05, 0x05, 0x05, 0xC8] = .ok (.rgba 5 5 5 200, []) ∧
  decodeOp [0xFE, 0x0A, 0x14, 0x1E] = .ok (.rgb 10 20 30, []) ∧
  decodeOp [0xC2] = .ok (.run 3, []) ∧
  decodeOp [0x09] = .ok (.index 9, []) ∧
  decodeOp [0x79] = .ok (.diff 1 0 (-1), []) ∧
  decodeOp [0xAA, 0x3A] = .ok (.luma 10 (-5) 2, []) ∧
  decodeHeader [0x71, 0x6F, 0x69, 0x66, 0, 0, 0, 2, 0, 0, 0, 3, 4, 0] = .ok (.header Config.magic 2 3 4 0, []) ∧
  decodeFooter [0, 0, 0, 0, 0, 0, 0, 1] = .ok (.footer Config.footerMarker, [])

/-- R63 and R91: the DIFF byte is 0x40 + 16·fr + 4·fg + fb with each field its delta plus 2; an operand outside [-2, 1]
is refused with OP_RANGE. -/
def Obligations.DiffByteLayout : Prop :=
  ∀ dr dg db : Delta,
    ((-2 ≤ dr.toInt ∧ dr.toInt ≤ 1) ∧ (-2 ≤ dg.toInt ∧ dg.toInt ≤ 1) ∧ (-2 ≤ db.toInt ∧ db.toInt ≤ 1) →
      ∃ b : Byte, packDiff dr dg db = .ok [b] ∧
        (b.toNat : Int) = 0x40 + 16 * (dr.toInt + 2) + 4 * (dg.toInt + 2) + (db.toInt + 2)) ∧
    (¬((-2 ≤ dr.toInt ∧ dr.toInt ≤ 1) ∧ (-2 ≤ dg.toInt ∧ dg.toInt ≤ 1) ∧ (-2 ≤ db.toInt ∧ db.toInt ≤ 1)) →
      packDiff dr dg db = .error .opRange)

/-- R64 and R92: the LUMA bytes are 0x80 + fg and 16·frg + fbg with fg = dg + 32, frg = drg + 8, fbg = dbg + 8; an
operand outside its range is refused with OP_RANGE. -/
def Obligations.LumaByteLayout : Prop :=
  ∀ dg drg dbg : Delta,
    ((-32 ≤ dg.toInt ∧ dg.toInt ≤ 31) ∧ (-8 ≤ drg.toInt ∧ drg.toInt ≤ 7) ∧ (-8 ≤ dbg.toInt ∧ dbg.toInt ≤ 7) →
      ∃ b0 b1 : Byte, packLuma dg drg dbg = .ok [b0, b1] ∧ (b0.toNat : Int) = 0x80 + (dg.toInt + 32) ∧
        (b1.toNat : Int) = 16 * (drg.toInt + 8) + (dbg.toInt + 8)) ∧
    (¬((-32 ≤ dg.toInt ∧ dg.toInt ≤ 31) ∧ (-8 ≤ drg.toInt ∧ drg.toInt ≤ 7) ∧ (-8 ≤ dbg.toInt ∧ dbg.toInt ≤ 7)) →
      packLuma dg drg dbg = .error .opRange)

/-- R62, R65, R90, R93: the INDEX byte is idx, the RUN byte is 0xC0 + (count - 1); an operand outside 0..63 or 1..62 is
refused with OP_RANGE. -/
def Obligations.RunAndIndexByteLayout : Prop :=
  (∀ idx : Byte,
    (idx.toNat ≤ 63 → packIndex idx = .ok [idx]) ∧ (63 < idx.toNat → packIndex idx = .error .opRange)) ∧
  (∀ count : Byte,
    (1 ≤ count.toNat → count.toNat ≤ 62 → ∃ b : Byte, packRun count = .ok [b] ∧ b.toNat = 0xC0 + (count.toNat - 1)) ∧
    (count.toNat = 0 ∨ 62 < count.toNat → packRun count = .error .opRange))

/-! ## Arithmetic and the cache unit -/

/-- R98 and R100: a delta is the signed reading of the wrapped difference, and applying a delta wraps mod 256. -/
def Obligations.DeltaArithmetic : Prop :=
  ∀ cur prev : Byte,
    (-128 ≤ (delta cur prev).toInt ∧ (delta cur prev).toInt ≤ 127 ∧
      (delta cur prev).toInt % 256 = ((cur.toNat : Int) - prev.toNat) % 256) ∧
    (∀ d : Int, ((applyDelta prev d).toNat : Int) = ((prev.toNat : Int) + d) % 256)

/-- Derived, 41_opcodec.md section 3 (R101 (a)) with 43_encoder.md R126: applying the delta of two channels gives the first
back, and executing the literal op chosen for a pixel gives that pixel once and stores it. -/
def Obligations.DeltasAndLiteralsInvert : Prop :=
  (∀ cur prev : Byte, applyDelta prev (delta cur prev).toInt = cur) ∧
  (∀ (px prev : Pixel) (cache : Cache),
    (literalItem px prev).wellFormed = true ∧ opEffect (literalItem px prev) ⟨prev, cache⟩ = (px, 1, store cache px))

/-- Derived, 40_pixelcache.md R80 with R81 (marked derived): the slot number is the weighted sum mod 64, and it is the
same with an adder of any width of 6 bits or more. -/
def Obligations.HashIgnoresAdderWidth : Prop :=
  ∀ (p : Pixel) (k : Nat), 6 ≤ k →
    (hash p).toNat = (p.r.toNat * 3 + p.g.toNat * 5 + p.b.toNat * 7 + p.a.toNat * 11) % 64 ∧
    (hash p).toNat =
      ((((p.r.toNat * 3 % 2 ^ k + p.g.toNat * 5 % 2 ^ k) % 2 ^ k + p.b.toNat * 7 % 2 ^ k) % 2 ^ k +
        p.a.toNat * 11 % 2 ^ k) % 2 ^ k) % 64

/-- R83 and R84: a store overwrites the slot of the pixel and no other, storing what the slot already holds changes
nothing, hit looks at the one slot of the pixel, and at START it is true of the zero pixel alone. -/
def Obligations.CacheStoreAndHit : Prop :=
  (∀ (c : Cache) (p : Pixel), StoredSlot c (store c p) p ∧ hit (store c p) p = true ∧
    (lookup c (hash p) = p → store c p = c) ∧ (hit c p = true ↔ lookup c (hash p) = p)) ∧
  (∀ p : Pixel, hit Cache.zero p = true ↔ p = Config.zeroPixel)

/-! ## The six ops -/

/-- R143: RGBA. The four payload bytes are the pixel; it is stored and written once; 5 bytes; TRUNCATED when fewer
remain. -/
def Obligations.RgbaWritesItsPixel : Prop :=
  (∀ (r g b a : Byte) (rest : List Byte), decodeOp (0xFF :: r :: g :: b :: a :: rest) = .ok (.rgba r g b a, rest)) ∧
  (∀ (r g b a : Byte) (s : State), s.dec.inBody = true →
    ∃ t, exec (.rgba r g b a) s = .next t ∧ OpDone s t ⟨r, g, b, a⟩ 5 1 ∧
      StoredSlot s.dec.cache t.dec.cache ⟨r, g, b, a⟩) ∧
  OpTruncates .rgba

/-- R144: RGB. The three payload bytes with the alpha of PREV; stored and written once; 4 bytes; TRUNCATED when fewer
remain. -/
def Obligations.RgbInheritsAlpha : Prop :=
  (∀ (r g b : Byte) (rest : List Byte), decodeOp (0xFE :: r :: g :: b :: rest) = .ok (.rgb r g b, rest)) ∧
  (∀ (r g b : Byte) (s : State), s.dec.inBody = true →
    ∃ t, exec (.rgb r g b) s = .next t ∧ OpDone s t ⟨r, g, b, s.dec.prev.a⟩ 4 1 ∧
      StoredSlot s.dec.cache t.dec.cache ⟨r, g, b, s.dec.prev.a⟩) ∧
  OpTruncates .rgb

/-- R145: RUN. count = b[0][5:0] + 1 copies of PREV, PREV and the cache unchanged, 1 byte; RUN_OVERRUN, with none of the
run's pixels written, when the run does not fit. -/
def Obligations.RunRepeatsPrevOrOverruns : Prop :=
  (∀ (b0 : Byte) (rest : List Byte), 0xC0 ≤ b0.toNat → b0.toNat ≤ 0xFD →
    ∃ count : Byte, decodeOp (b0 :: rest) = .ok (.run count, rest) ∧ count.toNat = b0.toNat % 64 + 1) ∧
  (∀ (count : Byte) (s : State), s.dec.inBody = true →
    s.dec.opos.toNat + count.toNat ≤ s.dec.npix.toNat →
    ∃ t, exec (.run count) s = .next t ∧ OpDone s t s.dec.prev 1 count.toNat ∧ t.dec.cache = s.dec.cache) ∧
  (∀ (count : Byte) (s : State), s.dec.inBody = true →
    s.dec.npix.toNat < s.dec.opos.toNat + count.toNat →
    exec (.run count) s = .next { s with dec := s.dec.raise .runOverrun })

/-- R146: INDEX. The pixel of slot b[0][5:0], whatever the slot holds, is written once and becomes PREV; nothing is
stored; 1 byte. -/
def Obligations.IndexReplaysTheSlot : Prop :=
  (∀ (b0 : Byte) (rest : List Byte), b0.toNat ≤ 0x3F →
    ∃ idx : Slot, decodeOp (b0 :: rest) = .ok (.index idx, rest) ∧ idx.toNat = b0.toNat) ∧
  (∀ (idx : Slot) (s : State), s.dec.inBody = true →
    ∃ t, exec (.index idx) s = .next t ∧ OpDone s t (lookup s.dec.cache idx) 1 1 ∧ t.dec.cache = s.dec.cache)

/-- R147: DIFF. Each field minus 2 is added to its channel of PREV mod 256, alpha unchanged; stored and written once;
1 byte. -/
def Obligations.DiffAddsToPrev : Prop :=
  (∀ (b0 : Byte) (rest : List Byte), 0x40 ≤ b0.toNat → b0.toNat ≤ 0x7F →
    ∃ dr dg db : Delta, decodeOp (b0 :: rest) = .ok (.diff dr dg db, rest) ∧
      dr.toInt = (b0.toNat / 16 % 4 : Nat) - 2 ∧ dg.toInt = (b0.toNat / 4 % 4 : Nat) - 2 ∧
      db.toInt = (b0.toNat % 4 : Nat) - 2) ∧
  (∀ (dr dg db : Delta) (s : State), s.dec.inBody = true →
    ∃ (t : State) (px : Pixel), exec (.diff dr dg db) s = .next t ∧
      (px.r.toNat : Int) = (s.dec.prev.r.toNat + dr.toInt) % 256 ∧
      (px.g.toNat : Int) = (s.dec.prev.g.toNat + dg.toInt) % 256 ∧
      (px.b.toNat : Int) = (s.dec.prev.b.toNat + db.toInt) % 256 ∧ px.a = s.dec.prev.a ∧
      OpDone s t px 1 1 ∧ StoredSlot s.dec.cache t.dec.cache px)

/-- R148: LUMA. dg is its field minus 32, drg and dbg theirs minus 8; dr = drg + dg and db = dbg + dg are added with dg
to PREV mod 256, alpha unchanged; stored and written once; 2 bytes; TRUNCATED when the second is missing. -/
def Obligations.LumaAddsToPrev : Prop :=
  (∀ (b0 b1 : Byte) (rest : List Byte), 0x80 ≤ b0.toNat → b0.toNat ≤ 0xBF →
    ∃ dg drg dbg : Delta, decodeOp (b0 :: b1 :: rest) = .ok (.luma dg drg dbg, rest) ∧
      dg.toInt = (b0.toNat % 64 : Nat) - 32 ∧ drg.toInt = (b1.toNat / 16 : Nat) - 8 ∧
      dbg.toInt = (b1.toNat % 16 : Nat) - 8) ∧
  (∀ (dg drg dbg : Delta) (s : State), s.dec.inBody = true →
    ∃ (t : State) (px : Pixel), exec (.luma dg drg dbg) s = .next t ∧
      (px.r.toNat : Int) = (s.dec.prev.r.toNat + (drg.toInt + dg.toInt)) % 256 ∧
      (px.g.toNat : Int) = (s.dec.prev.g.toNat + dg.toInt) % 256 ∧
      (px.b.toNat : Int) = (s.dec.prev.b.toNat + (dbg.toInt + dg.toInt)) % 256 ∧ px.a = s.dec.prev.a ∧
      OpDone s t px 2 1 ∧ StoredSlot s.dec.cache t.dec.cache px) ∧
  OpTruncates .luma

/-! ## The two frames -/

/-- R141: the header step. TRUNCATED below 14 bytes; else the checks in the order magic, channels, colorspace, size, each
raising with nothing written; else the D_ registers, NPIX = width × height exactly, SPOS = 14 and BODY, and nothing else. -/
def Obligations.HeaderOpensTheBody : Prop :=
  (∀ s : State, s.mover = .dec → s.dec.phase = .header → s.dec.slen.toNat < 14 →
    step s = .next { s.popTurn with dec := s.dec.raise .truncated }) ∧
  (∀ (m w h : BitVec 32) (c cs : Byte) (s : State), s.mover = .dec →
    s.dec.Presents (be32 m ++ be32 w ++ be32 h ++ [c, cs]) .header →
    step s = exec (.header m w h c cs) s.popTurn) ∧
  (∀ (m w h : BitVec 32) (c cs : Byte) (s : State), s.dec.phase = .header →
    (m ≠ Config.magic → exec (.header m w h c cs) s = .next { s with dec := s.dec.raise .badMagic }) ∧
    (m = Config.magic → ¬(c.toNat = 3 ∨ c.toNat = 4) →
      exec (.header m w h c cs) s = .next { s with dec := s.dec.raise .badChannels }) ∧
    (m = Config.magic → (c.toNat = 3 ∨ c.toNat = 4) → ¬(cs.toNat = 0 ∨ cs.toNat = 1) →
      exec (.header m w h c cs) s = .next { s with dec := s.dec.raise .badColorspace }) ∧
    (m = Config.magic → (c.toNat = 3 ∨ c.toNat = 4) → (cs.toNat = 0 ∨ cs.toNat = 1) → w.toNat * h.toNat = 0 →
      exec (.header m w h c cs) s = .next { s with dec := s.dec.raise .zeroSize }) ∧
    (m = Config.magic → (c.toNat = 3 ∨ c.toNat = 4) → (cs.toNat = 0 ∨ cs.toNat = 1) → w.toNat * h.toNat ≠ 0 →
      ∃ npix : Count, npix.toNat = w.toNat * h.toNat ∧
        exec (.header m w h c cs) s = .next { s with dec := { s.dec with
          width := w, height := h, channels := c, colorspace := cs, npix := npix, spos := 14, phase := .body } }))

/-- R113 and R150: the footer step. BAD_FOOTER when fewer than 8 bytes remain or the 8 bytes differ from FOOTER, then
TRAILING_DATA when bytes follow; else SPOS advances by 8 and the call is DONE, and nothing else changes. -/
def Obligations.FooterClosesTheCall : Prop :=
  (∀ s : State, s.mover = .dec → s.dec.phase = .footer → s.dec.slen.toNat < s.dec.spos.toNat + 8 →
    step s = .next { s.popTurn with dec := s.dec.raise .badFooter }) ∧
  (∀ (marker : BitVec 64) (s : State), s.mover = .dec → s.dec.Presents (be64 marker) .footer →
    step s = exec (.footer marker) s.popTurn) ∧
  (∀ (marker : BitVec 64) (s : State), s.dec.phase = .footer →
    (be64 marker ≠ [0, 0, 0, 0, 0, 0, 0, 1] →
      exec (.footer marker) s = .next { s with dec := s.dec.raise .badFooter }) ∧
    (be64 marker = [0, 0, 0, 0, 0, 0, 0, 1] → s.dec.spos.toNat + 8 ≠ s.dec.slen.toNat →
      exec (.footer marker) s = .next { s with dec := s.dec.raise .trailingData }) ∧
    (be64 marker = [0, 0, 0, 0, 0, 0, 0, 1] → s.dec.spos.toNat + 8 = s.dec.slen.toNat →
      exec (.footer marker) s = .next { s with dec := { s.dec with spos := s.dec.spos + 8, phase := .done } }))

/-! ## Frames and the step -/

/-- Derived, 44_decoder.md sections 1 to 4 and 60_exceptions.md section 2: what executing an item leaves alone. Only DEC
changes; SLEN and SIN never; an op writes no D_ register and not NPIX; RUN and INDEX leave the cache; a frame leaves
PREV, the cache and OPOS; and outside the cells from the old OPOS to the new one PIXOUT reads as before. After an error
PIXOUT holds no value at all (the model's choice, log 4), and PREV, CACHE, SPOS and OPOS are what they were: the raising
step writes nothing of its own, and that these registers, dead until the next START and open by U2, then keep their values
is the model's choice (DEDUCED, unsafe, log 23). -/
def Obligations.ItemsLeaveTheRestAlone : Prop :=
  ∀ (i : Instr) (s t : State), exec i s = .next t →
    SameOutsideDec s t ∧ t.dec.slen = s.dec.slen ∧ t.dec.sin = s.dec.sin ∧
    (i.position = .body → t.dec.metadata = s.dec.metadata ∧ t.dec.npix = s.dec.npix) ∧
    (i.position ≠ .body → t.dec.prev = s.dec.prev ∧ t.dec.cache = s.dec.cache ∧ t.dec.opos = s.dec.opos) ∧
    (∀ count, i = .run count → t.dec.cache = s.dec.cache) ∧
    (∀ idx, i = .index idx → t.dec.cache = s.dec.cache) ∧
    (t.dec.phase ≠ .error → t.dec.err = s.dec.err ∧
      ∀ j, (j < s.dec.opos.toNat ∨ t.dec.opos.toNat ≤ j) → Space.read t.dec.pixout j = Space.read s.dec.pixout j) ∧
    (t.dec.phase = .error → t.dec.prev = s.dec.prev ∧ t.dec.cache = s.dec.cache ∧ t.dec.spos = s.dec.spos ∧
      t.dec.opos = s.dec.opos ∧ ∀ j, Space.read t.dec.pixout j = none)

/-- Derived, 44_decoder.md sections 1, 2 and 4 and log 6: when it is DEC's turn and the bytes where its phase fetches
decode to an item, the step uses up the turn and is exec of that item. -/
def Obligations.StepRunsTheDecodedItem : Prop :=
  ∀ (s : State) (pos : Position) (bytes : List Byte) (i : Instr), s.mover = .dec → s.dec.Presents bytes pos →
    decode pos bytes = .ok (i, []) → step s = exec i s.popTurn

/-- R142: the op step. TRUNCATED when no byte is left, TRUNCATED when the stream ends inside the op; else the op's own
effect (`opEffect`, the rules R143 to R148) gives the pixel, the count and the cache, PREV is that pixel, SPOS advances
by the op's length and OPOS by the count without wrapping, and FOOTER follows exactly when the output is full. -/
def Obligations.OpStepFetchesExecutesAdvances : Prop :=
  ∀ s : State, s.mover = .dec → s.dec.inBody = true →
    (s.dec.slen.toNat < s.dec.spos.toNat + 1 → step s = .next { s.popTurn with dec := s.dec.raise .truncated }) ∧
    (∀ b0, Space.read s.dec.sin s.dec.spos.toNat = some b0 →
      s.dec.slen.toNat < s.dec.spos.toNat + (classify b0).length →
      step s = .next { s.popTurn with dec := s.dec.raise .truncated }) ∧
    (∀ (bytes : List Byte) (i : Instr) (px : Pixel) (cnt : Nat) (cache : Cache), s.dec.Presents bytes .body →
      decodeOp bytes = .ok (i, []) → opEffect i ⟨s.dec.prev, s.dec.cache⟩ = (px, cnt, cache) →
      s.dec.opos.toNat + cnt ≤ s.dec.npix.toNat →
      ∃ t, step s = .next t ∧ t.enc = s.enc ∧ SameConfig s.dec t.dec ∧ t.dec.prev = px ∧ t.dec.cache = cache ∧
        t.dec.spos.toNat = s.dec.spos.toNat + bytes.length ∧ t.dec.opos.toNat = s.dec.opos.toNat + cnt ∧
        StoredRun s.dec.pixout t.dec.pixout s.dec.opos.toNat cnt px ∧
        (t.dec.opos = s.dec.npix → t.dec.phase = .footer) ∧ (t.dec.opos ≠ s.dec.npix → t.dec.phase = .body))

/-! ## The encoder engine -/

/-- R120: ENC START. Illegal metadata is BAD_META before anything else, a zero size is ZERO_SIZE; else NPIX is the exact
product, PREV, CACHE, RUN_CNT, PPOS, ERR and SOUT are initialised and HEADER follows; START emits nothing. -/
def Obligations.EncStartInitialisesOrRefuses : Prop :=
  ∀ e : Encoder,
    (¬((e.channels.toNat = 3 ∨ e.channels.toNat = 4) ∧ (e.colorspace.toNat = 0 ∨ e.colorspace.toNat = 1)) →
      e.start.phase = .error ∧ e.start.err = .badMeta ∧ e.start.sout = []) ∧
    ((e.channels.toNat = 3 ∨ e.channels.toNat = 4) → (e.colorspace.toNat = 0 ∨ e.colorspace.toNat = 1) →
      e.width.toNat * e.height.toNat = 0 →
      e.start.phase = .error ∧ e.start.err = .zeroSize ∧ e.start.sout = []) ∧
    ((e.channels.toNat = 3 ∨ e.channels.toNat = 4) → (e.colorspace.toNat = 0 ∨ e.colorspace.toNat = 1) →
      e.width.toNat * e.height.toNat ≠ 0 →
      ∃ npix : Count, npix.toNat = e.width.toNat * e.height.toNat ∧
        e.start = { e with
          npix := npix, prev := ⟨0, 0, 0, 255⟩, cache := Cache.zero, runCnt := 0, ppos := 0, err := .noError,
          sout := [], phase := .header })

/-- R122: the header step of ENC emits the 14 header bytes and enters BODY; nothing else changes. -/
def Obligations.EncHeaderStepEmitsHeader : Prop :=
  ∀ s : State, s.mover = .enc → s.enc.phase = .header →
    step s = .next { s.popTurn with enc := { s.enc with
      sout := s.enc.sout ++ (be32 Config.magic ++ be32 s.enc.width ++ be32 s.enc.height ++
        [s.enc.channels, s.enc.colorspace]),
      phase := .body } }

/-- R123: a pixel equal to PREV is counted; the 62nd emits the byte 0xFD and the count restarts; the cache is neither
read nor written. -/
def Obligations.EncRunPixelCounts : Prop :=
  ∀ (s : State) (px : Pixel), s.mover = .enc → s.enc.AtPixel px → px = s.enc.prev →
    ∃ t, step s = .next t ∧ t.enc.cache = s.enc.cache ∧
      (s.enc.runCnt.toNat < 61 → PixelDone s t px [] ∧ t.enc.runCnt.toNat = s.enc.runCnt.toNat + 1) ∧
      (s.enc.runCnt.toNat = 61 → PixelDone s t px [0xFD] ∧ t.enc.runCnt = 0)

/-- R125, inside R124: a pixel that differs from PREV and is in its slot. The pending run is flushed first, then one INDEX
byte with the slot number is emitted; the cache is untouched. -/
def Obligations.EncCacheHitEmitsIndex : Prop :=
  ∀ (s : State) (px : Pixel), s.mover = .enc → s.enc.AtPixel px → px ≠ s.enc.prev →
    lookup s.enc.cache (hash px) = px →
    ∃ (t : State) (b : Byte), step s = .next t ∧ b.toNat = (hash px).toNat ∧
      PixelDone s t px (s.enc.pendingBytes ++ [b]) ∧ t.enc.runCnt = 0 ∧ t.enc.cache = s.enc.cache

/-- R126, inside R124: a pixel that differs from PREV and is not in its slot. The pending run is flushed first, the pixel is
stored, and the literal is RGBA when alpha changed, else DIFF, LUMA or RGB, the first that fits the wrapped deltas. -/
def Obligations.EncCacheMissEmitsLiteral : Prop :=
  ∀ (s : State) (px : Pixel), s.mover = .enc → s.enc.AtPixel px → px ≠ s.enc.prev →
    lookup s.enc.cache (hash px) ≠ px →
    ∃ (t : State) (bytes : List Byte), step s = .next t ∧ PixelDone s t px (s.enc.pendingBytes ++ bytes) ∧
      t.enc.runCnt = 0 ∧ StoredSlot s.enc.cache t.enc.cache px ∧
      (px.a ≠ s.enc.prev.a → bytes = [0xFF, px.r, px.g, px.b, px.a]) ∧
      (px.a = s.enc.prev.a →
        ∀ dr dg db : Delta, dr = delta px.r s.enc.prev.r → dg = delta px.g s.enc.prev.g →
          db = delta px.b s.enc.prev.b →
          (fitsDiff dr dg db = true → packDiff dr dg db = .ok bytes) ∧
          (fitsDiff dr dg db = false → fitsLuma dr dg db = true →
            packLuma dg (u8 (dr.toInt - dg.toInt)) (u8 (db.toInt - dg.toInt)) = .ok bytes) ∧
          (fitsDiff dr dg db = false → fitsLuma dr dg db = false → bytes = [0xFE, px.r, px.g, px.b]))

/-- R127: the end-of-image step flushes the pending run if there is one and enters FOOTER; an exact multiple of 62 emits
nothing. -/
def Obligations.EncEndOfImageFlushes : Prop :=
  ∀ s : State, s.mover = .enc → s.enc.phase = .body → s.enc.ppos = s.enc.npix → s.enc.runCnt.toNat ≤ 61 →
    step s = .next { s.popTurn with enc := { s.enc with
      sout := s.enc.sout ++ s.enc.pendingBytes, runCnt := 0, phase := .footer } }

/-- R129: the footer step emits the eight footer bytes and the call is DONE; nothing else changes. -/
def Obligations.EncFooterStepEnds : Prop :=
  ∀ s : State, s.mover = .enc → s.enc.phase = .footer →
    step s = .next { s.popTurn with enc := { s.enc with
      sout := s.enc.sout ++ [0, 0, 0, 0, 0, 0, 0, 1], phase := .done } }

/-- Derived, 43_encoder.md section 5 (R135), 92_eei_decisions.md D3, 10_state.md section 3 and 60_exceptions.md section 2:
an engine whose next pixel or byte has not been supplied, in whatever step needs it, and an engine that is not BUSY have
no enabled step; a turn given to them changes nothing but the turn (the model's choice, logs 5 and 20). -/
def Obligations.StarvedEngineWaits : Prop :=
  (∀ s : State, s.mover = .enc →
    (s.enc.phase = .idle ∨ s.enc.phase = .done ∨ s.enc.phase = .error ∨
      (s.enc.phase = .body ∧ s.enc.ppos.toNat < s.enc.npix.toNat ∧
        Space.read s.enc.pixin s.enc.ppos.toNat = none)) →
    s.enc.enabled = false ∧ step s = .next s.popTurn) ∧
  (∀ s : State, s.mover = .dec →
    (s.dec.phase = .idle ∨ s.dec.phase = .done ∨ s.dec.phase = .error ∨
      (s.dec.phase = .header ∧ 14 ≤ s.dec.slen.toNat ∧ ∃ j, j < 14 ∧ Space.read s.dec.sin j = none) ∨
      (s.dec.inBody = true ∧ s.dec.spos.toNat < s.dec.slen.toNat ∧ Space.read s.dec.sin s.dec.spos.toNat = none) ∨
      (s.dec.inBody = true ∧ ∃ b0, Space.read s.dec.sin s.dec.spos.toNat = some b0 ∧
        s.dec.spos.toNat + (classify b0).length ≤ s.dec.slen.toNat ∧
        ∃ j, j < (classify b0).length ∧ Space.read s.dec.sin (s.dec.spos.toNat + j) = none) ∨
      (s.dec.phase = .footer ∧ s.dec.spos.toNat + 8 ≤ s.dec.slen.toNat ∧
        ∃ j, j < 8 ∧ Space.read s.dec.sin (s.dec.spos.toNat + j) = none)) →
    s.dec.enabled = false ∧ step s = .next s.popTurn)

/-- Derived, 43_encoder.md section 5 (R134 (b)) and 41_opcodec.md R103 (its last part is marked derived): once a call of
ENC is running, no step of the machine takes ENC to ERROR. -/
def Obligations.EncNeverRaisesAfterStart : Prop :=
  ∀ s t : State, s.Inv → step s = .next t → s.enc.phase.busy = true → t.enc.phase ≠ .error

/-- R131 and R132: the selection. A pixel equal to PREV is a run; else INDEX when it is in its slot; else the literal.
The literal is DIFF when the deltas fit, LUMA when only it fits, RGB when neither does, RGBA exactly when alpha changed;
no op that comes before the chosen one in the order DIFF, LUMA, RGB, RGBA could represent the pixel. -/
def Obligations.SelectionFollowsThePriority : Prop :=
  ∀ (px prev : Pixel) (cache : Cache),
    (px = prev → select px prev cache = .run) ∧
    (px ≠ prev → lookup cache (hash px) = px → select px prev cache = .op (.index (hash px))) ∧
    (px ≠ prev → lookup cache (hash px) ≠ px →
      select px prev cache = .op (literalItem px prev) ∧
      ∀ dr dg db : Delta, dr = delta px.r prev.r → dg = delta px.g prev.g → db = delta px.b prev.b →
        (px.a ≠ prev.a → literalItem px prev = .rgba px.r px.g px.b px.a ∧
          ∀ other : Instr, other.position = .body → other.wellFormed = true → (∀ k, other ≠ .index k) →
            (opEffect other ⟨prev, cache⟩).1 = px → other = .rgba px.r px.g px.b px.a) ∧
        (px.a = prev.a → fitsDiff dr dg db = true → literalItem px prev = .diff dr dg db) ∧
        (px.a = prev.a → fitsDiff dr dg db = false → fitsLuma dr dg db = true →
          literalItem px prev = .luma dg (u8 (dr.toInt - dg.toInt)) (u8 (db.toInt - dg.toInt)) ∧
          ∀ x y z : Delta, (Instr.diff x y z).wellFormed = true → (opEffect (.diff x y z) ⟨prev, cache⟩).1 ≠ px) ∧
        (px.a = prev.a → fitsDiff dr dg db = false → fitsLuma dr dg db = false →
          literalItem px prev = .rgb px.r px.g px.b ∧
          (∀ x y z : Delta, (Instr.diff x y z).wellFormed = true → (opEffect (.diff x y z) ⟨prev, cache⟩).1 ≠ px) ∧
          (∀ x y z : Delta, (Instr.luma x y z).wellFormed = true → (opEffect (.luma x y z) ⟨prev, cache⟩).1 ≠ px)))

/-! ## HOST -/

/-- R140: DEC START clears ERR, sets PREV to START_PIXEL, every slot to the zero pixel, SPOS and OPOS to 0, empties
PIXOUT and enters HEADER; it reads nothing else and leaves SLEN, SIN and the D_ registers. -/
def Obligations.DecStartInitialises : Prop :=
  ∀ (s : State) (v : Byte) (rest : List HostMove), s.mover = .host → s.hostq = .writeDCtrl v :: rest →
    v.getLsbD 0 = true → s.dec.phase.busy = false →
    ∃ t, step s = .next t ∧ t.enc = s.enc ∧ t.hostq = rest ∧ t.dec.err = .noError ∧ t.dec.prev = ⟨0, 0, 0, 255⟩ ∧
      (∀ i, lookup t.dec.cache i = ⟨0, 0, 0, 0⟩) ∧ t.dec.spos = 0 ∧ t.dec.opos = 0 ∧
      (∀ j, Space.read t.dec.pixout j = none) ∧ t.dec.phase = .header ∧ t.dec.slen = s.dec.slen ∧
      t.dec.sin = s.dec.sin ∧ t.dec.metadata = s.dec.metadata

/-- R180: a write of 1 to CTRL.START is accepted in IDLE, DONE and ERROR, where the engine performs its START rule, and
has no step while the engine is BUSY. -/
def Obligations.StartIsAcceptedUnlessBusy : Prop :=
  ∀ (s : State) (v : Byte) (rest : List HostMove), s.mover = .host → v.getLsbD 0 = true →
    (s.hostq = .writeECtrl v :: rest →
      ((s.enc.phase = .idle ∨ s.enc.phase = .done ∨ s.enc.phase = .error) →
        step s = .next { s.popTurn with hostq := rest, enc := s.enc.start }) ∧
      ((s.enc.phase = .header ∨ s.enc.phase = .body ∨ s.enc.phase = .footer) →
        step s = .refused .startWhileBusy)) ∧
    (s.hostq = .writeDCtrl v :: rest →
      ((s.dec.phase = .idle ∨ s.dec.phase = .done ∨ s.dec.phase = .error) →
        step s = .next { s.popTurn with
          hostq := rest, dec := s.dec.start s.freeIx, freeIx := s.freeIx + 1 }) ∧
      ((s.dec.phase = .header ∨ s.dec.phase = .body ∨ s.dec.phase = .footer) →
        step s = .refused .startWhileBusy))

/-- Derived, 10_state.md section 4 (R20, R22) and 70_reset_and_hazards.md section 2 (R196): a configuration register holds
any value HOST writes while the engine is not BUSY, and a write while it is BUSY has no move (log 8). A write of CTRL
whose bit 0 is 0 issues no START: it changes neither engine while that engine is not BUSY; while it is BUSY it has no move
either, which is the model's choice (log 8). -/
def Obligations.ConfigurationWrites : Prop :=
  ∀ (s : State) (rest : List HostMove), s.mover = .host →
    (∀ w : BitVec 32, s.hostq = .writeEWidth w :: rest →
      (s.enc.phase.busy = false → step s = .next { s.popTurn with hostq := rest, enc := { s.enc with width := w } }) ∧
      (s.enc.phase.busy = true → step s = .refused .hostWriteWhileBusy)) ∧
    (∀ h : BitVec 32, s.hostq = .writeEHeight h :: rest →
      (s.enc.phase.busy = false → step s = .next { s.popTurn with hostq := rest, enc := { s.enc with height := h } }) ∧
      (s.enc.phase.busy = true → step s = .refused .hostWriteWhileBusy)) ∧
    (∀ c : Byte, s.hostq = .writeEChannels c :: rest →
      (s.enc.phase.busy = false →
        step s = .next { s.popTurn with hostq := rest, enc := { s.enc with channels := c } }) ∧
      (s.enc.phase.busy = true → step s = .refused .hostWriteWhileBusy)) ∧
    (∀ c : Byte, s.hostq = .writeEColorspace c :: rest →
      (s.enc.phase.busy = false →
        step s = .next { s.popTurn with hostq := rest, enc := { s.enc with colorspace := c } }) ∧
      (s.enc.phase.busy = true → step s = .refused .hostWriteWhileBusy)) ∧
    (∀ n : Count, s.hostq = .writeDSlen n :: rest →
      (s.dec.phase.busy = false → step s = .next { s.popTurn with hostq := rest, dec := { s.dec with slen := n } }) ∧
      (s.dec.phase.busy = true → step s = .refused .hostWriteWhileBusy)) ∧
    (∀ v : Byte, v.getLsbD 0 = false → s.hostq = .writeECtrl v :: rest →
      (s.enc.phase.busy = false → step s = .next { s.popTurn with hostq := rest }) ∧
      (s.enc.phase.busy = true → step s = .refused .startWhileBusy)) ∧
    (∀ v : Byte, v.getLsbD 0 = false → s.hostq = .writeDCtrl v :: rest →
      (s.dec.phase.busy = false → step s = .next { s.popTurn with hostq := rest }) ∧
      (s.dec.phase.busy = true → step s = .refused .startWhileBusy))

/-- Derived, 10_state.md section 4 (R20, R21, R22): what a HOST read returns, zero-extended: a configuration or result
register its value, CTRL 0, ERR the CAUSE in bits 3:0 and the KIND in bits 5:4. A read changes neither engine. A read
of D_SLEN while DEC is BUSY, which R21 leaves open, is the model's choice (DESIGN CHOICE, unsafe, log 25). -/
def Obligations.RegisterReads : Prop :=
  ∀ (s : State) (rest : List HostMove), s.mover = .host →
    (∀ r : EncReg, s.hostq = .readEnc r :: rest →
      ∃ (t : State) (v : Count), step s = .next t ∧ t.enc = s.enc ∧ t.dec = s.dec ∧ t.hostq = rest ∧
        t.hostGot = v :: s.hostGot ∧
        (r = .width → v.toNat = s.enc.width.toNat) ∧ (r = .height → v.toNat = s.enc.height.toNat) ∧
        (r = .channels → v.toNat = s.enc.channels.toNat) ∧ (r = .colorspace → v.toNat = s.enc.colorspace.toNat) ∧
        (r = .ctrl → v = 0) ∧
        (r = .err → v.toNat = (kindCode (kindOf s.enc.err)).toNat * 16 + (causeCode s.enc.err).toNat)) ∧
    (∀ r : DecReg, s.hostq = .readDec r :: rest →
      ∃ (t : State) (v : Count), step s = .next t ∧ t.enc = s.enc ∧ t.dec = s.dec ∧ t.hostq = rest ∧
        t.hostGot = v :: s.hostGot ∧
        (r = .slen → v = s.dec.slen) ∧ (r = .width → v.toNat = s.dec.width.toNat) ∧
        (r = .height → v.toNat = s.dec.height.toNat) ∧ (r = .channels → v.toNat = s.dec.channels.toNat) ∧
        (r = .colorspace → v.toNat = s.dec.colorspace.toNat) ∧ (r = .ctrl → v = 0) ∧
        (r = .err → v.toNat = (kindCode (kindOf s.dec.err)).toNat * 16 + (causeCode s.dec.err).toNat))

/-- Derived, 10_state.md section 6 (R24), 20_memory.md R43, 70_reset_and_hazards.md R195, R196: a buffer HOST supplies while
the engine is not BUSY holds exactly what was supplied, each pixel as the port word packs it, and nothing else of the
engine changes; while it is BUSY there is no move (log 8). -/
def Obligations.HostSuppliesBuffers : Prop :=
  (∀ (s : State) (bytes : List Byte) (rest : List HostMove), s.mover = .host → s.hostq = .supplySin bytes :: rest →
    (s.dec.phase.busy = false →
      ∃ m : Memory, Memory.wf m = true ∧ (∀ j, Space.read m j = bytes[j]?) ∧
        step s = .next { s.popTurn with hostq := rest, dec := { s.dec with sin := m } }) ∧
    (s.dec.phase.busy = true → step s = .refused .hostWriteWhileBusy)) ∧
  (∀ (s : State) (pixels : List Pixel) (rest : List HostMove), s.mover = .host →
    s.hostq = .supplyPixin (pixels.map Pixel.toWord) :: rest →
    (s.enc.phase.busy = false →
      ∃ m : Space Pixel, Space.wf m = true ∧ (∀ j, Space.read m j = pixels[j]?) ∧
        step s = .next { s.popTurn with hostq := rest, enc := { s.enc with pixin := m } }) ∧
    (s.enc.phase.busy = true → step s = .refused .hostWriteWhileBusy))

/-- R15, with the layout of R22: STATUS. Bit 0 is BUSY, bit 1 DONE, bit 2 ERR, bits 6:4 PHASE, bits 3 and 7 are zero; at
most one of the three flags is 1; a HOST read of STATUS returns it and changes neither engine. -/
def Obligations.StatusShowsThePhase : Prop :=
  (∀ p : Phase,
    ((statusByte p).getLsbD 0 = true ↔ p = .header ∨ p = .body ∨ p = .footer) ∧
    ((statusByte p).getLsbD 1 = true ↔ p = .done) ∧ ((statusByte p).getLsbD 2 = true ↔ p = .error) ∧
    (statusByte p).getLsbD 3 = false ∧ (statusByte p).toNat / 16 = p.code.toNat ∧ (statusByte p).toNat < 128) ∧
  (Phase.idle.code = 0 ∧ Phase.header.code = 1 ∧ Phase.body.code = 2 ∧ Phase.footer.code = 3 ∧ Phase.done.code = 4 ∧
    Phase.error.code = 5) ∧
  (∀ (s : State) (rest : List HostMove), s.mover = .host →
    (s.hostq = .readEnc .status :: rest → ∃ (t : State) (v : Count), step s = .next t ∧
      t.hostGot = v :: s.hostGot ∧ v.toNat = (statusByte s.enc.phase).toNat ∧ t.enc = s.enc ∧ t.dec = s.dec) ∧
    (s.hostq = .readDec .status :: rest → ∃ (t : State) (v : Count), step s = .next t ∧
      t.hostGot = v :: s.hostGot ∧ v.toNat = (statusByte s.dec.phase).toNat ∧ t.enc = s.enc ∧ t.dec = s.dec))

/-- Derived, 60_exceptions.md R160, R161, R170 and R171: raise writes CAUSE and the KIND of the cause, PHASE becomes ERROR,
so BUSY = 0, DONE = 0, ERR = 1, and the engine has no further step; its outputs are no result (log 18). The codes of the
four kinds and of the eleven causes, and the kind of each cause, are those of R160 and of R161's table (its columns CAUSE,
name and KIND), and ERR shows them in bits 5:4 and 3:0. -/
def Obligations.RaiseRecordsAndStops : Prop :=
  (∀ c : Cause,
    (∀ e : Encoder, (e.raise c).err = c ∧ (e.raise c).phase = .error ∧ (e.raise c).phase.busy = false ∧
      (e.raise c).enabled = false ∧ (e.raise c).step = e.raise c ∧ (e.raise c).result = none) ∧
    (∀ d : Decoder, (d.raise c).err = c ∧ (d.raise c).phase = .error ∧ (d.raise c).phase.busy = false ∧
      (d.raise c).enabled = false ∧ (d.raise c).fetch = .wait ∧ (d.raise c).result = none) ∧
    (errByte c).toNat % 16 = (causeCode c).toNat ∧ (errByte c).toNat / 16 = (kindCode (kindOf c)).toNat ∧
    ((kindOf c = .formatError ↔ 1 ≤ (causeCode c).toNat ∧ (causeCode c).toNat ≤ 6) ∧
      (kindOf c = .bufferOverrun ↔ (causeCode c).toNat = 7) ∧
      (kindOf c = .invalidArgument ↔ 8 ≤ (causeCode c).toNat) ∧ (causeCode c).toNat ≤ 10)) ∧
  (kindCode .noKind = 0 ∧ kindCode .formatError = 1 ∧ kindCode .invalidArgument = 2 ∧ kindCode .bufferOverrun = 3) ∧
  (causeCode .noError = 0 ∧ causeCode .badMagic = 1 ∧ causeCode .badChannels = 2 ∧ causeCode .badColorspace = 3 ∧
    causeCode .badFooter = 4 ∧ causeCode .truncated = 5 ∧ causeCode .trailingData = 6 ∧ causeCode .runOverrun = 7 ∧
    causeCode .zeroSize = 8 ∧ causeCode .badMeta = 9 ∧ causeCode .opRange = 10) ∧
  (kindOf .noError = .noKind ∧ kindOf .badMagic = .formatError ∧ kindOf .badChannels = .formatError ∧
    kindOf .badColorspace = .formatError ∧ kindOf .badFooter = .formatError ∧ kindOf .truncated = .formatError ∧
    kindOf .trailingData = .formatError ∧ kindOf .runOverrun = .bufferOverrun ∧ kindOf .zeroSize = .invalidArgument ∧
    kindOf .badMeta = .invalidArgument ∧ kindOf .opRange = .invalidArgument)

/-- Derived, 60_exceptions.md R173 with 70_reset_and_hazards.md R190: there is no return from an error. An engine in ERROR
stays there, whoever moves, until HOST starts a new call or applies hardware reset. -/
def Obligations.ErrorEndsOnlyByStart : Prop :=
  (∀ s t : State, step s = .next t → s.enc.phase = .error → t.enc.phase ≠ .error →
    s.mover = .host ∧ ∃ rest, s.hostq = .resetEnc :: rest ∨ ∃ v : Byte, v.getLsbD 0 = true ∧
      s.hostq = .writeECtrl v :: rest) ∧
  (∀ s t : State, step s = .next t → s.dec.phase = .error → t.dec.phase ≠ .error →
    s.mover = .host ∧ ∃ rest, s.hostq = .resetDec :: rest ∨ ∃ v : Byte, v.getLsbD 0 = true ∧
      s.hostq = .writeDCtrl v :: rest)

/-- Derived, 70_reset_and_hazards.md section 1 (R190) and 10_state.md section 8: hardware reset of an engine, whatever it is
doing: IDLE, ERR 0, SOUT empty or PIXOUT without values. Every other register of that engine becomes unspecified (a free
value, log 2), so nothing is said of it. The other engine is as it was; so are HOST's buffers PIXIN and SIN, which is the
model's choice (DEDUCED, unsafe, log 19). The state the machine starts in has the same values. -/
def Obligations.HardwareResetLeavesIdle : Prop :=
  (∀ (s : State) (rest : List HostMove), s.mover = .host → s.hostq = .resetEnc :: rest →
    ∃ t, step s = .next t ∧ t.enc.phase = .idle ∧ t.enc.err = .noError ∧ t.enc.sout = [] ∧
      t.enc.pixin = s.enc.pixin ∧ t.dec = s.dec ∧ t.hostq = rest) ∧
  (∀ (s : State) (rest : List HostMove), s.mover = .host → s.hostq = .resetDec :: rest →
    ∃ t, step s = .next t ∧ t.dec.phase = .idle ∧ t.dec.err = .noError ∧ (∀ j, Space.read t.dec.pixout j = none) ∧
      t.dec.sin = s.dec.sin ∧ t.enc = s.enc ∧ t.hostq = rest) ∧
  (State.reset.enc.phase = .idle ∧ State.reset.enc.err = .noError ∧ State.reset.enc.sout = [] ∧
    State.reset.dec.phase = .idle ∧ State.reset.dec.err = .noError ∧ State.reset.dec.pixout = [])

/-- R43: the pixel port carries r in bits 31:24, g in 23:16, b in 15:8, a in 7:0, and a pixel passes it unchanged. -/
def Obligations.PixelPortPacking : Prop :=
  ∀ p : Pixel, (Pixel.toWord p).toNat =
      p.r.toNat * 2 ^ 24 + p.g.toNat * 2 ^ 16 + p.b.toNat * 2 ^ 8 + p.a.toNat ∧
    Pixel.ofWord (Pixel.toWord p) = p

/-! ## Invariants and rules of the whole machine -/

/-- Derived, 10_state.md section 8: the state right after reset meets the invariant; its registers that the spec leaves
unspecified have the values of log 1. -/
def Obligations.ResetMeetsTheInvariant : Prop := State.reset.Inv

/-- Derived, 43_encoder.md R121 and 44_decoder.md R149 (both marked derived), 40_pixelcache.md R87 (b), 10_state.md R12,
R13: every step, of whichever agent, keeps the invariant. -/
def Obligations.StepKeepsTheInvariant : Prop :=
  ∀ s t : State, s.Inv → step s = .next t → t.Inv

/-- Derived, 44_decoder.md section 5 (R153 (e)) and R150: a decode becomes DONE only with its output full, its metadata
legal and its stream used up. -/
def Obligations.DoneMeansFull : Prop :=
  ∀ s t : State, s.Inv → step s = .next t → s.dec.phase ≠ .done → t.dec.phase = .done →
    t.dec.opos = t.dec.npix ∧ FilledTo t.dec.pixout t.dec.npix.toNat ∧ t.dec.spos = t.dec.slen ∧
    t.dec.npix.toNat = t.dec.width.toNat * t.dec.height.toNat ∧ legalMetadata t.dec.metadata = true

/-- Derived, 20_memory.md R50, 60_exceptions.md R171 and 10_state.md R14: the outputs are results at DONE and only there; a
decode that is DONE has all its NPIX pixels, each as its port word (R43), and its metadata. -/
def Obligations.ResultsExistAtDoneOnly : Prop :=
  (∀ e : Encoder, (e.phase = .done → e.result = some e.sout) ∧ (e.phase ≠ .done → e.result = none)) ∧
  (∀ d : Decoder, d.phase ≠ .done → d.result = none) ∧
  (∀ d : Decoder, d.Inv → d.phase = .done →
    ∃ words : List (BitVec 32), d.result = some (d.metadata, words) ∧ words.length = d.npix.toNat ∧
      ∀ j, j < d.npix.toNat → ∃ p : Pixel, Space.read d.pixout j = some p ∧ words[j]? = some (Pixel.toWord p))

/-- Derived, 43_encoder.md R133 (marked derived), 44_decoder.md R152, 60_exceptions.md R173 and R180,
70_reset_and_hazards.md R190: PHASE of an engine stays, or moves forward through HEADER, BODY, FOOTER, DONE in that engine's
own turn, or moves from IDLE, DONE or ERROR to HEADER by HOST's START (ENC: or to ERROR, if START refuses), or to IDLE by
hardware reset. DEC may also go to ERROR in its own turn while BUSY; ENC never does, in a state that meets the
invariant. -/
def Obligations.PhasesMoveForward : Prop :=
  ∀ s t : State, step s = .next t →
    (s.Inv →
      t.enc.phase = s.enc.phase ∨ (s.mover = .enc ∧ s.enc.phase.advance t.enc.phase = true) ∨
      (s.enc.phase.busy = false ∧ (∃ v : Byte, v.getLsbD 0 = true ∧ s.HostMakes (.writeECtrl v)) ∧
        (t.enc.phase = .header ∨ t.enc.phase = .error)) ∨
      (s.HostMakes .resetEnc ∧ t.enc.phase = .idle)) ∧
    (t.dec.phase = s.dec.phase ∨ (s.mover = .dec ∧ s.dec.phase.advance t.dec.phase = true) ∨
      (s.mover = .dec ∧ s.dec.phase.busy = true ∧ t.dec.phase = .error) ∨
      (s.dec.phase.busy = false ∧ (∃ v : Byte, v.getLsbD 0 = true ∧ s.HostMakes (.writeDCtrl v)) ∧
        t.dec.phase = .header) ∨
      (s.HostMakes .resetDec ∧ t.dec.phase = .idle))

/-- Derived, 20_memory.md R54 and R50: the engines share nothing. A step of one leaves the other and HOST's pending moves
as they are, and depends on nothing but its own engine: two states that agree on DEC, in DEC's turn, agree on DEC after
it; likewise ENC. -/
def Obligations.EnginesShareNothing : Prop :=
  (∀ s t : State, step s = .next t → s.mover = .dec → t.enc = s.enc ∧ t.hostq = s.hostq ∧ t.hostGot = s.hostGot) ∧
  (∀ s t : State, step s = .next t → s.mover = .enc → t.dec = s.dec ∧ t.hostq = s.hostq ∧ t.hostGot = s.hostGot) ∧
  (∀ s s' t : State, s.mover = .dec → s'.mover = .dec → s.dec = s'.dec → step s = .next t →
    ∃ t', step s' = .next t' ∧ t'.dec = t.dec) ∧
  (∀ s s' t : State, s.mover = .enc → s'.mover = .enc → s.enc = s'.enc → step s = .next t →
    ∃ t', step s' = .next t' ∧ t'.enc = t.enc)

/-- Derived, 70_reset_and_hazards.md R191, R199: nothing of an earlier call reaches a new one. Two encoders that agree on
the configuration and PIXIN are the same after an accepted START, whatever PREV, CACHE and the counters held. Two decoders
that agree on SLEN, SIN and the D_ registers are the same after START with the same free value (log 3); and if they agree
on SLEN and SIN alone, whatever the D_ registers and that free value, they are the same once a header is accepted. -/
def Obligations.StartForgetsEarlierCalls : Prop :=
  (∀ e e' : Encoder, e.metadata = e'.metadata → e.pixin = e'.pixin → e.start.phase = .header → e.start = e'.start) ∧
  (∀ (d d' : Decoder) (draw : Nat), d.slen = d'.slen → d.sin = d'.sin → d.metadata = d'.metadata →
    d.start draw = d'.start draw) ∧
  (∀ (s t : State) (d d' : Decoder) (draw draw' : Nat) (m w h : BitVec 32) (c cs : Byte), d.slen = d'.slen →
    d.sin = d'.sin → exec (.header m w h c cs) { s with dec := d.start draw } = .next t → t.dec.phase = .body →
    exec (.header m w h c cs) { s with dec := d'.start draw' } = .next t)

/-! ## Whole calls -/

/-- Derived, 43_encoder.md section 4 (R130, marked derived), with R128 and R133: NPIX + 3 turns of ENC after START end in
DONE with SOUT = header, encode_ops of the pixels, footer, and with PREV and CACHE those of the reference. -/
def Obligations.EncodeCallIsTheReference : Prop :=
  ∀ (s : State) (md : Metadata) (ps : List Pixel) (turns : List Agent), s.enc.Ready md ps →
    legalMetadata md = true → ps ≠ [] →
    ∃ (t : State) (bytes : List Byte),
      Sys2Proof.core.run (ps.length + 3)
        { s with enc := s.enc.start, sched := List.replicate (ps.length + 3) .enc ++ turns } = .next t ∧
      encodeStream md ps = .ok bytes ∧ t.enc.phase = .done ∧ t.enc.sout = bytes ∧
      t.enc.prev = (encodeMirror ps).prev ∧ t.enc.cache = (encodeMirror ps).cache ∧ t.dec = s.dec ∧ t.sched = turns

/-- Derived, 10_state.md section 7 (R25, marked derived): after k pixel steps SOUT lags behind by exactly the pending run:
SOUT with the RUN byte of the pending run is the header and encode_ops of the first k pixels. -/
def Obligations.OutputLagsByThePendingRun : Prop :=
  ∀ (s : State) (md : Metadata) (ps : List Pixel) (turns : List Agent) (k : Nat), s.enc.Ready md ps →
    legalMetadata md = true → ps ≠ [] → k ≤ ps.length →
    ∃ (t : State) (ops : List Byte),
      Sys2Proof.core.run (k + 1)
        { s with enc := s.enc.start, sched := List.replicate (k + 1) .enc ++ turns } = .next t ∧
      encodeOps (ps.take k) = .ok ops ∧ t.enc.phase = .body ∧ t.enc.ppos.toNat = k ∧ t.enc.runCnt.toNat ≤ 61 ∧
      t.enc.sout ++ t.enc.pendingBytes = writeHeader md ++ ops

/-- Derived, 44_decoder.md R151 (its last sentence is marked derived) and R153 (c), (d): on any stream DEC ends in DONE or
ERROR, and exactly as the reference decode says: DONE with its pixels and metadata in at most as many op steps as
pixels, or ERROR with the reference's cause and no output. -/
def Obligations.DecodeCallIsTheReference : Prop :=
  ∀ (s : State) (bytes : List Byte) (draw : Nat), s.dec.Ready bytes →
    ∃ n, ∀ turns : List Agent, ∃ t : State,
      Sys2Proof.core.run n
        { s with dec := s.dec.start draw, sched := List.replicate n .dec ++ turns } = .next t ∧
      t.enc = s.enc ∧ t.sched = turns ∧
      (∀ md ps final, decodeStream bytes = .ok (md, ps, final) →
        n ≤ ps.length + 2 ∧ t.dec.phase = .done ∧ t.dec.metadata = md ∧ Holds t.dec.pixout ps ∧
        FilledTo t.dec.pixout ps.length ∧ t.dec.prev = final.prev ∧ t.dec.cache = final.cache) ∧
      (∀ c, decodeStream bytes = .error c → t.dec.phase = .error ∧ t.dec.err = c ∧ t.dec.pixout = [])

/-- Derived, 43_encoder.md section 5 (R134 (a)), 44_decoder.md section 5 (R153 (a)), 40_pixelcache.md R87 (c): decoding what
encoding produced gives the pixels and the metadata back, and decoder and encoder end with the same PREV and cache. -/
def Obligations.ReferenceRoundTrip : Prop :=
  ∀ (md : Metadata) (ps : List Pixel), legalMetadata md = true → md.width.toNat * md.height.toNat = ps.length →
    ps ≠ [] →
    ∃ bytes, encodeStream md ps = .ok bytes ∧ decodeStream bytes = .ok (md, ps, encodeMirror ps)

/-- Derived, the same parts of R134, R153 and R87 on the machine: an encode call of ENC followed by a decode call of DEC on
its SOUT ends with PIXOUT = PIXIN, the metadata, and DEC.PREV = ENC.PREV, DEC.CACHE = ENC.CACHE. -/
def Obligations.MachineRoundTrip : Prop :=
  ∀ (s : State) (md : Metadata) (ps : List Pixel), s.enc.Ready md ps → legalMetadata md = true → ps ≠ [] →
    ∃ t : State,
      Sys2Proof.core.run (ps.length + 3)
        { s with enc := s.enc.start, sched := List.replicate (ps.length + 3) .enc } = .next t ∧
      t.enc.phase = .done ∧
      ∀ (u : State) (draw : Nat), u.dec.Ready t.enc.sout →
        ∃ (n : Nat) (v : State),
          Sys2Proof.core.run n { u with dec := u.dec.start draw, sched := List.replicate n .dec } = .next v ∧
          v.dec.phase = .done ∧ Holds v.dec.pixout ps ∧ FilledTo v.dec.pixout ps.length ∧ v.dec.metadata = md ∧
          v.dec.prev = t.enc.prev ∧ v.dec.cache = t.enc.cache

/-- Derived, 43_encoder.md section 5 (R134 (c)) and 10_state.md R24: the op-stream of N pixels has at most 5 × N bytes and
at least N / 62, rounded up. -/
def Obligations.OpStreamLengthBounds : Prop :=
  ∀ (ps : List Pixel) (bytes : List Byte), encodeOps ps = .ok bytes →
    bytes.length ≤ 5 * ps.length ∧ ps.length ≤ 62 * bytes.length

/-! ## Errors of the whole machine -/

/-- Derived, 60_exceptions.md R171 and 92_eei_decisions.md D20: errors are precise. Whenever a step takes an engine to ERROR,
or START refuses, the engine is what it was but for the error that is raised: ERR, PHASE and the void output (log 4). So the
failing step has written nothing of its own; what this says of the registers that are dead in ERROR is the model's choice
(DEDUCED, logs 15 and 23). -/
def Obligations.ErrorsWriteNothingOfTheirOwn : Prop :=
  (∀ s t : State, step s = .next t → s.enc.phase ≠ .error → t.enc.phase = .error →
    ∃ c, c ≠ .noError ∧ t.enc = s.enc.raise c) ∧
  (∀ s t : State, step s = .next t → s.dec.phase ≠ .error → t.dec.phase = .error →
    ∃ c, c ≠ .noError ∧ t.dec = s.dec.raise c) ∧
  (∀ e : Encoder, e.start.phase ≠ .header → ∃ c, c ≠ .noError ∧ e.start = e.raise c)
end

