-- ==== Sys2Proof/Laws/Arith.lean ====
section
/-! SUPPORT. The laws of the channel arithmetic (41_opcodec.md section 3): deltas and their application, and that the
literal op chosen for a pixel gives it back. -/

namespace Sys2Proof.Machine

theorem u8_toNat (v : Int) : ((u8 v).toNat : Int) = v % 256 := by
  unfold u8
  rw [BitVec.toNat_ofInt]
  omega

/-- Two values with the same byte reading are congruent. -/
theorem u8_eq_iff (v w : Int) : u8 v = u8 w ↔ v % 256 = w % 256 := by
  rw [BitVec.toNat_eq]
  have hv := u8_toNat v
  have hw := u8_toNat w
  omega

theorem u8_toInt_mod (v : Int) : (u8 v).toInt % 256 = v % 256 := by
  have h := u8_toNat v
  rw [BitVec.toInt_eq_toNat_cond]
  split <;> omega

theorem u8_of_byte (b : Byte) : u8 (b.toNat : Int) = b := by
  apply BitVec.eq_of_toNat_eq
  have h := u8_toNat (b.toNat : Int)
  have := b.isLt
  omega

theorem byte_of_delta (d : Delta) : u8 d.toInt = d := by
  simp [u8]

/-- Applying the delta gives the channel back (R101 (a)). -/
theorem apply_delta (cur prev : Byte) : applyDelta prev (delta cur prev).toInt = cur := by
  unfold applyDelta delta
  conv_rhs => rw [← u8_of_byte cur]
  rw [u8_eq_iff]
  have h := u8_toInt_mod ((cur.toNat : Int) - prev.toNat)
  omega

/-- A delta that gives the channel is the delta of the channel (R98, R100). -/
theorem delta_of_apply {cur prev : Byte} {d : Delta} (h : applyDelta prev d.toInt = cur) : delta cur prev = d := by
  unfold applyDelta at h
  unfold delta
  rw [← byte_of_delta d, u8_eq_iff, ← h]
  have := u8_toNat ((prev.toNat : Int) + d.toInt)
  omega

/-- Application depends on the delta mod 256 only. -/
theorem apply_congr {d d' : Int} (prev : Byte) (h : d % 256 = d' % 256) : applyDelta prev d = applyDelta prev d' := by
  unfold applyDelta
  rw [u8_eq_iff]
  omega

theorem shift_delta (px prev : Pixel) (ha : px.a = prev.a) :
    shiftPixel prev (delta px.r prev.r).toInt (delta px.g prev.g).toInt (delta px.b prev.b).toInt = px := by
  simp only [shiftPixel, apply_delta, ← ha]

/-- Executing the literal op chosen for a pixel gives the pixel, once, and stores it (R126 with R143, R144, R147, R148). -/
theorem opEffect_literalItem (px prev : Pixel) (cache : Cache) :
    opEffect (literalItem px prev) ⟨prev, cache⟩ = (px, 1, store cache px) := by
  unfold literalItem
  split
  · next ha =>
    simp only
    split
    · simp only [opEffect, shift_delta px prev ha]
    · split
      · have hs : shiftPixel prev
            ((u8 ((delta px.r prev.r).toInt - (delta px.g prev.g).toInt)).toInt + (delta px.g prev.g).toInt)
            (delta px.g prev.g).toInt
            ((u8 ((delta px.b prev.b).toInt - (delta px.g prev.g).toInt)).toInt + (delta px.g prev.g).toInt) = px := by
          have h1 := u8_toInt_mod ((delta px.r prev.r).toInt - (delta px.g prev.g).toInt)
          have h2 := u8_toInt_mod ((delta px.b prev.b).toInt - (delta px.g prev.g).toInt)
          have e1 := apply_congr (d := (u8 ((delta px.r prev.r).toInt - (delta px.g prev.g).toInt)).toInt +
            (delta px.g prev.g).toInt) (d' := (delta px.r prev.r).toInt) prev.r (by omega)
          have e2 := apply_congr (d := (u8 ((delta px.b prev.b).toInt - (delta px.g prev.g).toInt)).toInt +
            (delta px.g prev.g).toInt) (d' := (delta px.b prev.b).toInt) prev.b (by omega)
          simp only [shiftPixel, e1, e2, apply_delta, ← ha]
        simp only [opEffect, hs]
      · simp only [opEffect, ← ha]
  · rfl

/-- The literal op is always within its operand ranges (R103). -/
theorem literalItem_wellFormed (px prev : Pixel) : (literalItem px prev).wellFormed = true := by
  unfold literalItem
  split
  · simp only
    split
    · next h => simpa [Instr.wellFormed, fitsDiff] using h
    · split
      · next h => simpa [Instr.wellFormed, fitsLuma, s8] using h
      · rfl
  · rfl

theorem literalItem_body (px prev : Pixel) : (literalItem px prev).position = .body := by
  unfold literalItem
  simp only
  repeat' split
  all_goals rfl

end Sys2Proof.Machine
end

