-- ==== Sys2Proof/Laws/Cache.lean ====
section
/-! SUPPORT. The laws of the cache unit (40_pixelcache.md). -/

namespace Sys2Proof.Machine

/-- A lookup after a store (R82, R84). -/
theorem lookup_store (c : Cache) (p : Pixel) (i : Slot) :
    lookup (store c p) i = if i = hash p then p else lookup c i := by
  have : (i = hash p) ↔ (hash p).toNat = i.toNat := by rw [BitVec.toNat_eq, eq_comm]
  simp [lookup, store, Vector.get_eq_getElem, Vector.getElem_set, this]

@[simp] theorem lookup_zero (i : Slot) : lookup Cache.zero i = Config.zeroPixel := by
  simp [lookup, Cache.zero, Vector.get_eq_getElem]

@[simp] theorem hash_zeroPixel : hash Config.zeroPixel = 0 := by decide

/-- What `store` does, in the claims' terms. -/
theorem storedSlot_store (c : Cache) (p : Pixel) : StoredSlot c (store c p) p :=
  ⟨by simp [lookup_store], fun i hi => by simp [lookup_store, hi]⟩

theorem hit_iff (c : Cache) (p : Pixel) : hit c p = true ↔ lookup c (hash p) = p := by simp [hit]

/-- The cache of a fresh call meets R87 (b). -/
theorem cacheInv_zero : CacheInv Cache.zero := fun i => Or.inr (lookup_zero i)

/-- A store keeps R87 (b). -/
theorem cacheInv_store {c : Cache} (h : CacheInv c) (p : Pixel) : CacheInv (store c p) := by
  intro i
  rw [lookup_store]
  by_cases hi : i = hash p
  · subst hi; simp
  · simpa [hi] using h i

end Sys2Proof.Machine
end

