-- ==== Sys2Proof/Laws/Codec.lean ====
section
/-! SUPPORT. The laws of the op-codec and the frame codec: every field range is a biased field, packing then unpacking
gives the operands back, and what a decode of an op answers. -/

namespace Sys2Proof

/-! ## Ranges are biased fields (R68) -/

/-- The fields of DIFF and LUMA, checked value by value. -/
theorem field_table :
    (∀ d : Delta, inRange (-2) 1 d.toInt = true → ∃ f : BitVec 2, d = unbias f 2#8) ∧
    (∀ d : Delta, inRange (-32) 31 d.toInt = true → ∃ f : BitVec 6, d = unbias f 32#8) ∧
    (∀ d : Delta, inRange (-8) 7 d.toInt = true → ∃ f : BitVec 4, d = unbias f 8#8) ∧
    (∀ f : BitVec 2, inRange (-2) 1 (unbias f 2#8).toInt = true) ∧
    (∀ f : BitVec 6, inRange (-32) 31 (unbias f 32#8).toInt = true) ∧
    (∀ f : BitVec 4, inRange (-8) 7 (unbias f 8#8).toInt = true) := by
  decide +kernel

theorem diff_field {d : Delta} (h : inRange (-2) 1 d.toInt = true) : ∃ f : BitVec 2, d = unbias f 2#8 := field_table.1 d h

theorem luma_field {d : Delta} (h : inRange (-32) 31 d.toInt = true) : ∃ f : BitVec 6, d = unbias f 32#8 :=
  field_table.2.1 d h

theorem nibble_field {d : Delta} (h : inRange (-8) 7 d.toInt = true) : ∃ f : BitVec 4, d = unbias f 8#8 :=
  field_table.2.2.1 d h

theorem diff_range (f : BitVec 2) : inRange (-2) 1 (unbias f 2#8).toInt = true := field_table.2.2.2.1 f

theorem luma_range (f : BitVec 6) : inRange (-32) 31 (unbias f 32#8).toInt = true := field_table.2.2.2.2.1 f

theorem nibble_range (f : BitVec 4) : inRange (-8) 7 (unbias f 8#8).toInt = true := field_table.2.2.2.2.2 f

/-! ## The bytes of each op -/

/-- The bytes packed from fields, checked field by field: each is of its op and unpacks to its fields. -/
theorem packed_table :
    (∀ u v w : BitVec 2,
      let b := 0x40#8 ||| ((unbias u 2#8 + 2#8) <<< 4) ||| ((unbias v 2#8 + 2#8) <<< 2) ||| (unbias w 2#8 + 2#8)
      classify b = .diff ∧ unpackDiff b = .diff (unbias u 2#8) (unbias v 2#8) (unbias w 2#8)) ∧
    (∀ u : BitVec 6,
      let b := 0x80#8 ||| (unbias u 32#8 + 32#8)
      classify b = .luma ∧ unbias (b.extractLsb' 0 6) 32#8 = unbias u 32#8) ∧
    (∀ u v : BitVec 4,
      let b := ((unbias u 8#8 + 8#8) <<< 4) ||| (unbias v 8#8 + 8#8)
      unbias (b.extractLsb' 4 4) 8#8 = unbias u 8#8 ∧ unbias (b.extractLsb' 0 4) 8#8 = unbias v 8#8) ∧
    (∀ c : Byte, 1 ≤ c.toNat → c.toNat ≤ 62 →
      classify (0xC0#8 ||| (c - 1#8)) = .run ∧ unpackRun (0xC0#8 ||| (c - 1#8)) = .run c) ∧
    (∀ i : Slot, (i.setWidth 8).toNat ≤ 63 ∧ classify (i.setWidth 8) = .index ∧ unpackIndex (i.setWidth 8) = .index i) := by
  decide +kernel

/-- Every first byte, checked one by one: it is the tag of its op, or packs back from what it unpacks to. -/
theorem first_byte_table :
    ∀ b : Byte,
      (classify b = .diff → encode (unpackDiff b) = .ok [b]) ∧ (classify b = .index → encode (unpackIndex b) = .ok [b]) ∧
      (classify b = .run → encode (unpackRun b) = .ok [b] ∧ (unpackRun b).wellFormed = true) ∧
      (classify b = .luma → 0x80#8 ||| (unbias (b.extractLsb' 0 6) 32#8 + 32#8) = b) ∧
      (classify b = .rgba → b = Config.rgbaTag) ∧ (classify b = .rgb → b = Config.rgbTag) ∧
      ((unbias (b.extractLsb' 4 4) 8#8 + 8#8) <<< 4) ||| (unbias (b.extractLsb' 0 4) 8#8 + 8#8) = b := by
  decide +kernel

/-- A packed DIFF byte is a DIFF, and unpacks to its fields. -/
theorem diff_byte (u v w : BitVec 2) :
    let b := 0x40#8 ||| ((unbias u 2#8 + 2#8) <<< 4) ||| ((unbias v 2#8 + 2#8) <<< 2) ||| (unbias w 2#8 + 2#8)
    classify b = .diff ∧ unpackDiff b = .diff (unbias u 2#8) (unbias v 2#8) (unbias w 2#8) := packed_table.1 u v w

/-- The first packed LUMA byte is a LUMA, and unpacks to its field. -/
theorem luma_byte0 (u : BitVec 6) :
    let b := 0x80#8 ||| (unbias u 32#8 + 32#8)
    classify b = .luma ∧ unbias (b.extractLsb' 0 6) 32#8 = unbias u 32#8 := packed_table.2.1 u

/-- The second packed LUMA byte unpacks to its fields. -/
theorem luma_byte1 (u v : BitVec 4) :
    let b := ((unbias u 8#8 + 8#8) <<< 4) ||| (unbias v 8#8 + 8#8)
    unbias (b.extractLsb' 4 4) 8#8 = unbias u 8#8 ∧ unbias (b.extractLsb' 0 4) 8#8 = unbias v 8#8 :=
  packed_table.2.2.1 u v

/-- A packed RUN byte is a RUN, and unpacks to its count. -/
theorem run_byte (c : Byte) (h1 : 1 ≤ c.toNat) (h2 : c.toNat ≤ 62) :
    classify (0xC0#8 ||| (c - 1#8)) = .run ∧ unpackRun (0xC0#8 ||| (c - 1#8)) = .run c := packed_table.2.2.2.1 c h1 h2

/-- A packed INDEX byte is an INDEX, and unpacks to its slot. -/
theorem index_byte (i : Slot) : (i.setWidth 8).toNat ≤ 63 ∧ classify (i.setWidth 8) = .index ∧
    unpackIndex (i.setWidth 8) = .index i := packed_table.2.2.2.2 i

/-- A DIFF byte packs back to itself. -/
theorem diff_byte_inv (b : Byte) : classify b = .diff → encode (unpackDiff b) = .ok [b] := (first_byte_table b).1

/-- An INDEX byte packs back to itself. -/
theorem index_byte_inv (b : Byte) : classify b = .index → encode (unpackIndex b) = .ok [b] := (first_byte_table b).2.1

/-- A RUN byte packs back to itself. -/
theorem run_byte_inv (b : Byte) (h : classify b = .run) : encode (unpackRun b) = .ok [b] := ((first_byte_table b).2.2.1 h).1

/-- A RUN byte names a count from 1 to 62 (R97). -/
theorem run_count (b : Byte) (h : classify b = .run) : (unpackRun b).wellFormed = true := ((first_byte_table b).2.2.1 h).2

theorem luma_byte0_inv (b : Byte) : classify b = .luma → 0x80#8 ||| (unbias (b.extractLsb' 0 6) 32#8 + 32#8) = b :=
  (first_byte_table b).2.2.2.1

theorem rgba_byte_inv (b : Byte) : classify b = .rgba → b = Config.rgbaTag := (first_byte_table b).2.2.2.2.1

theorem rgb_byte_inv (b : Byte) : classify b = .rgb → b = Config.rgbTag := (first_byte_table b).2.2.2.2.2.1

theorem luma_byte1_inv (b : Byte) :
    ((unbias (b.extractLsb' 4 4) 8#8 + 8#8) <<< 4) ||| (unbias (b.extractLsb' 0 4) 8#8 + 8#8) = b :=
  (first_byte_table b).2.2.2.2.2.2

/-! ## Byte order -/

theorem unbe32_be32 (v : BitVec 32) :
    unbe32 (v.extractLsb' 24 8) (v.extractLsb' 16 8) (v.extractLsb' 8 8) (v.extractLsb' 0 8) = v := by
  unfold unbe32
  rw [BitVec.extractLsb'_append_extractLsb'_eq_extractLsb' (by rfl),
    BitVec.extractLsb'_append_extractLsb'_eq_extractLsb' (by rfl),
    BitVec.extractLsb'_append_extractLsb'_eq_extractLsb' (by rfl)]
  simp

theorem be32_unbe32 (b0 b1 b2 b3 : Byte) : be32 (unbe32 b0 b1 b2 b3) = [b0, b1, b2, b3] := by
  simp only [be32, unbe32, List.cons.injEq, and_true]
  refine ⟨?_, ?_, ?_, ?_⟩ <;>
  · apply BitVec.eq_of_getLsbD_eq
    intro i hi
    simp only [BitVec.getLsbD_extractLsb', BitVec.getLsbD_append, hi, decide_true, Bool.true_and]
    repeat' split
    all_goals first | omega | (congr 1; omega)

theorem be64_split (v : BitVec 64) :
    be64 v = be32 (v.extractLsb' 32 32) ++ be32 (v.extractLsb' 0 32) := by
  simp only [be64, be32, List.cons_append, List.nil_append, List.cons.injEq, and_true]
  refine ⟨?_, ?_, ?_, ?_, ?_, ?_, ?_, ?_⟩ <;>
  · apply BitVec.eq_of_getLsbD_eq
    intro i hi
    simp only [BitVec.getLsbD_extractLsb', hi, decide_true, Bool.true_and]
    try rw [← Nat.add_assoc]
    simp
    try omega

theorem append_halves (v : BitVec 64) : v.extractLsb' 32 32 ++ v.extractLsb' 0 32 = v := by
  rw [BitVec.extractLsb'_append_extractLsb'_eq_extractLsb' (by rfl)]
  simp

theorem be64_append (x y : BitVec 32) : be64 (x ++ y) = be32 x ++ be32 y := by
  rw [be64_split]
  congr 2
  · exact BitVec.extractLsb'_append_eq_left
  · apply BitVec.eq_of_getLsbD_eq
    intro i hi
    simp only [BitVec.getLsbD_extractLsb', BitVec.getLsbD_append, hi, decide_true, Bool.true_and, Nat.zero_add, if_true]

/-! ## What a decode answers -/

theorem decodeHeader_bytes (m w h : BitVec 32) (c s : Byte) (rest : List Byte) :
    decodeHeader (be32 m ++ be32 w ++ be32 h ++ [c, s] ++ rest) = .ok (.header m w h c s, rest) := by
  simp only [be32, List.cons_append, List.nil_append, decodeHeader, unbe32_be32]

theorem decodeFooter_bytes (m : BitVec 64) (rest : List Byte) :
    decodeFooter (be64 m ++ rest) = .ok (.footer m, rest) := by
  rw [be64_split]
  simp only [be32, List.cons_append, List.nil_append, decodeFooter, unbe32_be32, append_halves]

/-- Every decoded op is an op with its operands in range, and its own bytes are those the decode used (R97, R101 (c)). -/
theorem decodeOp_spec {bytes rest : List Byte} {i : Instr} (h : decodeOp bytes = .ok (i, rest)) :
    i.wellFormed = true ∧ i.position = .body ∧ ∃ ws, encode i = .ok ws ∧ bytes = ws ++ rest := by
  cases bytes with
  | nil => cases h
  | cons b0 tl =>
    simp only [decodeOp] at h
    split at h
    · next hk =>
      split at h
      · cases h
        exact ⟨rfl, rfl, _, rfl, by simp [packRgba, rgba_byte_inv b0 hk]⟩
      · cases h
    · next hk =>
      split at h
      · cases h
        exact ⟨rfl, rfl, _, rfl, by simp [packRgb, rgb_byte_inv b0 hk]⟩
      · cases h
    · next hk => cases h; exact ⟨run_count b0 hk, rfl, _, run_byte_inv b0 hk, rfl⟩
    · next hk => cases h; exact ⟨rfl, rfl, _, index_byte_inv b0 hk, rfl⟩
    · next hk =>
      cases h
      exact ⟨by simp [unpackDiff, Instr.wellFormed, diff_range], rfl, _, diff_byte_inv b0 hk, rfl⟩
    · next hk =>
      split at h
      · next b1 tail =>
        cases h
        refine ⟨by simp [unpackLuma, Instr.wellFormed, luma_range, nibble_range], rfl, [b0, b1], ?_, rfl⟩
        simp only [unpackLuma, encode, packLuma, luma_range, nibble_range, Bool.and_true, if_true,
          luma_byte0_inv b0 hk, luma_byte1_inv b1]
      · cases h

/-- The bytes an op's decode uses are as many as its first byte says (R60). -/
theorem decodeOp_length {b0 : Byte} {tl rest : List Byte} {i : Instr} (h : decodeOp (b0 :: tl) = .ok (i, rest)) :
    (b0 :: tl).length = (classify b0).length + rest.length := by
  simp only [decodeOp] at h
  split at h <;> rename_i hk <;> simp only [hk, OpKind.length]
  · split at h
    · cases h; simp; omega
    · cases h
  · split at h
    · cases h; simp; omega
    · cases h
  · cases h; simp; omega
  · cases h; simp; omega
  · cases h; simp; omega
  · split at h
    · cases h; simp; omega
    · cases h

/-- An op whose bytes are all there decodes, and uses exactly as many as its first byte says (R60, R70). -/
theorem decodeOp_of_length {b0 : Byte} {tl : List Byte} (h : (classify b0).length ≤ (b0 :: tl).length) :
    ∃ i, decodeOp (b0 :: tl) = .ok (i, (b0 :: tl).drop (classify b0).length) := by
  simp only [decodeOp]
  generalize hk : classify b0 = k at h
  cases k <;> simp only [OpKind.length] at h ⊢
  · match tl, h with
    | r :: g :: b :: a :: t, _ => exact ⟨_, rfl⟩
    | [], h => simp at h
    | [_], h => simp at h
    | [_, _], h => simp at h
    | [_, _, _], h => simp at h
  · match tl, h with
    | r :: g :: b :: t, _ => exact ⟨_, rfl⟩
    | [], h => simp at h
    | [_], h => simp at h
    | [_, _], h => simp at h
  · exact ⟨_, rfl⟩
  · exact ⟨_, rfl⟩
  · exact ⟨_, rfl⟩
  · match tl, h with
    | b :: t, _ => exact ⟨_, rfl⟩
    | [], h => simp at h

/-- A decode of an op fails only by name TRUNCATED, and only for want of bytes (R142). -/
theorem decodeOp_error {bytes : List Byte} {c : Cause} (h : decodeOp bytes = .error c) :
    c = .truncated ∧ ∀ b0 tl, bytes = b0 :: tl → bytes.length < (classify b0).length := by
  cases bytes with
  | nil => cases h; exact ⟨rfl, fun _ _ h => by cases h⟩
  | cons b0 tl =>
    constructor
    · simp only [decodeOp] at h
      split at h
      · split at h <;> cases h; rfl
      · split at h <;> cases h; rfl
      · cases h
      · cases h
      · cases h
      · split at h <;> cases h; rfl
    · intro b tl' he
      cases he
      by_contra hn
      obtain ⟨i, hi⟩ := decodeOp_of_length (Nat.le_of_not_lt hn)
      rw [hi] at h; cases h

end Sys2Proof
end

