-- ==== Sys2Proof/Laws/PerInstr.lean ====
section
/-! SUPPORT. The family RoundTrip, one lemma per instruction: the bytes a well-formed item encodes to decode to it again,
whatever follows them (41_opcodec.md R101 (b), 42_framecodec.md R114). -/

namespace Sys2Proof.Laws.RoundTrip

/-- A well-formed item encodes, and decoding its bytes at its position gives it back. -/
def Statement (i : Instr) : Prop :=
  i.wellFormed = true →
    ∃ bytes, encode i = .ok bytes ∧ ∀ rest, decode i.position (bytes ++ rest) = .ok (i, rest)

theorem rgba (r g b a : Byte) : Statement (.rgba r g b a) := fun _ => ⟨_, rfl, fun _ => rfl⟩

theorem rgb (r g b : Byte) : Statement (.rgb r g b) := fun _ => ⟨_, rfl, fun _ => rfl⟩

theorem run (count : Byte) : Statement (.run count) := by
  intro h
  simp only [Instr.wellFormed, Bool.and_eq_true, decide_eq_true_eq] at h
  obtain ⟨hk, hu⟩ := run_byte count h.1 h.2
  refine ⟨[0xC0#8 ||| (count - 1#8)], ?_, fun rest => ?_⟩
  · simp only [encode, packRun]; rw [if_neg (by omega)]
  · simp only [Instr.position, decode, List.cons_append, List.nil_append, decodeOp, hk, hu]

theorem index (idx : Slot) : Statement (.index idx) := by
  intro _
  obtain ⟨hle, hk, hu⟩ := index_byte idx
  refine ⟨[idx.setWidth 8], ?_, fun rest => ?_⟩
  · simp only [encode, packIndex]; rw [if_neg (by omega)]
  · simp only [Instr.position, decode, List.cons_append, List.nil_append, decodeOp, hk, hu]

theorem diff (dr dg db : Delta) : Statement (.diff dr dg db) := by
  intro h
  have hr := h
  simp only [Instr.wellFormed, Bool.and_eq_true] at h
  obtain ⟨u, rfl⟩ := diff_field h.1.1
  obtain ⟨v, rfl⟩ := diff_field h.1.2
  obtain ⟨w, rfl⟩ := diff_field h.2
  obtain ⟨hk, hu⟩ := diff_byte u v w
  refine ⟨_, by rw [encode, packDiff, if_pos (by simpa [Instr.wellFormed] using hr)], fun rest => ?_⟩
  simp only [Instr.position, decode, List.cons_append, List.nil_append, decodeOp, hk, hu]

theorem luma (dg drg dbg : Delta) : Statement (.luma dg drg dbg) := by
  intro h
  have hr := h
  simp only [Instr.wellFormed, Bool.and_eq_true] at h
  obtain ⟨u, rfl⟩ := luma_field h.1.1
  obtain ⟨v, rfl⟩ := nibble_field h.1.2
  obtain ⟨w, rfl⟩ := nibble_field h.2
  obtain ⟨hk, hu⟩ := luma_byte0 u
  obtain ⟨hv, hw⟩ := luma_byte1 v w
  refine ⟨_, by rw [encode, packLuma, if_pos (by simpa [Instr.wellFormed] using hr)], fun rest => ?_⟩
  simp only [Instr.position, decode, List.cons_append, List.nil_append, decodeOp, hk, unpackLuma, hu, hv, hw]

theorem header (m w h : BitVec 32) (c s : Byte) : Statement (.header m w h c s) :=
  fun _ => ⟨_, rfl, fun rest => decodeHeader_bytes m w h c s rest⟩

theorem footer (m : BitVec 64) : Statement (.footer m) := fun _ => ⟨_, rfl, fun rest => decodeFooter_bytes m rest⟩

end Sys2Proof.Laws.RoundTrip
end

