-- ==== Sys2Proof/Laws/Scan.lean ====
section
/-! SUPPORT. The reference encoder pixel by pixel: a scan that carries the pending run, equal to R128's loop, and what
decoding its ops gives. -/

namespace Sys2Proof.Machine

/-! ## Bytes of a sequence of items -/

/-- The bytes of two sequences of items, one after the other (R49 (b)). -/
theorem encodeAll_append {xs ys : List Instr} {a b : List Byte} (ha : encodeAll xs = .ok a)
    (hb : encodeAll ys = .ok b) : encodeAll (xs ++ ys) = .ok (a ++ b) := by
  induction xs generalizing a with
  | nil => cases ha; simpa using hb
  | cons x xs ih =>
    simp only [encodeAll, List.cons_append] at ha ⊢
    split at ha
    · cases ha
    · next bx hx =>
      split at ha
      · cases ha
      · next bs hbs =>
        cases ha
        simp [ih hbs]

/-- Items that are well-formed always pack. -/
theorem encode_ok {i : Instr} (h : i.wellFormed = true) : ∃ bytes, encode i = .ok bytes := by
  have key : Laws.RoundTrip.Statement i := by
    cases i
    · exact Laws.RoundTrip.rgba _ _ _ _
    · exact Laws.RoundTrip.rgb _ _ _
    · exact Laws.RoundTrip.run _
    · exact Laws.RoundTrip.index _
    · exact Laws.RoundTrip.diff _ _ _
    · exact Laws.RoundTrip.luma _ _ _
    · exact Laws.RoundTrip.header _ _ _ _ _
    · exact Laws.RoundTrip.footer _
  obtain ⟨bytes, hb, -⟩ := key h
  exact ⟨bytes, hb⟩

theorem encodeAll_ok {xs : List Instr} (h : ∀ i ∈ xs, i.wellFormed = true) : ∃ bytes, encodeAll xs = .ok bytes := by
  induction xs with
  | nil => exact ⟨[], rfl⟩
  | cons x xs ih =>
    obtain ⟨b, hb⟩ := encode_ok (h x (by simp))
    obtain ⟨bs, hbs⟩ := ih fun i hi => h i (by simp [hi])
    exact ⟨b ++ bs, by simp [encodeAll, hb, hbs]⟩

/-! ## The scan -/

/-- What the encoder carries from pixel to pixel: the mirror and the pending run. -/
structure Scan where
  mirror : Mirror
  run : Nat
  deriving DecidableEq, Repr

/-- The scan at the start of a call. -/
def Scan.start : Scan := ⟨Mirror.start, 0⟩

/-- The RUN of a pending run. -/
def flushItems (n : Nat) : List Instr := if n = 0 then [] else [.run (BitVec.ofNat 8 n)]

/-- One pixel: the ops it emits, and the scan after it (R123 to R126). -/
def scanPixel (c : Scan) (px : Pixel) : List Instr × Scan :=
  if px = c.mirror.prev then
    if c.run + 1 = 62 then ([.run 62], ⟨c.mirror, 0⟩) else ([], ⟨c.mirror, c.run + 1⟩)
  else if hit c.mirror.cache px then
    (flushItems c.run ++ [.index (hash px)], ⟨⟨px, c.mirror.cache⟩, 0⟩)
  else
    (flushItems c.run ++ [literalItem px c.mirror.prev], ⟨⟨px, store c.mirror.cache px⟩, 0⟩)

/-- A pixel sequence. -/
def scan (c : Scan) : List Pixel → List Instr × Scan
  | [] => ([], c)
  | px :: ps =>
    let one := scanPixel c px
    let rest := scan one.2 ps
    (one.1 ++ rest.1, rest.2)

theorem scan_append (c : Scan) (ps qs : List Pixel) :
    scan c (ps ++ qs) = ((scan c ps).1 ++ (scan (scan c ps).2 qs).1, (scan (scan c ps).2 qs).2) := by
  induction ps generalizing c with
  | nil => rfl
  | cons p ps ih => simp [scan, ih, List.append_assoc]

/-- The pending run stays below 62 (R11). -/
theorem scanPixel_run {c : Scan} (h : c.run ≤ 61) (px : Pixel) : (scanPixel c px).2.run ≤ 61 := by
  unfold scanPixel
  split
  · split
    · simp
    · simp; omega
  · split <;> simp

theorem scan_run {c : Scan} (h : c.run ≤ 61) (ps : List Pixel) : (scan c ps).2.run ≤ 61 := by
  induction ps generalizing c with
  | nil => exact h
  | cons p ps ih => exact ih (scanPixel_run h p)

theorem flushItems_wellFormed {n : Nat} (h : n ≤ 61) : ∀ i ∈ flushItems n, i.wellFormed = true := by
  intro i hi
  unfold flushItems at hi
  split at hi
  · cases hi
  · simp only [List.mem_singleton] at hi
    subst hi
    simp only [Instr.wellFormed, BitVec.toNat_ofNat, Bool.and_eq_true, decide_eq_true_eq]
    have : n % 2 ^ 8 = n := Nat.mod_eq_of_lt (by omega)
    rw [this]
    exact ⟨by omega, by show n ≤ 62; omega⟩

theorem scanPixel_wellFormed {c : Scan} (h : c.run ≤ 61) (px : Pixel) :
    ∀ i ∈ (scanPixel c px).1, i.wellFormed = true := by
  unfold scanPixel
  split
  · split
    · intro i hi; simp only [List.mem_singleton] at hi; subst hi; decide
    · intro i hi; cases hi
  · split
    · intro i hi
      rcases List.mem_append.1 hi with h1 | h1
      · exact flushItems_wellFormed h i h1
      · simp only [List.mem_singleton] at h1; subst h1; rfl
    · intro i hi
      rcases List.mem_append.1 hi with h1 | h1
      · exact flushItems_wellFormed h i h1
      · simp only [List.mem_singleton] at h1; subst h1; exact literalItem_wellFormed _ _

theorem scan_wellFormed {c : Scan} (h : c.run ≤ 61) (ps : List Pixel) : ∀ i ∈ (scan c ps).1, i.wellFormed = true := by
  induction ps generalizing c with
  | nil => intro i hi; cases hi
  | cons p ps ih =>
    intro i hi
    rcases List.mem_append.1 hi with h1 | h1
    · exact scanPixel_wellFormed h p i h1
    · exact ih (scanPixel_run h p) i h1

/-! ## The scan is R128's loop -/

/-- A run in front of a sequence is carried as R128's chunks, up to its remainder. -/
theorem scan_run_front (m : Mirror) (r n : Nat) (hr : r ≤ 61) (ps : List Pixel) :
    scan ⟨m, r⟩ (List.replicate n m.prev ++ ps) =
      (List.replicate ((r + n) / 62) (.run 62) ++ (scan ⟨m, (r + n) % 62⟩ ps).1, (scan ⟨m, (r + n) % 62⟩ ps).2) := by
  induction n generalizing r with
  | zero =>
    have h1 : r / 62 = 0 := Nat.div_eq_of_lt (by omega)
    have h2 : r % 62 = r := Nat.mod_eq_of_lt (by omega)
    simp [h1, h2]
  | succ n ih =>
    simp only [List.replicate_succ, List.cons_append, scan, scanPixel, if_true]
    split
    · next h =>
      have h' : r = 61 := by omega
      subst h'
      simp only [ih 0 (by omega)]
      have h1 : (61 + (n + 1)) / 62 = n / 62 + 1 := by omega
      have h2 : (61 + (n + 1)) % 62 = n % 62 := by omega
      simp [h1, h2, List.replicate_succ]
    · next h =>
      simp only [ih (r + 1) (by omega)]
      have h1 : r + 1 + n = r + (n + 1) := by omega
      simp [h1]

/-- A pixel that differs from PREV flushes the pending run first. -/
theorem scan_flush (m : Mirror) (r : Nat) {px : Pixel} (h : px ≠ m.prev) (ps : List Pixel) :
    scan ⟨m, r⟩ (px :: ps) = (flushItems r ++ (scan ⟨m, 0⟩ (px :: ps)).1, (scan ⟨m, 0⟩ (px :: ps)).2) := by
  have h0 : flushItems 0 = [] := rfl
  simp only [scan, scanPixel, if_neg h, h0, List.nil_append]
  split <;> simp [List.append_assoc]

/-- The front of a sequence is as many copies of PREV as the run is long. -/
theorem runLength_front (prev : Pixel) (ps : List Pixel) :
    ps = List.replicate (runLength prev ps) prev ++ ps.drop (runLength prev ps) ∧
      ∀ px rest, ps.drop (runLength prev ps) = px :: rest → px ≠ prev := by
  induction ps with
  | nil => exact ⟨rfl, fun _ _ h => by cases h⟩
  | cons p ps ih =>
    unfold runLength
    split
    · next h =>
      subst h
      refine ⟨?_, fun px rest hd => ih.2 px rest (by simpa using hd)⟩
      rw [List.replicate_succ, List.drop_succ_cons, List.cons_append, ← ih.1]
    · next h =>
      refine ⟨rfl, fun px rest hd => ?_⟩
      simp only [List.drop_zero, List.cons.injEq] at hd
      rw [← hd.1]; exact h

theorem runLength_pos {prev : Pixel} {ps : List Pixel} : 0 < runLength prev (prev :: ps) := by simp [runLength]

theorem flushItems_rem (n : Nat) : runChunks n = List.replicate (n / 62) (.run 62) ++ flushItems (n % 62) := rfl

/-- R128's loop gives the scan's ops, with the pending run flushed at the end, and the scan's mirror (R130). -/
theorem encodeFrom_eq_scan (fuel : Nat) (m : Mirror) (ps : List Pixel) (h : ps.length ≤ fuel) :
    encodeFrom fuel m ps =
      ((scan ⟨m, 0⟩ ps).1 ++ flushItems (scan ⟨m, 0⟩ ps).2.run, (scan ⟨m, 0⟩ ps).2.mirror) := by
  induction fuel generalizing m ps with
  | zero =>
    have : ps = [] := List.length_eq_zero_iff.1 (by omega)
    subst this; rfl
  | succ fuel ih =>
    cases ps with
    | nil => rfl
    | cons px ps =>
      have hlen : ps.length ≤ fuel := by simpa using h
      unfold encodeFrom
      split
      · next hp =>
        subst hp
        obtain ⟨hsplit, hnext⟩ := runLength_front m.prev (m.prev :: ps)
        generalize hn : runLength m.prev (m.prev :: ps) = n at hsplit hnext ⊢
        have hpos : 0 < n := hn ▸ runLength_pos
        generalize hrest : (m.prev :: ps).drop n = rest at hsplit hnext ⊢
        have hrl : rest.length ≤ fuel := by
          rw [← hrest, List.length_drop]; simp; omega
        simp only [hrest]
        rw [ih m rest hrl, hsplit, scan_run_front m 0 n (by omega) rest, Nat.zero_add, flushItems_rem]
        cases rest with
        | nil => simp [scan, flushItems]; rfl
        | cons q qs =>
          rw [scan_flush m (n % 62) (hnext q qs rfl) qs]
          simp [List.append_assoc]
      · next hp =>
        split
        · next hh =>
          simp only [ih _ ps hlen, scan, scanPixel, if_neg hp, if_pos hh]
          simp [flushItems]
        · next hh =>
          simp only [ih _ ps hlen, scan, scanPixel, if_neg hp, if_neg hh]
          simp [flushItems]

theorem encodeItems_eq_scan (ps : List Pixel) :
    encodeItems ps = (scan Scan.start ps).1 ++ flushItems (scan Scan.start ps).2.run := by
  simp only [encodeItems, encodeFrom_eq_scan ps.length Mirror.start ps le_rfl]; rfl

theorem encodeMirror_eq_scan (ps : List Pixel) : encodeMirror ps = (scan Scan.start ps).2.mirror := by
  simp only [encodeMirror, encodeFrom_eq_scan ps.length Mirror.start ps le_rfl]; rfl

/-- Every op the reference encoder emits is within its operand ranges, so encode_ops never fails (R103). -/
theorem encodeItems_wellFormed (ps : List Pixel) : ∀ i ∈ encodeItems ps, i.wellFormed = true := by
  rw [encodeItems_eq_scan]
  intro i hi
  rcases List.mem_append.1 hi with h | h
  · exact scan_wellFormed (by decide) ps i h
  · exact flushItems_wellFormed (scan_run (by decide) ps) i h

/-! ## Decoding what was encoded -/

/-- The result of a decode with the pixels of one op in front. -/
def prepend (px : Pixel) (cnt : Nat) :
    Except Cause (List Pixel × List Byte × Mirror) → Except Cause (List Pixel × List Byte × Mirror)
  | .error c => .error c
  | .ok (ps, left, final) => .ok (List.replicate cnt px ++ ps, left, final)

/-- One op in front of a stream: its pixels, then the rest (R151). -/
theorem decodeFrom_op {i : Instr} {own rest : List Byte} {m : Mirror} {fuel want : Nat}
    (hw : i.wellFormed = true) (hp : i.position = .body) (he : encode i = .ok own) (hf : 0 < fuel) (h0 : 0 < want)
    (hc : (opEffect i m).2.1 ≤ want) :
    decodeFrom fuel want m (own ++ rest) =
      prepend (opEffect i m).1 (opEffect i m).2.1
        (decodeFrom (fuel - 1) (want - (opEffect i m).2.1) ⟨(opEffect i m).1, (opEffect i m).2.2⟩ rest) := by
  have key : Laws.RoundTrip.Statement i := by
    cases i
    · exact Laws.RoundTrip.rgba _ _ _ _
    · exact Laws.RoundTrip.rgb _ _ _
    · exact Laws.RoundTrip.run _
    · exact Laws.RoundTrip.index _
    · exact Laws.RoundTrip.diff _ _ _
    · exact Laws.RoundTrip.luma _ _ _
    · exact Laws.RoundTrip.header _ _ _ _ _
    · exact Laws.RoundTrip.footer _
  obtain ⟨bytes, hb, hd⟩ := key hw
  rw [he] at hb
  cases hb
  have hd' : decodeOp (own ++ rest) = .ok (i, rest) := by
    have := hd rest
    rwa [hp] at this
  obtain ⟨f, rfl⟩ : ∃ f, fuel = f + 1 := ⟨fuel - 1, by omega⟩
  obtain ⟨w, rfl⟩ : ∃ w, want = w + 1 := ⟨want - 1, by omega⟩
  simp only [decodeFrom, hd', Nat.add_sub_cancel]
  rw [if_neg (by omega)]
  cases decodeFrom f (w + 1 - (opEffect i m).2.1) ⟨(opEffect i m).1, (opEffect i m).2.2⟩ rest <;> rfl

/-- The RUN chunks of a run give the run back (R128 step 1 with R145). -/
theorem decodeFrom_runs {m : Mirror} {rest own : List Byte} {q fuel want : Nat}
    (he : encodeAll (List.replicate q (.run 62)) = .ok own) (hf : want ≤ fuel) (hc : q * 62 ≤ want) :
    decodeFrom fuel want m (own ++ rest) =
      prepend m.prev (q * 62) (decodeFrom (fuel - q) (want - q * 62) m rest) := by
  induction q generalizing own fuel want with
  | zero =>
    cases he
    simp only [List.nil_append, Nat.sub_zero, Nat.zero_mul]
    cases decodeFrom fuel want m rest <;> rfl
  | succ q ih =>
    obtain ⟨tl, htl⟩ : ∃ tl, encodeAll (List.replicate q (.run 62)) = .ok tl :=
      encodeAll_ok fun i hi => by rw [(List.mem_replicate.1 hi).2]; decide
    obtain ⟨one, hone⟩ : ∃ one, encode (.run 62) = .ok one := encode_ok (by decide)
    have : own = one ++ tl := by
      rw [List.replicate_succ] at he
      simp only [encodeAll, hone, htl] at he
      cases he; rfl
    subst this
    have hcnt : (opEffect (.run 62) m).2.1 = 62 := rfl
    rw [List.append_assoc, decodeFrom_op (i := .run 62) (m := m) (by decide) rfl hone (by omega) (by omega) (by omega),
      hcnt]
    show prepend m.prev 62 (decodeFrom (fuel - 1) (want - 62) m (tl ++ rest)) = _
    rw [ih htl (by omega) (by omega), show fuel - 1 - q = fuel - (q + 1) by omega,
      show want - 62 - q * 62 = want - (q + 1) * 62 by omega]
    cases decodeFrom (fuel - (q + 1)) (want - (q + 1) * 62) m rest with
    | error c => rfl
    | ok r =>
      simp only [prepend, ← List.append_assoc, List.replicate_append_replicate]
      rw [show 62 + q * 62 = (q + 1) * 62 by omega]

end Sys2Proof.Machine
end

