-- ==== Sys2Proof/Laws/Space.lean ====
section
/-! SUPPORT. The laws of the spaces: read after write, fill and writeN, and that every operation keeps the canonical
form. -/

namespace Sys2Proof.Machine

variable {α : Type}

/-- Every index of the space lies above `lo`. -/
def AllAbove (lo : Nat) (m : Space α) : Prop := ∀ c ∈ m, lo < c.1

theorem Space.wf_nil : Space.wf ([] : Space α) = true := rfl

theorem Space.wf_cons (i : Nat) (v : α) (t : Space α) :
    Space.wf ((i, v) :: t) = true ↔ AllAbove i t ∧ Space.wf t = true := by
  induction t generalizing i v with
  | nil => simp [Space.wf, AllAbove]
  | cons c t ih =>
    obtain ⟨j, w⟩ := c
    simp only [Space.wf, Bool.and_eq_true, decide_eq_true_eq, AllAbove, List.mem_cons, forall_eq_or_imp]
    constructor
    · rintro ⟨hij, hw⟩
      refine ⟨⟨hij, fun c hc => ?_⟩, hw⟩
      exact lt_trans hij (((ih j w).1 hw).1 c hc)
    · rintro ⟨⟨hij, -⟩, hw⟩
      exact ⟨hij, hw⟩

theorem Space.read_none_of_above {lo i : Nat} {m : Space α} (h : AllAbove lo m) (hi : i ≤ lo) :
    Space.read m i = none := by
  induction m with
  | nil => rfl
  | cons c t ih =>
    obtain ⟨j, w⟩ := c
    have hj : lo < j := h (j, w) (by simp)
    have : i ≠ j := by omega
    simp only [Space.read, if_neg this]
    exact ih fun c hc => h c (by simp [hc])

theorem Space.write_above {lo i : Nat} {v : α} {m : Space α} (h : AllAbove lo m) (hi : lo < i) :
    AllAbove lo (Space.write m i v) := by
  induction m with
  | nil => simpa [Space.write, AllAbove] using hi
  | cons c t ih =>
    obtain ⟨j, w⟩ := c
    have hj : lo < j := h (j, w) (by simp)
    have ht : AllAbove lo t := fun c hc => h c (by simp [hc])
    unfold Space.write
    split
    · intro c hc
      simp only [List.mem_cons] at hc
      rcases hc with rfl | rfl | hc
      exacts [hi, hj, ht c hc]
    · split
      · intro c hc
        simp only [List.mem_cons] at hc
        rcases hc with rfl | hc
        exacts [hi, ht c hc]
      · intro c hc
        simp only [List.mem_cons] at hc
        rcases hc with rfl | hc
        exacts [hj, ih ht c hc]

/-- Writing keeps the canonical form. -/
theorem Space.wf_write {m : Space α} (h : Space.wf m = true) (i : Nat) (v : α) :
    Space.wf (Space.write m i v) = true := by
  induction m with
  | nil => rfl
  | cons c t ih =>
    obtain ⟨j, w⟩ := c
    have hc := (Space.wf_cons j w t).1 h
    unfold Space.write
    split
    · next hij =>
      refine (Space.wf_cons _ _ _).2 ⟨?_, h⟩
      intro c hmem
      simp only [List.mem_cons] at hmem
      rcases hmem with rfl | hmem
      exacts [hij, lt_trans hij (hc.1 c hmem)]
    · split
      · next hij => subst hij; exact (Space.wf_cons _ _ _).2 hc
      · exact (Space.wf_cons _ _ _).2 ⟨Space.write_above hc.1 (by omega), ih hc.2⟩

/-- A read after a write: the value at the index written, every other index as before. -/
theorem Space.read_write (m : Space α) (i j : Nat) (v : α) :
    Space.read (Space.write m i v) j = if j = i then some v else Space.read m j := by
  induction m with
  | nil => simp [Space.write, Space.read]
  | cons c t ih =>
    obtain ⟨k, w⟩ := c
    unfold Space.write
    split
    · simp [Space.read]
    · split
      · next h => subst h; by_cases hj : j = i <;> simp [Space.read, hj]
      · next h1 h2 =>
        simp only [Space.read, ih]
        by_cases hk : j = k
        · have : j ≠ i := by omega
          simp [hk, Ne.symm h2]
        · simp [hk]

/-- Filling keeps the canonical form. -/
theorem Space.wf_fill {m : Space α} (h : Space.wf m = true) (pos : Nat) (v : α) (n : Nat) :
    Space.wf (Space.fill m pos v n) = true := by
  induction n with
  | zero => exact h
  | succ n ih => exact Space.wf_write ih _ _

/-- A read after a fill. -/
theorem Space.read_fill (m : Space α) (pos : Nat) (v : α) (n j : Nat) :
    Space.read (Space.fill m pos v n) j = if pos ≤ j ∧ j < pos + n then some v else Space.read m j := by
  induction n with
  | zero => simp only [Space.fill]; rw [if_neg (by omega)]
  | succ n ih =>
    simp only [Space.fill, Space.read_write, ih]
    by_cases h1 : j = pos + n
    · subst h1; simp
    · rw [if_neg h1]
      by_cases h2 : pos ≤ j ∧ j < pos + n
      · rw [if_pos h2, if_pos ⟨h2.1, by omega⟩]
      · rw [if_neg h2, if_neg (by omega)]

/-- Writing a sequence keeps the canonical form. -/
theorem Space.wf_writeN {m : Space α} (h : Space.wf m = true) (pos : Nat) (vs : List α) :
    Space.wf (Space.writeN m pos vs) = true := by
  induction vs generalizing m pos with
  | nil => exact h
  | cons v vs ih => exact ih (Space.wf_write h pos v) (pos + 1)

/-- A read after writing a sequence. -/
theorem Space.read_writeN (m : Space α) (pos : Nat) (vs : List α) (j : Nat) :
    Space.read (Space.writeN m pos vs) j =
      if pos ≤ j ∧ j < pos + vs.length then vs[j - pos]? else Space.read m j := by
  induction vs generalizing m pos with
  | nil => simp only [Space.writeN, List.length_nil]; rw [if_neg (by omega)]
  | cons v vs ih =>
    simp only [Space.writeN, ih, Space.read_write, List.length_cons]
    by_cases h1 : j = pos
    · subst h1; rw [if_neg (by omega), if_pos rfl, if_pos (by omega)]; simp
    · by_cases h2 : pos + 1 ≤ j ∧ j < pos + 1 + vs.length
      · rw [if_pos h2, if_pos (by omega)]
        obtain ⟨k, hk⟩ : ∃ k, j - pos = k + 1 := ⟨j - pos - 1, by omega⟩
        rw [show j - (pos + 1) = k by omega, hk]; simp
      · rw [if_neg h2, if_neg h1, if_neg (by omega)]

/-- The space of a sequence is canonical. -/
theorem Space.wf_ofList (vs : List α) : Space.wf (Space.ofList vs) = true := Space.wf_writeN rfl 0 vs

/-- The space of a sequence holds exactly the sequence. -/
theorem Space.read_ofList (vs : List α) (j : Nat) : Space.read (Space.ofList vs) j = vs[j]? := by
  unfold Space.ofList
  rw [Space.read_writeN]
  by_cases h : j < vs.length
  · rw [if_pos (by omega), Nat.sub_zero]
  · rw [if_neg (by omega)]
    rw [List.getElem?_eq_none (by omega)]
    rfl

/-- What `readN` answers: as many values as asked for, each the one its index holds. -/
theorem Space.readN_eq_some (m : Space α) (pos n : Nat) (vs : List α) :
    Space.readN m pos n = some vs ↔ vs.length = n ∧ ∀ k, k < n → Space.read m (pos + k) = vs[k]? := by
  induction n generalizing pos vs with
  | zero =>
    cases vs <;> simp [Space.readN]
  | succ n ih =>
    unfold Space.readN
    constructor
    · intro h
      split at h
      · next v ws hv hws =>
        cases h
        obtain ⟨hl, hr⟩ := (ih (pos + 1) ws).1 hws
        refine ⟨by simp [hl], fun k hk => ?_⟩
        cases k with
        | zero => simpa using hv
        | succ k =>
          have := hr k (by omega)
          rw [show pos + (k + 1) = pos + 1 + k by omega]
          simpa using this
      · cases h
    · rintro ⟨hl, hr⟩
      cases vs with
      | nil => simp at hl
      | cons v ws =>
        have h0 : Space.read m pos = some v := by simpa using hr 0 (by omega)
        have h1 : Space.readN m (pos + 1) n = some ws := by
          refine (ih (pos + 1) ws).2 ⟨by simpa using hl, fun k hk => ?_⟩
          have := hr (k + 1) (by omega)
          rw [show pos + 1 + k = pos + (k + 1) by omega]
          simpa using this
        simp [h0, h1]

/-- The memory operations keep `Memory.wf`. -/
theorem Memory.wf_write {m : Memory} (h : Memory.wf m = true) (i : Nat) (b : Byte) :
    Memory.wf (Space.write m i b) = true := Space.wf_write h i b

theorem Memory.wf_writeN {m : Memory} (h : Memory.wf m = true) (pos : Nat) (bs : List Byte) :
    Memory.wf (Space.writeN m pos bs) = true := Space.wf_writeN h pos bs

theorem Memory.wf_ofList (bs : List Byte) : Memory.wf (Space.ofList bs) = true := Space.wf_ofList bs

/-- Canonical spaces that read the same are the same. -/
theorem Space.ext_of_read {m m' : Space α} (h : Space.wf m = true) (h' : Space.wf m' = true)
    (hr : ∀ i, Space.read m i = Space.read m' i) : m = m' := by
  induction m generalizing m' with
  | nil =>
    cases m' with
    | nil => rfl
    | cons c t => obtain ⟨j, w⟩ := c; have := hr j; simp [Space.read] at this
  | cons c t ih =>
    obtain ⟨j, w⟩ := c
    have hc := (Space.wf_cons j w t).1 h
    cases m' with
    | nil => have := hr j; simp [Space.read] at this
    | cons c' t' =>
      obtain ⟨j', w'⟩ := c'
      have hc' := (Space.wf_cons j' w' t').1 h'
      have hjj : j = j' := by
        rcases Nat.lt_trichotomy j j' with hlt | heq | hgt
        · have := hr j
          rw [Space.read, if_pos rfl, Space.read, if_neg (by omega),
            Space.read_none_of_above hc'.1 (by omega)] at this
          cases this
        · exact heq
        · have := hr j'
          rw [Space.read, if_neg (by omega), Space.read_none_of_above hc.1 (by omega), Space.read, if_pos rfl] at this
          cases this
      subst hjj
      have hw : w = w' := by have := hr j; simpa [Space.read] using this
      subst hw
      rw [ih hc.2 hc'.2 fun i => ?_]
      by_cases hi : i = j
      · subst hi
        rw [Space.read_none_of_above hc.1 le_rfl, Space.read_none_of_above hc'.1 le_rfl]
      · have := hr i; simpa [Space.read, hi] using this

end Sys2Proof.Machine
end

