-- ==== Sys2Proof/Laws/State.lean ====
section
/-! SUPPORT. One lemma per field per named update, true by rfl, so that no later proof unfolds a record update. -/

namespace Sys2Proof.Machine

section DecoderUpdates

variable (d : Decoder) (c : Cause) (px : Pixel) (len cnt draw : Nat)

@[simp] theorem Decoder.raise_slen : (d.raise c).slen = d.slen := rfl
@[simp] theorem Decoder.raise_width : (d.raise c).width = d.width := rfl
@[simp] theorem Decoder.raise_height : (d.raise c).height = d.height := rfl
@[simp] theorem Decoder.raise_channels : (d.raise c).channels = d.channels := rfl
@[simp] theorem Decoder.raise_colorspace : (d.raise c).colorspace = d.colorspace := rfl
@[simp] theorem Decoder.raise_prev : (d.raise c).prev = d.prev := rfl
@[simp] theorem Decoder.raise_cache : (d.raise c).cache = d.cache := rfl
@[simp] theorem Decoder.raise_npix : (d.raise c).npix = d.npix := rfl
@[simp] theorem Decoder.raise_opos : (d.raise c).opos = d.opos := rfl
@[simp] theorem Decoder.raise_spos : (d.raise c).spos = d.spos := rfl
@[simp] theorem Decoder.raise_phase : (d.raise c).phase = .error := rfl
@[simp] theorem Decoder.raise_err : (d.raise c).err = c := rfl
@[simp] theorem Decoder.raise_sin : (d.raise c).sin = d.sin := rfl
@[simp] theorem Decoder.raise_pixout : (d.raise c).pixout = [] := rfl

@[simp] theorem Decoder.storePixel_slen : (d.storePixel px).slen = d.slen := rfl
@[simp] theorem Decoder.storePixel_width : (d.storePixel px).width = d.width := rfl
@[simp] theorem Decoder.storePixel_height : (d.storePixel px).height = d.height := rfl
@[simp] theorem Decoder.storePixel_channels : (d.storePixel px).channels = d.channels := rfl
@[simp] theorem Decoder.storePixel_colorspace : (d.storePixel px).colorspace = d.colorspace := rfl
@[simp] theorem Decoder.storePixel_prev : (d.storePixel px).prev = d.prev := rfl
@[simp] theorem Decoder.storePixel_cache : (d.storePixel px).cache = store d.cache px := rfl
@[simp] theorem Decoder.storePixel_npix : (d.storePixel px).npix = d.npix := rfl
@[simp] theorem Decoder.storePixel_opos : (d.storePixel px).opos = d.opos := rfl
@[simp] theorem Decoder.storePixel_spos : (d.storePixel px).spos = d.spos := rfl
@[simp] theorem Decoder.storePixel_phase : (d.storePixel px).phase = d.phase := rfl
@[simp] theorem Decoder.storePixel_err : (d.storePixel px).err = d.err := rfl
@[simp] theorem Decoder.storePixel_sin : (d.storePixel px).sin = d.sin := rfl
@[simp] theorem Decoder.storePixel_pixout : (d.storePixel px).pixout = d.pixout := rfl

@[simp] theorem Decoder.writeOut_slen : (d.writeOut px cnt).slen = d.slen := rfl
@[simp] theorem Decoder.writeOut_width : (d.writeOut px cnt).width = d.width := rfl
@[simp] theorem Decoder.writeOut_height : (d.writeOut px cnt).height = d.height := rfl
@[simp] theorem Decoder.writeOut_channels : (d.writeOut px cnt).channels = d.channels := rfl
@[simp] theorem Decoder.writeOut_colorspace : (d.writeOut px cnt).colorspace = d.colorspace := rfl
@[simp] theorem Decoder.writeOut_prev : (d.writeOut px cnt).prev = d.prev := rfl
@[simp] theorem Decoder.writeOut_cache : (d.writeOut px cnt).cache = d.cache := rfl
@[simp] theorem Decoder.writeOut_npix : (d.writeOut px cnt).npix = d.npix := rfl
@[simp] theorem Decoder.writeOut_opos : (d.writeOut px cnt).opos = d.opos := rfl
@[simp] theorem Decoder.writeOut_spos : (d.writeOut px cnt).spos = d.spos := rfl
@[simp] theorem Decoder.writeOut_phase : (d.writeOut px cnt).phase = d.phase := rfl
@[simp] theorem Decoder.writeOut_err : (d.writeOut px cnt).err = d.err := rfl
@[simp] theorem Decoder.writeOut_sin : (d.writeOut px cnt).sin = d.sin := rfl
@[simp] theorem Decoder.writeOut_pixout : (d.writeOut px cnt).pixout = Space.fill d.pixout d.opos.toNat px cnt := rfl

@[simp] theorem Decoder.finish_slen : (d.finish px len cnt).slen = d.slen := rfl
@[simp] theorem Decoder.finish_width : (d.finish px len cnt).width = d.width := rfl
@[simp] theorem Decoder.finish_height : (d.finish px len cnt).height = d.height := rfl
@[simp] theorem Decoder.finish_channels : (d.finish px len cnt).channels = d.channels := rfl
@[simp] theorem Decoder.finish_colorspace : (d.finish px len cnt).colorspace = d.colorspace := rfl
@[simp] theorem Decoder.finish_prev : (d.finish px len cnt).prev = px := rfl
@[simp] theorem Decoder.finish_cache : (d.finish px len cnt).cache = d.cache := rfl
@[simp] theorem Decoder.finish_npix : (d.finish px len cnt).npix = d.npix := rfl
@[simp] theorem Decoder.finish_opos : (d.finish px len cnt).opos = d.opos + BitVec.ofNat 64 cnt := rfl
@[simp] theorem Decoder.finish_spos : (d.finish px len cnt).spos = d.spos + BitVec.ofNat 64 len := rfl
@[simp] theorem Decoder.finish_phase : (d.finish px len cnt).phase = if d.opos + BitVec.ofNat 64 cnt = d.npix then .footer else d.phase := rfl
@[simp] theorem Decoder.finish_err : (d.finish px len cnt).err = d.err := rfl
@[simp] theorem Decoder.finish_sin : (d.finish px len cnt).sin = d.sin := rfl
@[simp] theorem Decoder.finish_pixout : (d.finish px len cnt).pixout = d.pixout := rfl

@[simp] theorem Decoder.literal_slen : (d.literal px len).slen = d.slen := rfl
@[simp] theorem Decoder.literal_width : (d.literal px len).width = d.width := rfl
@[simp] theorem Decoder.literal_height : (d.literal px len).height = d.height := rfl
@[simp] theorem Decoder.literal_channels : (d.literal px len).channels = d.channels := rfl
@[simp] theorem Decoder.literal_colorspace : (d.literal px len).colorspace = d.colorspace := rfl
@[simp] theorem Decoder.literal_prev : (d.literal px len).prev = px := rfl
@[simp] theorem Decoder.literal_cache : (d.literal px len).cache = store d.cache px := rfl
@[simp] theorem Decoder.literal_npix : (d.literal px len).npix = d.npix := rfl
@[simp] theorem Decoder.literal_opos : (d.literal px len).opos = d.opos + BitVec.ofNat 64 1 := rfl
@[simp] theorem Decoder.literal_spos : (d.literal px len).spos = d.spos + BitVec.ofNat 64 len := rfl
@[simp] theorem Decoder.literal_phase : (d.literal px len).phase = if d.opos + BitVec.ofNat 64 1 = d.npix then .footer else d.phase := rfl
@[simp] theorem Decoder.literal_err : (d.literal px len).err = d.err := rfl
@[simp] theorem Decoder.literal_sin : (d.literal px len).sin = d.sin := rfl
@[simp] theorem Decoder.literal_pixout : (d.literal px len).pixout = Space.fill d.pixout d.opos.toNat px 1 := rfl

@[simp] theorem Decoder.replay_slen : (d.replay px len cnt).slen = d.slen := rfl
@[simp] theorem Decoder.replay_width : (d.replay px len cnt).width = d.width := rfl
@[simp] theorem Decoder.replay_height : (d.replay px len cnt).height = d.height := rfl
@[simp] theorem Decoder.replay_channels : (d.replay px len cnt).channels = d.channels := rfl
@[simp] theorem Decoder.replay_colorspace : (d.replay px len cnt).colorspace = d.colorspace := rfl
@[simp] theorem Decoder.replay_prev : (d.replay px len cnt).prev = px := rfl
@[simp] theorem Decoder.replay_cache : (d.replay px len cnt).cache = d.cache := rfl
@[simp] theorem Decoder.replay_npix : (d.replay px len cnt).npix = d.npix := rfl
@[simp] theorem Decoder.replay_opos : (d.replay px len cnt).opos = d.opos + BitVec.ofNat 64 cnt := rfl
@[simp] theorem Decoder.replay_spos : (d.replay px len cnt).spos = d.spos + BitVec.ofNat 64 len := rfl
@[simp] theorem Decoder.replay_phase : (d.replay px len cnt).phase = if d.opos + BitVec.ofNat 64 cnt = d.npix then .footer else d.phase := rfl
@[simp] theorem Decoder.replay_err : (d.replay px len cnt).err = d.err := rfl
@[simp] theorem Decoder.replay_sin : (d.replay px len cnt).sin = d.sin := rfl
@[simp] theorem Decoder.replay_pixout : (d.replay px len cnt).pixout = Space.fill d.pixout d.opos.toNat px cnt := rfl

@[simp] theorem Decoder.start_slen : (d.start draw).slen = d.slen := rfl
@[simp] theorem Decoder.start_width : (d.start draw).width = d.width := rfl
@[simp] theorem Decoder.start_height : (d.start draw).height = d.height := rfl
@[simp] theorem Decoder.start_channels : (d.start draw).channels = d.channels := rfl
@[simp] theorem Decoder.start_colorspace : (d.start draw).colorspace = d.colorspace := rfl
@[simp] theorem Decoder.start_prev : (d.start draw).prev = Config.startPixel := rfl
@[simp] theorem Decoder.start_cache : (d.start draw).cache = Cache.zero := rfl
@[simp] theorem Decoder.start_npix : (d.start draw).npix = Config.freeBits 64 draw 0 := rfl
@[simp] theorem Decoder.start_opos : (d.start draw).opos = 0 := rfl
@[simp] theorem Decoder.start_spos : (d.start draw).spos = 0 := rfl
@[simp] theorem Decoder.start_phase : (d.start draw).phase = .header := rfl
@[simp] theorem Decoder.start_err : (d.start draw).err = .noError := rfl
@[simp] theorem Decoder.start_sin : (d.start draw).sin = d.sin := rfl
@[simp] theorem Decoder.start_pixout : (d.start draw).pixout = [] := rfl

@[simp] theorem Decoder.hardwareReset_phase : (d.hardwareReset draw).phase = .idle := rfl
@[simp] theorem Decoder.hardwareReset_err : (d.hardwareReset draw).err = .noError := rfl
@[simp] theorem Decoder.hardwareReset_sin : (d.hardwareReset draw).sin = d.sin := rfl
@[simp] theorem Decoder.hardwareReset_pixout : (d.hardwareReset draw).pixout = [] := rfl

end DecoderUpdates

section EncoderUpdates

variable (e : Encoder) (c : Cause) (px : Pixel) (bytes : List Byte) (draw : Nat)

@[simp] theorem Encoder.raise_width : (e.raise c).width = e.width := rfl
@[simp] theorem Encoder.raise_height : (e.raise c).height = e.height := rfl
@[simp] theorem Encoder.raise_channels : (e.raise c).channels = e.channels := rfl
@[simp] theorem Encoder.raise_colorspace : (e.raise c).colorspace = e.colorspace := rfl
@[simp] theorem Encoder.raise_prev : (e.raise c).prev = e.prev := rfl
@[simp] theorem Encoder.raise_cache : (e.raise c).cache = e.cache := rfl
@[simp] theorem Encoder.raise_runCnt : (e.raise c).runCnt = e.runCnt := rfl
@[simp] theorem Encoder.raise_npix : (e.raise c).npix = e.npix := rfl
@[simp] theorem Encoder.raise_ppos : (e.raise c).ppos = e.ppos := rfl
@[simp] theorem Encoder.raise_phase : (e.raise c).phase = .error := rfl
@[simp] theorem Encoder.raise_err : (e.raise c).err = c := rfl
@[simp] theorem Encoder.raise_pixin : (e.raise c).pixin = e.pixin := rfl
@[simp] theorem Encoder.raise_sout : (e.raise c).sout = [] := rfl

@[simp] theorem Encoder.emit_width : (e.emit bytes).width = e.width := rfl
@[simp] theorem Encoder.emit_height : (e.emit bytes).height = e.height := rfl
@[simp] theorem Encoder.emit_channels : (e.emit bytes).channels = e.channels := rfl
@[simp] theorem Encoder.emit_colorspace : (e.emit bytes).colorspace = e.colorspace := rfl
@[simp] theorem Encoder.emit_prev : (e.emit bytes).prev = e.prev := rfl
@[simp] theorem Encoder.emit_cache : (e.emit bytes).cache = e.cache := rfl
@[simp] theorem Encoder.emit_runCnt : (e.emit bytes).runCnt = e.runCnt := rfl
@[simp] theorem Encoder.emit_npix : (e.emit bytes).npix = e.npix := rfl
@[simp] theorem Encoder.emit_ppos : (e.emit bytes).ppos = e.ppos := rfl
@[simp] theorem Encoder.emit_phase : (e.emit bytes).phase = e.phase := rfl
@[simp] theorem Encoder.emit_err : (e.emit bytes).err = e.err := rfl
@[simp] theorem Encoder.emit_pixin : (e.emit bytes).pixin = e.pixin := rfl
@[simp] theorem Encoder.emit_sout : (e.emit bytes).sout = e.sout ++ bytes := rfl

@[simp] theorem Encoder.consume_width : (e.consume px).width = e.width := rfl
@[simp] theorem Encoder.consume_height : (e.consume px).height = e.height := rfl
@[simp] theorem Encoder.consume_channels : (e.consume px).channels = e.channels := rfl
@[simp] theorem Encoder.consume_colorspace : (e.consume px).colorspace = e.colorspace := rfl
@[simp] theorem Encoder.consume_prev : (e.consume px).prev = px := rfl
@[simp] theorem Encoder.consume_cache : (e.consume px).cache = e.cache := rfl
@[simp] theorem Encoder.consume_runCnt : (e.consume px).runCnt = e.runCnt := rfl
@[simp] theorem Encoder.consume_npix : (e.consume px).npix = e.npix := rfl
@[simp] theorem Encoder.consume_ppos : (e.consume px).ppos = e.ppos + 1 := rfl
@[simp] theorem Encoder.consume_phase : (e.consume px).phase = e.phase := rfl
@[simp] theorem Encoder.consume_err : (e.consume px).err = e.err := rfl
@[simp] theorem Encoder.consume_pixin : (e.consume px).pixin = e.pixin := rfl
@[simp] theorem Encoder.consume_sout : (e.consume px).sout = e.sout := rfl

@[simp] theorem Encoder.headerStep_width : (e.headerStep).width = e.width := rfl
@[simp] theorem Encoder.headerStep_height : (e.headerStep).height = e.height := rfl
@[simp] theorem Encoder.headerStep_channels : (e.headerStep).channels = e.channels := rfl
@[simp] theorem Encoder.headerStep_colorspace : (e.headerStep).colorspace = e.colorspace := rfl
@[simp] theorem Encoder.headerStep_prev : (e.headerStep).prev = e.prev := rfl
@[simp] theorem Encoder.headerStep_cache : (e.headerStep).cache = e.cache := rfl
@[simp] theorem Encoder.headerStep_runCnt : (e.headerStep).runCnt = e.runCnt := rfl
@[simp] theorem Encoder.headerStep_npix : (e.headerStep).npix = e.npix := rfl
@[simp] theorem Encoder.headerStep_ppos : (e.headerStep).ppos = e.ppos := rfl
@[simp] theorem Encoder.headerStep_phase : (e.headerStep).phase = .body := rfl
@[simp] theorem Encoder.headerStep_err : (e.headerStep).err = e.err := rfl
@[simp] theorem Encoder.headerStep_pixin : (e.headerStep).pixin = e.pixin := rfl
@[simp] theorem Encoder.headerStep_sout : (e.headerStep).sout = e.sout ++ writeHeader ⟨e.width, e.height, e.channels, e.colorspace⟩ := rfl

@[simp] theorem Encoder.footerStep_width : (e.footerStep).width = e.width := rfl
@[simp] theorem Encoder.footerStep_height : (e.footerStep).height = e.height := rfl
@[simp] theorem Encoder.footerStep_channels : (e.footerStep).channels = e.channels := rfl
@[simp] theorem Encoder.footerStep_colorspace : (e.footerStep).colorspace = e.colorspace := rfl
@[simp] theorem Encoder.footerStep_prev : (e.footerStep).prev = e.prev := rfl
@[simp] theorem Encoder.footerStep_cache : (e.footerStep).cache = e.cache := rfl
@[simp] theorem Encoder.footerStep_runCnt : (e.footerStep).runCnt = e.runCnt := rfl
@[simp] theorem Encoder.footerStep_npix : (e.footerStep).npix = e.npix := rfl
@[simp] theorem Encoder.footerStep_ppos : (e.footerStep).ppos = e.ppos := rfl
@[simp] theorem Encoder.footerStep_phase : (e.footerStep).phase = .done := rfl
@[simp] theorem Encoder.footerStep_err : (e.footerStep).err = e.err := rfl
@[simp] theorem Encoder.footerStep_pixin : (e.footerStep).pixin = e.pixin := rfl
@[simp] theorem Encoder.footerStep_sout : (e.footerStep).sout = e.sout ++ footerBytes := rfl

@[simp] theorem Encoder.hardwareReset_phase : (e.hardwareReset draw).phase = .idle := rfl
@[simp] theorem Encoder.hardwareReset_err : (e.hardwareReset draw).err = .noError := rfl
@[simp] theorem Encoder.hardwareReset_pixin : (e.hardwareReset draw).pixin = e.pixin := rfl
@[simp] theorem Encoder.hardwareReset_sout : (e.hardwareReset draw).sout = [] := rfl

end EncoderUpdates

section StateUpdates

variable (s : State)

@[simp] theorem State.popTurn_enc : (s.popTurn).enc = s.enc := rfl
@[simp] theorem State.popTurn_dec : (s.popTurn).dec = s.dec := rfl
@[simp] theorem State.popTurn_hostq : (s.popTurn).hostq = s.hostq := rfl
@[simp] theorem State.popTurn_hostGot : (s.popTurn).hostGot = s.hostGot := rfl
@[simp] theorem State.popTurn_sched : (s.popTurn).sched = s.sched.tail := rfl
@[simp] theorem State.popTurn_freeIx : (s.popTurn).freeIx = s.freeIx := rfl

end StateUpdates

end Sys2Proof.Machine
end

