-- ==== Sys2Proof/Laws/Exec.lean ====
section
/-! SUPPORT. What executing an item can do: one lemma for the ops that store, one for those that repeat, one inversion
lemma per item, and what the fetch answers. -/

namespace Sys2Proof.Machine

/-! ## The shared operations of the op step -/

theorem inBody_iff (d : Decoder) : d.inBody = true ↔ d.phase = .body ∧ d.opos.toNat < d.npix.toNat := by
  simp [Decoder.inBody]

/-- A counter that stays at or below another one does not wrap. -/
theorem count_add_toNat {a n : Count} {k : Nat} (h : a.toNat + k ≤ n.toNat) :
    (a + BitVec.ofNat 64 k).toNat = a.toNat + k := by
  have := n.isLt
  rw [BitVec.toNat_add, BitVec.toNat_ofNat]
  omega

theorem storedRun_fill (m : Space Pixel) (pos cnt : Nat) (px : Pixel) :
    StoredRun m (Space.fill m pos px cnt) pos cnt px := by
  refine ⟨fun k hk => ?_, fun j hj => ?_⟩
  · rw [Space.read_fill, if_pos (by omega)]
  · rw [Space.read_fill, if_neg (by omega)]

/-- A step that goes on: the op's precondition held. -/
theorem commit_eq_next {s t : State} {pre : Bool} {d : Decoder} :
    commit s pre d = .next t ↔ pre = true ∧ t = { s with dec := d } := by
  unfold commit
  cases pre <;> simp [eq_comm]

theorem commit_true (s : State) {pre : Bool} (h : pre = true) (d : Decoder) :
    commit s pre d = .next { s with dec := d } := by simp [commit, h]

/-- Replacing DEC changes nothing outside DEC. -/
theorem sameOutsideDec_with (s : State) (d : Decoder) : SameOutsideDec s { s with dec := d } :=
  ⟨rfl, rfl, rfl, rfl, rfl⟩

theorem advanced_finish {d : Decoder} (px : Pixel) (len : Nat) {cnt : Nat} (hb : d.phase = .body)
    (h : d.opos.toNat + cnt ≤ d.npix.toNat) : Advanced d (d.finish px len cnt) len cnt :=
  ⟨rfl, count_add_toNat h, by rw [Decoder.finish_phase, hb]; rfl⟩

/-- What an op that repeats a pixel leaves. -/
theorem opDone_replay {s : State} (px : Pixel) (len : Nat) {cnt : Nat} (hb : s.dec.inBody = true)
    (h : s.dec.opos.toNat + cnt ≤ s.dec.npix.toNat) :
    OpDone s { s with dec := s.dec.replay px len cnt } px len cnt where
  outside := sameOutsideDec_with s _
  config := ⟨rfl, rfl, rfl, rfl, rfl, rfl, rfl, rfl⟩
  prev := rfl
  pixels := storedRun_fill _ _ _ _
  advanced := ⟨rfl, count_add_toNat h, by simp only [Decoder.replay_phase, ((inBody_iff _).1 hb).1]; rfl⟩

/-- What an op that stores its pixel leaves. -/
theorem opDone_literal {s : State} (px : Pixel) (len : Nat) (hb : s.dec.inBody = true) :
    OpDone s { s with dec := s.dec.literal px len } px len 1 where
  outside := sameOutsideDec_with s _
  config := ⟨rfl, rfl, rfl, rfl, rfl, rfl, rfl, rfl⟩
  prev := rfl
  pixels := storedRun_fill _ _ _ _
  advanced := ⟨rfl, count_add_toNat ((inBody_iff _).1 hb).2, by
    simp only [Decoder.literal_phase, ((inBody_iff _).1 hb).1]; rfl⟩

/-! ## Inversion, per item -/

variable {s t : State}

theorem execRgba_cases {r g b a : Byte} (h : exec (.rgba r g b a) s = .next t) :
    s.dec.inBody = true ∧ t = { s with dec := s.dec.literal ⟨r, g, b, a⟩ 5 } := commit_eq_next.1 h

theorem execRgb_cases {r g b : Byte} (h : exec (.rgb r g b) s = .next t) :
    s.dec.inBody = true ∧ t = { s with dec := s.dec.literal ⟨r, g, b, s.dec.prev.a⟩ 4 } := commit_eq_next.1 h

theorem execDiff_cases {dr dg db : Delta} (h : exec (.diff dr dg db) s = .next t) :
    s.dec.inBody = true ∧
      t = { s with dec := s.dec.literal (shiftPixel s.dec.prev dr.toInt dg.toInt db.toInt) 1 } := commit_eq_next.1 h

theorem execLuma_cases {dg drg dbg : Delta} (h : exec (.luma dg drg dbg) s = .next t) :
    s.dec.inBody = true ∧
      t = { s with dec :=
        s.dec.literal (shiftPixel s.dec.prev (drg.toInt + dg.toInt) dg.toInt (dbg.toInt + dg.toInt)) 2 } :=
  commit_eq_next.1 h

theorem execIndex_cases {idx : Slot} (h : exec (.index idx) s = .next t) :
    s.dec.inBody = true ∧ t = { s with dec := s.dec.replay (lookup s.dec.cache idx) 1 1 } := commit_eq_next.1 h

theorem execRun_cases {count : Byte} (h : exec (.run count) s = .next t) :
    s.dec.inBody = true ∧
      ((s.dec.npix.toNat < s.dec.opos.toNat + count.toNat ∧ t = { s with dec := s.dec.raise .runOverrun }) ∨
       (s.dec.opos.toNat + count.toNat ≤ s.dec.npix.toNat ∧
         t = { s with dec := s.dec.replay s.dec.prev 1 count.toNat })) := by
  obtain ⟨hb, ht⟩ := commit_eq_next.1 h
  refine ⟨hb, ?_⟩
  split at ht
  · next ho => exact Or.inl ⟨ho, ht⟩
  · next ho => exact Or.inr ⟨by omega, ht⟩

/-- The product of two 32-bit sizes, as the 64-bit register holds it, is exact (R102, D5). -/
theorem size_toNat (w h : BitVec 32) : (w.setWidth 64 * h.setWidth 64 : Count).toNat = w.toNat * h.toNat := by
  have hw := w.isLt
  have hh := h.isLt
  have : w.toNat * h.toNat < 2 ^ 64 := by
    calc w.toNat * h.toNat < 2 ^ 32 * 2 ^ 32 := Nat.mul_lt_mul'' hw hh
      _ = 2 ^ 64 := by norm_num
  rw [BitVec.toNat_mul, BitVec.toNat_setWidth, BitVec.toNat_setWidth, Nat.mod_eq_of_lt (a := w.toNat) (by omega),
    Nat.mod_eq_of_lt (a := h.toNat) (by omega), Nat.mod_eq_of_lt this]

theorem size_eq_zero (w h : BitVec 32) :
    (w.setWidth 64 * h.setWidth 64 : Count) = 0 ↔ w.toNat * h.toNat = 0 := by
  rw [BitVec.toNat_eq, size_toNat]; rfl

theorem legalChannels_iff (c : Byte) : legalChannels c = true ↔ c.toNat = 3 ∨ c.toNat = 4 := by
  simp [legalChannels, BitVec.toNat_eq]

theorem legalColorspace_iff (c : Byte) : legalColorspace c = true ↔ c.toNat = 0 ∨ c.toNat = 1 := by
  simp [legalColorspace, BitVec.toNat_eq]

/-- The header's checks pass exactly for the magic and legal metadata (R112). -/
theorem readHeader_ok {m w h : BitVec 32} {c cs : Byte} {md : Metadata} :
    readHeader m w h c cs = .ok md ↔
      m = Config.magic ∧ legalChannels c = true ∧ legalColorspace cs = true ∧ md = ⟨w, h, c, cs⟩ := by
  unfold readHeader
  by_cases hm : m = Config.magic
  · cases hc : legalChannels c <;> cases hs : legalColorspace cs <;> simp [hm, eq_comm]
  · simp [hm]

/-- What HEADER can do: raise a cause that is an error, or open the body. -/
theorem execHeader_cases {m w h : BitVec 32} {c cs : Byte} (hx : exec (.header m w h c cs) s = .next t) :
    s.dec.phase = .header ∧
      ((∃ cause, cause ≠ .noError ∧ t = { s with dec := s.dec.raise cause }) ∨
       (legalMetadata ⟨w, h, c, cs⟩ = true ∧ w.toNat * h.toNat ≠ 0 ∧
         t = { s with dec := { s.dec with
           width := w, height := h, channels := c, colorspace := cs, npix := w.setWidth 64 * h.setWidth 64,
           spos := 14, phase := .body } })) := by
  obtain ⟨hb, ht⟩ := commit_eq_next.1 hx
  refine ⟨by simpa using hb, ?_⟩
  split at ht
  · next cause hr =>
    refine Or.inl ⟨cause, ?_, ht⟩
    unfold readHeader at hr
    repeat' split at hr
    all_goals (cases hr; try decide)
  · next md hr =>
    obtain ⟨-, hc, hs, rfl⟩ := readHeader_ok.1 hr
    simp only at ht
    split at ht
    · exact Or.inl ⟨_, by decide, ht⟩
    · next hz =>
      exact Or.inr ⟨by simp [legalMetadata, hc, hs], fun h0 => hz ((size_eq_zero w h).2 h0), ht⟩

/-- What FOOTER can do: raise a cause that is an error, or end the call. -/
theorem execFooter_cases {marker : BitVec 64} (hx : exec (.footer marker) s = .next t) :
    s.dec.phase = .footer ∧
      ((∃ cause, cause ≠ .noError ∧ t = { s with dec := s.dec.raise cause }) ∨
       (marker = Config.footerMarker ∧ s.dec.spos.toNat + 8 = s.dec.slen.toNat ∧
         t = { s with dec := { s.dec with spos := s.dec.spos + 8, phase := .done } })) := by
  obtain ⟨hb, ht⟩ := commit_eq_next.1 hx
  refine ⟨by simpa using hb, ?_⟩
  split at ht
  · next cause hr =>
    refine Or.inl ⟨cause, ?_, ht⟩
    unfold verifyFooter at hr
    split at hr <;> cases hr
    decide
  · next hr =>
    split at ht
    · exact Or.inl ⟨_, by decide, ht⟩
    · next hs =>
      refine Or.inr ⟨?_, by simpa using hs, ht⟩
      unfold verifyFooter at hr
      split at hr
      · assumption
      · cases hr

/-- No item is refused in its own phase, and none faults. -/
theorem exec_next_or_refused (i : Instr) (s : State) :
    (∃ t, exec i s = .next t) ∨ exec i s = .refused .outOfPhase := by
  have key : ∀ pre d, (∃ t, commit s pre d = .next t) ∨ commit s pre d = .refused .outOfPhase := by
    intro pre d
    cases pre
    · exact Or.inr rfl
    · exact Or.inl ⟨_, rfl⟩
  cases i <;> exact key _ _

/-! ## The fetch -/

theorem fetch_header {d : Decoder} (h : d.phase = .header) : d.fetch = d.fetchHeader := by simp [Decoder.fetch, h]

theorem fetch_footer {d : Decoder} (h : d.phase = .footer) : d.fetch = d.fetchFooter := by simp [Decoder.fetch, h]

theorem fetch_body {d : Decoder} (h : d.inBody = true) : d.fetch = d.fetchOp := by
  obtain ⟨h1, h2⟩ := (inBody_iff d).1 h
  simp [Decoder.fetch, h1, h2]

/-- A fetch answers an item only in the item's own phase, with its bytes presented. -/
theorem fetch_item {d : Decoder} {i : Instr} (h : d.fetch = .item i) :
    ∃ pos bytes, d.Presents bytes pos ∧ decode pos bytes = .ok (i, []) := by
  have bytesCase : ∀ pos start n, d.fetchBytes pos start n = .item i →
      ∃ bytes rest, Space.readN d.sin start n = some bytes ∧ decode pos bytes = .ok (i, rest) := by
    intro pos start n hf
    unfold Decoder.fetchBytes at hf
    split at hf
    · cases hf
    · next bytes hb =>
      split at hf
      · next j rest hd => cases hf; exact ⟨bytes, rest, hb, hd⟩
      · cases hf
  unfold Decoder.fetch at h
  split at h
  · cases h
  · next hp =>
    unfold Decoder.fetchHeader at h
    split at h
    · cases h
    · next hl =>
      obtain ⟨bytes, rest, hb, hd⟩ := bytesCase _ _ _ h
      have hlen := ((Space.readN_eq_some _ _ _ _).1 hb).1
      refine ⟨.header, bytes, ⟨hp, hlen, by omega, hb⟩, ?_⟩
      have : rest = [] := by
        simp only [decode, decodeHeader] at hd
        split at hd
        · cases hd
          simpa using hlen
        · cases hd
      rw [← this]; exact hd
  · next hp =>
    split at h
    · next hn =>
      unfold Decoder.fetchOp at h
      split at h
      · cases h
      · split at h
        · cases h
        · next b0 hb0 =>
          split at h
          · cases h
          · next hl =>
            obtain ⟨bytes, rest, hb, hd⟩ := bytesCase _ _ _ h
            have hlen := ((Space.readN_eq_some _ _ _ _).1 hb).1
            have hrd := ((Space.readN_eq_some _ _ _ _).1 hb).2
            refine ⟨.body, bytes, ⟨(inBody_iff d).2 ⟨hp, hn⟩, by omega, by rw [hlen]; exact hb⟩, ?_⟩
            cases bytes with
            | nil => cases hd
            | cons c tl =>
              have hc : c = b0 := by
                have := hrd 0 (by simp at hlen; omega)
                simpa [hb0] using this.symm
              subst hc
              have := decodeOp_length hd
              have : rest = [] := by
                rw [hlen] at this
                exact List.length_eq_zero_iff.1 (by omega)
              rw [← this]; exact hd
    · cases h
  · next hp =>
    unfold Decoder.fetchFooter at h
    split at h
    · cases h
    · next hl =>
      obtain ⟨bytes, rest, hb, hd⟩ := bytesCase _ _ _ h
      have hlen := ((Space.readN_eq_some _ _ _ _).1 hb).1
      refine ⟨.footer, bytes, ⟨hp, hlen, by omega, hb⟩, ?_⟩
      have : rest = [] := by
        simp only [decode, decodeFooter] at hd
        split at hd
        · cases hd
          simpa using hlen
        · cases hd
      rw [← this]; exact hd
  · cases h
  · cases h

/-- The converse: presented bytes that decode to an item are fetched as that item. -/
theorem fetch_of_presents {d : Decoder} {pos : Position} {bytes : List Byte} {i : Instr} (hp : d.Presents bytes pos)
    (hd : decode pos bytes = .ok (i, [])) : d.fetch = .item i := by
  cases pos with
  | header =>
    obtain ⟨h1, h2, h3, h4⟩ := hp
    rw [fetch_header h1, Decoder.fetchHeader, if_neg (by omega), Decoder.fetchBytes, h4]
    simp [hd]
  | footer =>
    obtain ⟨h1, h2, h3, h4⟩ := hp
    rw [fetch_footer h1, Decoder.fetchFooter, if_neg (by omega), Decoder.fetchBytes, h4]
    simp [hd]
  | body =>
    obtain ⟨h1, h2, h3⟩ := hp
    cases bytes with
    | nil => cases hd
    | cons b0 tl =>
      have hlen := decodeOp_length hd
      simp only [List.length_nil, Nat.add_zero] at hlen
      have hb0 : Space.read d.sin d.spos.toNat = some b0 := by
        have := ((Space.readN_eq_some _ _ _ _).1 h3).2 0 (by simp)
        simpa using this
      rw [hlen] at h2 h3
      have : 1 ≤ (classify b0).length := by cases classify b0 <;> decide
      rw [fetch_body h1, Decoder.fetchOp, if_neg (by omega), hb0]
      simp only
      rw [if_neg (by omega), Decoder.fetchBytes, h3]
      simp [hd]

/-- A fetch raises only in a BUSY phase, and what it raises is an error. -/
theorem fetch_raise {d : Decoder} {c : Cause} (h : d.fetch = .raise c) : d.phase.busy = true ∧ c ≠ .noError := by
  have bytesCase : ∀ pos start n, d.fetchBytes pos start n = .raise c → c ≠ .noError := by
    intro pos start n hf
    unfold Decoder.fetchBytes at hf
    split at hf
    · cases hf
    · next bytes _ =>
      split at hf
      · cases hf
      · next c' hd =>
        cases hf
        cases pos with
        | header => simp only [decode, decodeHeader] at hd; split at hd <;> cases hd; decide
        | body => rw [(decodeOp_error hd).1]; decide
        | footer => simp only [decode, decodeFooter] at hd; split at hd <;> cases hd; decide
  unfold Decoder.fetch at h
  split at h
  · cases h
  · next hp =>
    refine ⟨by simp [hp, Phase.busy], ?_⟩
    unfold Decoder.fetchHeader at h
    split at h
    · cases h; decide
    · exact bytesCase _ _ _ h
  · next hp =>
    refine ⟨by simp [hp, Phase.busy], ?_⟩
    split at h
    · unfold Decoder.fetchOp at h
      split at h
      · cases h; decide
      · split at h
        · cases h
        · split at h
          · cases h; decide
          · exact bytesCase _ _ _ h
    · cases h
  · next hp =>
    refine ⟨by simp [hp, Phase.busy], ?_⟩
    unfold Decoder.fetchFooter at h
    split at h
    · cases h; decide
    · exact bytesCase _ _ _ h
  · cases h
  · cases h

/-- No item that a fetch answers is refused: the phase is the item's own. -/
theorem exec_fetched {s : State} {i : Instr} (h : s.dec.fetch = .item i) : ∃ t, exec i s = .next t := by
  obtain ⟨pos, bytes, hp, hd⟩ := fetch_item h
  cases pos with
  | header =>
    simp only [decode, decodeHeader] at hd
    split at hd
    · cases hd; exact ⟨_, commit_true s (by simpa using hp.1) _⟩
    · cases hd
  | footer =>
    simp only [decode, decodeFooter] at hd
    split at hd
    · cases hd; exact ⟨_, commit_true s (by simpa using hp.1) _⟩
    · cases hd
  | body =>
    have hb := (decodeOp_spec hd).2.1
    cases i with
    | header => cases hb
    | footer => cases hb
    | _ => exact ⟨_, commit_true s hp.1 _⟩

end Sys2Proof.Machine
end

