-- ==== Sys2Proof/Laws/Step.lean ====
section
/-! SUPPORT. What one step can do: one inversion lemma for the machine and one per kind of HOST move. -/

namespace Sys2Proof.Machine

variable {s t : State}

theorem step_of_dec (h : s.mover = .dec) : step s = decTurn s.popTurn := by simp [step, turn, h]

theorem step_of_enc (h : s.mover = .enc) : step s = .next { s.popTurn with enc := s.enc.step } := by
  simp [step, turn, h, encTurn]

theorem step_of_host (h : s.mover = .host) : step s = hostTurn s.popTurn := by simp [step, turn, h]

theorem step_of_hostMove {m : HostMove} {rest : List HostMove} (h : s.mover = .host) (hq : s.hostq = m :: rest) :
    step s = hostMove m { s.popTurn with hostq := rest } := by
  rw [step_of_host h]
  simp [hostTurn, hq]

/-- DEC's turn when the fetch answers an item. -/
theorem step_of_item {i : Instr} (h : s.mover = .dec) (hf : s.dec.fetch = .item i) : step s = exec i s.popTurn := by
  rw [step_of_dec h]; simp [decTurn, hf]

/-- DEC's turn when the fetch raises. -/
theorem step_of_raise {c : Cause} (h : s.mover = .dec) (hf : s.dec.fetch = .raise c) :
    step s = .next { s.popTurn with dec := s.dec.raise c } := by
  rw [step_of_dec h]; simp [decTurn, hf]

/-- DEC's turn when DEC has no enabled step. -/
theorem step_of_wait (h : s.mover = .dec) (hf : s.dec.fetch = .wait) : step s = .next s.popTurn := by
  rw [step_of_dec h]; simp [decTurn, hf]

/-- A run goes on from the state its first step answers. -/
theorem run_of_step (n : Nat) (h : step s = .next t) : Sys2Proof.core.run (n + 1) s = Sys2Proof.core.run n t := by
  have h' : Sys2Proof.core.step s = .next t := h
  simp only [Host.Core.run, h']

/-- The first step of a run that goes on goes on. -/
theorem step_of_run {n : Nat} (h : Sys2Proof.core.run (n + 1) s = .next t) :
    ∃ u, step s = .next u ∧ Sys2Proof.core.run n u = .next t := by
  simp only [Host.Core.run] at h
  split at h
  · next u hu => exact ⟨u, hu, h⟩
  · cases h
  · cases h

/-- A run in two parts. -/
theorem run_add {n : Nat} (k : Nat) (h : Sys2Proof.core.run n s = .next t) :
    Sys2Proof.core.run (n + k) s = Sys2Proof.core.run k t := by
  induction n generalizing s with
  | zero => cases h; rw [Nat.zero_add]
  | succ n ih =>
    obtain ⟨u, hu, hr⟩ := step_of_run h
    rw [show n + 1 + k = n + k + 1 by omega, run_of_step _ hu]
    exact ih hr

/-- Everything a step can do. -/
theorem step_cases (h : step s = .next t) :
    (s.mover = .dec ∧
      ((∃ i, s.dec.fetch = .item i ∧ exec i s.popTurn = .next t) ∨
       (∃ c, s.dec.fetch = .raise c ∧ t = { s.popTurn with dec := s.dec.raise c }) ∨
       (s.dec.fetch = .wait ∧ t = s.popTurn))) ∨
    (s.mover = .enc ∧ t = { s.popTurn with enc := s.enc.step }) ∨
    (s.mover = .host ∧
      ((s.hostq = [] ∧ t = s.popTurn) ∨
       ∃ m rest, s.hostq = m :: rest ∧ hostMove m { s.popTurn with hostq := rest } = .next t)) := by
  cases hm : s.mover with
  | dec =>
    refine Or.inl ⟨rfl, ?_⟩
    cases hf : s.dec.fetch with
    | item i => rw [step_of_item hm hf] at h; exact Or.inl ⟨i, rfl, h⟩
    | raise c => rw [step_of_raise hm hf] at h; cases h; exact Or.inr (Or.inl ⟨c, rfl, rfl⟩)
    | wait => rw [step_of_wait hm hf] at h; cases h; exact Or.inr (Or.inr ⟨rfl, rfl⟩)
  | enc =>
    rw [step_of_enc hm] at h
    cases h
    exact Or.inr (Or.inl ⟨rfl, rfl⟩)
  | host =>
    refine Or.inr (Or.inr ⟨rfl, ?_⟩)
    cases hq : s.hostq with
    | nil =>
      rw [step_of_host hm] at h
      simp only [hostTurn, State.popTurn_hostq, hq] at h
      cases h
      exact Or.inl ⟨rfl, rfl⟩
    | cons m rest =>
      rw [step_of_hostMove hm hq] at h
      exact Or.inr ⟨m, rest, rfl, h⟩

theorem writeEnc_cases {e : Encoder} (h : writeEnc s e = .next t) :
    s.enc.phase.busy = false ∧ t = { s with enc := e } := by
  unfold writeEnc at h
  split at h
  · cases h
  · next hb => cases h; exact ⟨by simpa using hb, rfl⟩

theorem writeDec_cases {d : Decoder} (h : writeDec s d = .next t) :
    s.dec.phase.busy = false ∧ t = { s with dec := d } := by
  unfold writeDec at h
  split at h
  · cases h
  · next hb => cases h; exact ⟨by simpa using hb, rfl⟩

theorem writeEncCtrl_cases {v : Byte} (h : writeEncCtrl v s = .next t) :
    s.enc.phase.busy = false ∧
      ((v.getLsbD 0 = true ∧ t = { s with enc := s.enc.start }) ∨ (v.getLsbD 0 = false ∧ t = s)) := by
  unfold writeEncCtrl at h
  split at h
  · cases h
  · next hb =>
    refine ⟨by simpa using hb, ?_⟩
    split at h
    · next hv => cases h; exact Or.inl ⟨hv, rfl⟩
    · next hv => cases h; exact Or.inr ⟨by simpa using hv, rfl⟩

theorem writeDecCtrl_cases {v : Byte} (h : writeDecCtrl v s = .next t) :
    s.dec.phase.busy = false ∧
      ((v.getLsbD 0 = true ∧ t = { s with dec := s.dec.start s.freeIx, freeIx := s.freeIx + 1 }) ∨
       (v.getLsbD 0 = false ∧ t = s)) := by
  unfold writeDecCtrl at h
  split at h
  · cases h
  · next hb =>
    refine ⟨by simpa using hb, ?_⟩
    split at h
    · next hv => cases h; exact Or.inl ⟨hv, rfl⟩
    · next hv => cases h; exact Or.inr ⟨by simpa using hv, rfl⟩

/-- A write to ENC by HOST: a configuration register, or PIXIN as a whole. -/
def EncWrite (e e' : Encoder) : Prop :=
  (∃ w ht c cs, e' = { e with width := w, height := ht, channels := c, colorspace := cs }) ∨
  (∃ pixels : List Pixel, e' = { e with pixin := Space.ofList pixels })

/-- A write to DEC by HOST: D_SLEN, or SIN as a whole. -/
def DecWrite (d d' : Decoder) : Prop :=
  (∃ n, d' = { d with slen := n }) ∨ (∃ bytes : List Byte, d' = { d with sin := Space.ofList bytes })

/-- What a HOST move can do to ENC: nothing; a write while ENC is not BUSY; START while it is not BUSY; hardware reset. -/
theorem hostMove_enc {m : HostMove} (h : hostMove m s = .next t) :
    t.enc = s.enc ∨
    (s.enc.phase.busy = false ∧ EncWrite s.enc t.enc) ∨
    (s.enc.phase.busy = false ∧ t.enc = s.enc.start ∧ ∃ v : Byte, v.getLsbD 0 = true ∧ m = .writeECtrl v) ∨
    (t.enc = s.enc.hardwareReset s.freeIx ∧ m = .resetEnc) := by
  cases m with
  | writeEWidth v => obtain ⟨hb, rfl⟩ := writeEnc_cases h; exact Or.inr (Or.inl ⟨hb, Or.inl ⟨_, _, _, _, rfl⟩⟩)
  | writeEHeight v => obtain ⟨hb, rfl⟩ := writeEnc_cases h; exact Or.inr (Or.inl ⟨hb, Or.inl ⟨_, _, _, _, rfl⟩⟩)
  | writeEChannels v => obtain ⟨hb, rfl⟩ := writeEnc_cases h; exact Or.inr (Or.inl ⟨hb, Or.inl ⟨_, _, _, _, rfl⟩⟩)
  | writeEColorspace v =>
    obtain ⟨hb, rfl⟩ := writeEnc_cases h
    exact Or.inr (Or.inl ⟨hb, Or.inl ⟨_, _, _, _, rfl⟩⟩)
  | writeDSlen v => obtain ⟨-, rfl⟩ := writeDec_cases h; exact Or.inl rfl
  | writeECtrl v =>
    obtain ⟨hb, ⟨hv, rfl⟩ | ⟨-, rfl⟩⟩ := writeEncCtrl_cases h
    · exact Or.inr (Or.inr (Or.inl ⟨hb, rfl, v, hv, rfl⟩))
    · exact Or.inl rfl
  | writeDCtrl v => obtain ⟨-, ⟨-, rfl⟩ | ⟨-, rfl⟩⟩ := writeDecCtrl_cases h <;> exact Or.inl rfl
  | supplyPixin words => obtain ⟨hb, rfl⟩ := writeEnc_cases h; exact Or.inr (Or.inl ⟨hb, Or.inr ⟨_, rfl⟩⟩)
  | supplySin bytes => obtain ⟨-, rfl⟩ := writeDec_cases h; exact Or.inl rfl
  | readEnc r => cases h; exact Or.inl rfl
  | readDec r => cases h; exact Or.inl rfl
  | resetEnc => cases h; exact Or.inr (Or.inr (Or.inr ⟨rfl, rfl⟩))
  | resetDec => cases h; exact Or.inl rfl
  | pass => cases h; exact Or.inl rfl

/-- What a HOST move can do to DEC: nothing; a write while DEC is not BUSY; START while it is not BUSY; hardware reset. -/
theorem hostMove_dec {m : HostMove} (h : hostMove m s = .next t) :
    t.dec = s.dec ∨
    (s.dec.phase.busy = false ∧ DecWrite s.dec t.dec) ∨
    (s.dec.phase.busy = false ∧ t.dec = s.dec.start s.freeIx ∧
      ∃ v : Byte, v.getLsbD 0 = true ∧ m = .writeDCtrl v) ∨
    (t.dec = s.dec.hardwareReset s.freeIx ∧ m = .resetDec) := by
  cases m with
  | writeEWidth v => obtain ⟨-, rfl⟩ := writeEnc_cases h; exact Or.inl rfl
  | writeEHeight v => obtain ⟨-, rfl⟩ := writeEnc_cases h; exact Or.inl rfl
  | writeEChannels v => obtain ⟨-, rfl⟩ := writeEnc_cases h; exact Or.inl rfl
  | writeEColorspace v => obtain ⟨-, rfl⟩ := writeEnc_cases h; exact Or.inl rfl
  | writeDSlen v => obtain ⟨hb, rfl⟩ := writeDec_cases h; exact Or.inr (Or.inl ⟨hb, Or.inl ⟨_, rfl⟩⟩)
  | writeECtrl v => obtain ⟨-, ⟨-, rfl⟩ | ⟨-, rfl⟩⟩ := writeEncCtrl_cases h <;> exact Or.inl rfl
  | writeDCtrl v =>
    obtain ⟨hb, ⟨hv, rfl⟩ | ⟨-, rfl⟩⟩ := writeDecCtrl_cases h
    · exact Or.inr (Or.inr (Or.inl ⟨hb, rfl, v, hv, rfl⟩))
    · exact Or.inl rfl
  | supplyPixin words => obtain ⟨-, rfl⟩ := writeEnc_cases h; exact Or.inl rfl
  | supplySin bytes => obtain ⟨hb, rfl⟩ := writeDec_cases h; exact Or.inr (Or.inl ⟨hb, Or.inr ⟨_, rfl⟩⟩)
  | readEnc r => cases h; exact Or.inl rfl
  | readDec r => cases h; exact Or.inl rfl
  | resetEnc => cases h; exact Or.inl rfl
  | resetDec => cases h; exact Or.inr (Or.inr (Or.inr ⟨rfl, rfl⟩))
  | pass => cases h; exact Or.inl rfl

/-- Executing an item changes nothing outside DEC. -/
theorem exec_outside {i : Instr} (h : exec i s = .next t) : SameOutsideDec s t := by
  have key : ∀ pre d, commit s pre d = .next t → SameOutsideDec s t := by
    intro pre d hc
    obtain ⟨-, rfl⟩ := commit_eq_next.1 hc
    exact sameOutsideDec_with s d
  cases i <;> exact key _ _ h

/-- A step of an agent other than ENC that is not a HOST move leaves ENC alone, and so for DEC. -/
theorem step_enc_of_dec (hm : s.mover = .dec) (h : step s = .next t) : t.enc = s.enc := by
  rcases step_cases h with ⟨-, hd⟩ | ⟨he, -⟩ | ⟨hh, -⟩
  · rcases hd with ⟨i, -, hx⟩ | ⟨c, -, rfl⟩ | ⟨-, rfl⟩
    · exact (exec_outside hx).enc
    · rfl
    · rfl
  · rw [hm] at he; cases he
  · rw [hm] at hh; cases hh

end Sys2Proof.Machine
end

