-- ==== Sys2Proof/Laws/Encoder.lean ====
section
/-! SUPPORT. What each step of ENC does, said once: the flush, the run branch, the cache hit and the cache miss, the end
of the image. -/

namespace Sys2Proof.Machine

variable {e : Encoder} {px : Pixel}

/-- Packing a run of 1 to 62 pixels gives the byte 0xC0 + (count - 1) (R65, R93). -/
theorem encode_run {n : Nat} (h1 : 1 ≤ n) (h2 : n ≤ 62) :
    encode (.run (BitVec.ofNat 8 n)) = .ok [BitVec.ofNat 8 (0xC0 + (n - 1))] := by
  have h : n < 63 := by omega
  revert h1 h2
  revert n
  decide +kernel

/-- The flush of a pending run emits its RUN byte and clears the count; it emits nothing when none is pending. -/
theorem flushRun_ok (h : e.runCnt.toNat ≤ 61) :
    e.flushRun = .ok { e with sout := e.sout ++ e.pendingBytes, runCnt := 0 } := by
  unfold Encoder.flushRun Encoder.pendingBytes
  by_cases h0 : e.runCnt = 0
  · have hn : e.runCnt.toNat = 0 := by rw [h0]; rfl
    rw [if_pos h0, if_pos hn, List.append_nil, ← h0]
  · have hn : e.runCnt.toNat ≠ 0 := fun hz => h0 (BitVec.eq_of_toNat_eq (by simpa using hz))
    have hs : e.runCnt.setWidth 8 = BitVec.ofNat 8 e.runCnt.toNat := by
      apply BitVec.eq_of_toNat_eq
      simp
    rw [if_neg h0, if_neg hn]
    simp only [Encoder.emitItem, hs, encode_run (by omega) (by omega : e.runCnt.toNat ≤ 62), Encoder.emit]

/-- INDEX of a slot packs to the slot number (R62, R90). -/
theorem encode_index (i : Slot) : encode (.index i) = .ok [i.setWidth 8] := by
  have h := (index_byte i).1
  simp only [encode, packIndex]
  rw [if_neg (by omega)]

/-- The literal op always packs (R103). -/
theorem encode_literal (px prev : Pixel) : ∃ bytes, encode (literalItem px prev) = .ok bytes :=
  encode_ok (literalItem_wellFormed px prev)

/-- The run branch below 62: the count goes up by one and nothing is emitted (R123). -/
theorem runPixel_count (h : e.runCnt.toNat < 61) :
    e.runPixel px = .ok { e with runCnt := e.runCnt + 1, prev := px, ppos := e.ppos + 1 } := by
  unfold Encoder.runPixel
  rw [if_neg (show ¬ e.runCnt.toNat + 1 = 62 by omega)]
  rfl

/-- The run branch at 62: the byte 0xFD is emitted and the count restarts (R123). -/
theorem runPixel_full (h : e.runCnt.toNat = 61) :
    e.runPixel px =
      .ok { e with sout := e.sout ++ [0xFD], runCnt := 0, prev := px, ppos := e.ppos + 1 } := by
  unfold Encoder.runPixel
  rw [if_pos (show e.runCnt.toNat + 1 = 62 by omega)]
  rfl

/-- The non-run branch on a cache hit (R124, R125). -/
theorem otherPixel_hit (hr : e.runCnt.toNat ≤ 61) (hh : lookup e.cache (hash px) = px) :
    e.otherPixel px =
      .ok { e with
        sout := e.sout ++ (e.pendingBytes ++ [(hash px).setWidth 8]), runCnt := 0, prev := px, ppos := e.ppos + 1 } := by
  unfold Encoder.otherPixel
  rw [flushRun_ok hr]
  simp only [(hit_iff e.cache px).2 hh, if_true, Encoder.emitItem, encode_index, Encoder.emit, Encoder.consume,
    List.append_assoc]

/-- The non-run branch on a cache miss (R124, R126). -/
theorem otherPixel_miss (hr : e.runCnt.toNat ≤ 61) (hh : lookup e.cache (hash px) ≠ px) {bytes : List Byte}
    (hb : encode (literalItem px e.prev) = .ok bytes) :
    e.otherPixel px =
      .ok { e with
        sout := e.sout ++ (e.pendingBytes ++ bytes), runCnt := 0, cache := store e.cache px, prev := px,
        ppos := e.ppos + 1 } := by
  have hm : hit e.cache px = false := by
    cases h : hit e.cache px
    · rfl
    · exact absurd ((hit_iff e.cache px).1 h) hh
  unfold Encoder.otherPixel
  rw [flushRun_ok hr]
  simp only [hm, Encoder.missPixel, Encoder.emitItem, hb, Encoder.emit, Encoder.consume, List.append_assoc]
  rfl

/-- The step of ENC at a pixel is its pixel step (R123, R124). -/
theorem move_atPixel (h : e.AtPixel px) : e.move = e.pixelStep px := by
  unfold Encoder.move
  simp [h.phase, h.more, h.supplied]

/-- A step that succeeds is taken. -/
theorem step_of_move {e e' : Encoder} (h : e.move = .ok e') : e.step = e' := by simp [Encoder.step, h]

/-- The step of ENC at the end of the image (R127). -/
theorem move_end (hp : e.phase = .body) (he : e.ppos = e.npix) (hr : e.runCnt.toNat ≤ 61) :
    e.move = .ok { e with sout := e.sout ++ e.pendingBytes, runCnt := 0, phase := .footer } := by
  unfold Encoder.move
  simp only [hp, he, lt_irrefl, if_false, if_true, Encoder.endStep, flushRun_ok hr]

/-- What a pixel step leaves, in the four branches. -/
theorem pixelStep_cases (h : e.AtPixel px) :
    (px = e.prev ∧ e.runCnt.toNat < 61 ∧
      e.step = { e with runCnt := e.runCnt + 1, prev := px, ppos := e.ppos + 1 }) ∨
    (px = e.prev ∧ e.runCnt.toNat = 61 ∧
      e.step = { e with sout := e.sout ++ [0xFD], runCnt := 0, prev := px, ppos := e.ppos + 1 }) ∨
    (px ≠ e.prev ∧ lookup e.cache (hash px) = px ∧
      e.step = { e with
        sout := e.sout ++ (e.pendingBytes ++ [(hash px).setWidth 8]), runCnt := 0, prev := px,
        ppos := e.ppos + 1 }) ∨
    (px ≠ e.prev ∧ lookup e.cache (hash px) ≠ px ∧ ∃ bytes, encode (literalItem px e.prev) = .ok bytes ∧
      e.step = { e with
        sout := e.sout ++ (e.pendingBytes ++ bytes), runCnt := 0, cache := store e.cache px, prev := px,
        ppos := e.ppos + 1 }) := by
  have hm := move_atPixel h
  unfold Encoder.pixelStep at hm
  by_cases hp : px = e.prev
  · rw [if_pos hp] at hm
    by_cases hr : e.runCnt.toNat = 61
    · exact Or.inr (Or.inl ⟨hp, hr, step_of_move (hm.trans (runPixel_full hr))⟩)
    · have hlt : e.runCnt.toNat < 61 := by have := h.run; omega
      exact Or.inl ⟨hp, hlt, step_of_move (hm.trans (runPixel_count hlt))⟩
  · rw [if_neg hp] at hm
    by_cases hh : lookup e.cache (hash px) = px
    · exact Or.inr (Or.inr (Or.inl ⟨hp, hh, step_of_move (hm.trans (otherPixel_hit h.run hh))⟩))
    · obtain ⟨bytes, hb⟩ := encode_literal px e.prev
      exact Or.inr (Or.inr (Or.inr ⟨hp, hh, bytes, hb, step_of_move (hm.trans (otherPixel_miss h.run hh hb))⟩))

/-- PPOS advances without wrapping. -/
theorem ppos_succ (h : e.ppos.toNat < e.npix.toNat) : (e.ppos + 1).toNat = e.ppos.toNat + 1 :=
  count_add_toNat (k := 1) h

end Sys2Proof.Machine
end

