-- ==== Sys2Proof/Laws/Op.lean ====
section
/-! SUPPORT. What executing an op does, said once for the six of them through `opEffect` (44_decoder.md R142 to R148). -/

namespace Sys2Proof.Machine

/-- The bytes of an op are as many as its first byte says (R60). -/
theorem encode_len {i : Instr} {own : List Byte} (hp : i.position = .body) (he : encode i = .ok own) :
    1 ≤ own.length ∧ own.length ≤ 5 := by
  cases i <;> simp only [Instr.position, encode, packIndex, packRun, packDiff, packLuma, reduceCtorEq] at hp he <;>
    (try split at he) <;> cases he <;> simp [packRgba, packRgb]

/-- DEC after an op step that raises nothing (R142). -/
def afterOp (d : Decoder) (px : Pixel) (cnt len : Nat) (cache : Cache) : Decoder :=
  { d with cache := cache, pixout := Space.fill d.pixout d.opos.toNat px cnt, prev := px, spos := d.spos + BitVec.ofNat 64 len,
           opos := d.opos + BitVec.ofNat 64 cnt, phase := if d.opos + BitVec.ofNat 64 cnt = d.npix then .footer else d.phase }

/-- In BODY, an op whose bytes exist answers its effect on PREV, the cache and the output, or RUN_OVERRUN (R142). -/
theorem exec_op {i : Instr} {own : List Byte} (hp : i.position = .body) (he : encode i = .ok own) (s : State) (d : Decoder) (hs : s.dec = d)
    (hb : d.inBody = true) :
    exec i s = .next { s with dec := (
      if d.npix.toNat < d.opos.toNat + (opEffect i ⟨d.prev, d.cache⟩).2.1 then d.raise .runOverrun
      else afterOp d (opEffect i ⟨d.prev, d.cache⟩).1 (opEffect i ⟨d.prev, d.cache⟩).2.1 own.length (opEffect i ⟨d.prev, d.cache⟩).2.2) } := by
  subst hs
  have h1 : ¬ s.dec.npix.toNat < s.dec.opos.toNat + 1 := by have := ((inBody_iff _).1 hb).2; omega
  cases i with
  | header => cases hp
  | footer => cases hp
  | rgba r g b a => cases he; rw [if_neg (show ¬ s.dec.npix.toNat < s.dec.opos.toNat + (opEffect (.rgba r g b a) ⟨s.dec.prev, s.dec.cache⟩).2.1 from h1)]; exact commit_true s hb _
  | rgb r g b => cases he; rw [if_neg (show ¬ s.dec.npix.toNat < s.dec.opos.toNat + (opEffect (.rgb r g b) ⟨s.dec.prev, s.dec.cache⟩).2.1 from h1)]; exact commit_true s hb _
  | run c =>
    have : own.length = 1 := by simp only [encode, packRun] at he; split at he <;> cases he; rfl
    rw [this]; exact commit_true s hb _
  | index c =>
    have : own.length = 1 := by simp only [encode, packIndex] at he; split at he <;> cases he; rfl
    rw [this, if_neg (show ¬ s.dec.npix.toNat < s.dec.opos.toNat + (opEffect (.index c) ⟨s.dec.prev, s.dec.cache⟩).2.1 from h1)]; exact commit_true s hb _
  | diff x y z =>
    have : own.length = 1 := by simp only [encode, packDiff] at he; split at he <;> cases he; rfl
    rw [this, if_neg (show ¬ s.dec.npix.toNat < s.dec.opos.toNat + (opEffect (.diff x y z) ⟨s.dec.prev, s.dec.cache⟩).2.1 from h1)]; exact commit_true s hb _
  | luma x y z =>
    have : own.length = 2 := by simp only [encode, packLuma] at he; split at he <;> cases he; rfl
    rw [this, if_neg (show ¬ s.dec.npix.toNat < s.dec.opos.toNat + (opEffect (.luma x y z) ⟨s.dec.prev, s.dec.cache⟩).2.1 from h1)]; exact commit_true s hb _

/-- A well-formed op yields at least one pixel (R149). -/
theorem effect_pos {i : Instr} {m : Mirror} (hw : i.wellFormed = true) (hp : i.position = .body) : 1 ≤ (opEffect i m).2.1 := by
  cases i <;> simp_all [opEffect, Instr.position, Instr.wellFormed]

/-- The two ways an op step of DEC ends: the op's effect, or RUN_OVERRUN (R142, R145). -/
theorem exec_op_cases {i : Instr} {own : List Byte} {s t : State} (hp : i.position = .body) (he : encode i = .ok own)
    (hx : exec i s = .next t) :
    s.dec.inBody = true ∧ t = { s with dec := (
      if s.dec.npix.toNat < s.dec.opos.toNat + (opEffect i ⟨s.dec.prev, s.dec.cache⟩).2.1 then s.dec.raise .runOverrun
      else afterOp s.dec (opEffect i ⟨s.dec.prev, s.dec.cache⟩).1 (opEffect i ⟨s.dec.prev, s.dec.cache⟩).2.1 own.length (opEffect i ⟨s.dec.prev, s.dec.cache⟩).2.2) } := by
  have hb : s.dec.inBody = true := by
    cases i <;> first | cases hp; done | exact (commit_eq_next.1 hx).1
  refine ⟨hb, ?_⟩
  rw [exec_op hp he s s.dec rfl hb] at hx
  cases hx; rfl

/-- No op breaks the cache invariant: a slot holds the zero pixel or a pixel that hashes to it (R87). -/
theorem effect_cacheInv {i : Instr} {m : Mirror} (h : CacheInv m.cache) : CacheInv (opEffect i m).2.2 := by
  cases i <;> first | exact h | exact cacheInv_store h _

end Sys2Proof.Machine
end

