-- ==== Sys2Proof/Laws/Invariant.lean ====
section
/-! SUPPORT. Each update keeps its engine's invariant (43_encoder.md R121, 44_decoder.md R149). -/

namespace Sys2Proof.Machine

/-- An empty space is filled up to index 0. -/
theorem filledTo_nil : FilledTo [] 0 := by intro i; simp [Space.read]

/-- Raising an error keeps DEC's invariant. -/
theorem raise_inv {d : Decoder} (h : d.Inv) {c : Cause} (hc : c ≠ .noError) : (d.raise c).Inv where
  sinWf := h.sinWf
  pixoutWf := rfl
  idle := fun h => (by cases h)
  header := fun h => (by cases h)
  body := fun h => (by cases h)
  footer := fun h => (by cases h)
  done := fun h => (by cases h)
  error := fun _ => ⟨hc, rfl⟩

/-- Raising an error keeps ENC's invariant. -/
theorem encRaise_inv {d : Encoder} (h : d.Inv) {c : Cause} (hc : c ≠ .noError) : (d.raise c).Inv where
  pixinWf := h.pixinWf
  idle := fun h => (by cases h)
  header := fun h => (by cases h)
  body := fun h => (by cases h)
  footer := fun h => (by cases h)
  done := fun h => (by cases h)
  error := fun _ => ⟨hc, rfl⟩

/-- The end of an op step keeps DEC's invariant (R142, R149). -/
theorem afterOp_inv {d : Decoder} {px : Pixel} {cnt len : Nat} {cache : Cache} (h : d.Inv) (hb : d.inBody = true)
    (hc : CacheInv cache) (h1 : 1 ≤ cnt) (hle : d.opos.toNat + cnt ≤ d.npix.toNat) (hs : d.spos.toNat + len ≤ d.slen.toNat) :
    (afterOp d px cnt len cache).Inv := by
  obtain ⟨hph, hlt⟩ := (inBody_iff d).1 hb
  obtain ⟨hR, -⟩ := h.body hph
  have hop : (afterOp d px cnt len cache).opos.toNat = d.opos.toNat + cnt := count_add_toNat (n := d.npix) hle
  have hsp : (afterOp d px cnt len cache).spos.toNat = d.spos.toNat + len := count_add_toNat (n := d.slen) hs
  have hphase : (afterOp d px cnt len cache).phase = if (afterOp d px cnt len cache).opos = d.npix then .footer else .body := by
    show (if _ then _ else d.phase) = _; rw [hph]; rfl
  have hrd : ∀ j, Space.read (afterOp d px cnt len cache).pixout j = if d.opos.toNat ≤ j ∧ j < d.opos.toNat + cnt then some px else Space.read d.pixout j :=
    fun j => Space.read_fill _ _ _ _ _
  have hrun : (afterOp d px cnt len cache).Running := by
    refine ⟨hR.npix, hR.nonempty, hR.legal, hR.err, ?_, ?_, ?_, ?_, hc⟩
    · rw [hsp]; have := hR.posLow; omega
    · rw [hsp]; exact hs
    · intro j
      rw [hrd j, hop]
      have := hR.filled j
      split
      · next hj => simp; omega
      · next hj => rw [this]; omega
    · unfold PrevIsLast
      rw [hop, if_neg (by omega), hrd, if_pos (by omega)]
      rfl
  refine ⟨h.sinWf, Space.wf_fill h.pixoutWf _ _ _, ?_, ?_, ?_, ?_, ?_, ?_⟩ <;> intro hp <;> rw [hphase] at hp
  · split at hp <;> cases hp
  · split at hp <;> cases hp
  · split at hp
    · cases hp
    · next hne =>
      refine ⟨hrun, ?_⟩
      have : (afterOp d px cnt len cache).opos.toNat ≠ d.npix.toNat := fun hh => hne (BitVec.eq_of_toNat_eq hh)
      rw [hop] at this ⊢
      show _ < d.npix.toNat
      omega
  · split at hp
    · next he => exact ⟨hrun, he⟩
    · cases hp
  · split at hp <;> cases hp
  · split at hp <;> cases hp

/-- Executing a fetched item keeps DEC's invariant. -/
theorem dec_fetch_inv {s t : State} {i : Instr} (h : s.dec.Inv) (hf : s.dec.fetch = .item i) (hx : exec i s = .next t) : t.dec.Inv := by
  obtain ⟨pos, bytes, hp, hd⟩ := fetch_item hf
  cases pos with
  | header =>
    simp only [decode, decodeHeader] at hd
    split at hd
    · cases hd
      obtain ⟨hph, ⟨c, hc, rfl⟩ | ⟨hl, hz, rfl⟩⟩ := execHeader_cases hx
      · exact raise_inv h hc
      · obtain ⟨h1, h2, h3, h4, h5, h6⟩ := h.header hph
        have hn := size_toNat
        refine ⟨h.sinWf, h.pixoutWf, fun h => (by cases h), fun h => (by cases h), fun _ => ⟨⟨hn _ _, ?_, hl, h1, ?_, hp.2.2.1, ?_, ?_, ?_⟩, ?_⟩,
          fun h => (by cases h), fun h => (by cases h), fun h => (by cases h)⟩
        · simp only [hn]; omega
        · show 14 ≤ (14 : Count).toNat; decide
        · simp only [h2, h4]; exact filledTo_nil
        · simp only [PrevIsLast, h4, h5]; simp
        · simp only [h6]; exact cacheInv_zero
        · simp only [h4, hn]; show 0 < _; omega
    · cases hd
  | footer =>
    simp only [decode, decodeFooter] at hd
    split at hd
    · cases hd
      obtain ⟨hph, ⟨c, hc, rfl⟩ | ⟨hl, hz, rfl⟩⟩ := execFooter_cases hx
      · exact raise_inv h hc
      · obtain ⟨hR, ho⟩ := h.footer hph
        refine ⟨h.sinWf, h.pixoutWf, fun h => (by cases h), fun h => (by cases h), fun h => (by cases h), fun h => (by cases h), fun _ => ⟨hR.err, ho, ?_⟩, fun h => (by cases h)⟩
        have := hR.filled
        rw [ho] at this
        exact this
    · cases hd
  | body =>
    obtain ⟨hb, hle, hrd⟩ := hp
    obtain ⟨hwf, hpos, own, hown, hbytes⟩ := decodeOp_spec hd
    obtain ⟨-, rfl⟩ := exec_op_cases hpos hown hx
    rw [List.append_nil] at hbytes
    subst hbytes
    simp only
    split
    · exact raise_inv h (by decide)
    · next hov =>
      have hR := (h.body ((inBody_iff _).1 hb).1).1
      exact afterOp_inv h hb (effect_cacheInv hR.cache) (effect_pos hwf hpos) (by omega) hle

/-- DEC START establishes DEC's invariant (R140). -/
theorem decStart_inv {d : Decoder} (h : d.Inv) (draw : Nat) : (d.start draw).Inv :=
  ⟨h.sinWf, rfl, fun h => (by cases h), fun _ => ⟨rfl, rfl, rfl, rfl, rfl, rfl⟩, fun h => (by cases h), fun h => (by cases h), fun h => (by cases h), fun h => (by cases h)⟩

/-- Hardware reset keeps DEC's invariant, whatever the free values are (R190). -/
theorem decReset_inv {d : Decoder} (h : d.Inv) (draw : Nat) : (d.hardwareReset draw).Inv :=
  ⟨h.sinWf, rfl, fun _ => ⟨rfl, rfl⟩, fun h => (by cases h), fun h => (by cases h), fun h => (by cases h), fun h => (by cases h), fun h => (by cases h)⟩

/-- Hardware reset keeps ENC's invariant, whatever the free values are (R190). -/
theorem encReset_inv {d : Encoder} (h : d.Inv) (draw : Nat) : (d.hardwareReset draw).Inv :=
  ⟨h.pixinWf, fun _ => ⟨rfl, rfl⟩, fun h => (by cases h), fun h => (by cases h), fun h => (by cases h), fun h => (by cases h), fun h => (by cases h)⟩

/-- A HOST write while DEC is not BUSY keeps DEC's invariant (R196). -/
theorem decWrite_inv {d d' : Decoder} (h : d.Inv) (hb : d.phase.busy = false) (hw : DecWrite d d') : d'.Inv := by
  rcases hw with ⟨n, rfl⟩ | ⟨bs, rfl⟩
  · refine ⟨h.sinWf, h.pixoutWf, h.idle, h.header, ?_, ?_, h.done, h.error⟩ <;> intro hp <;> (have hp' : d.phase = _ := hp) <;> rw [hp'] at hb <;> cases hb
  · refine ⟨Memory.wf_ofList bs, h.pixoutWf, h.idle, h.header, ?_, ?_, h.done, h.error⟩ <;> intro hp <;> (have hp' : d.phase = _ := hp) <;> rw [hp'] at hb <;> cases hb

/-- A HOST write while ENC is not BUSY keeps ENC's invariant (R196). -/
theorem encWrite_inv {d d' : Encoder} (h : d.Inv) (hb : d.phase.busy = false) (hw : EncWrite d d') : d'.Inv := by
  rcases hw with ⟨w, ht, c, cs, rfl⟩ | ⟨bs, rfl⟩
  · refine ⟨h.pixinWf, h.idle, ?_, ?_, ?_, h.done, h.error⟩ <;> intro hp <;> (have hp' : d.phase = _ := hp) <;> rw [hp'] at hb <;> cases hb
  · refine ⟨Space.wf_ofList bs, h.idle, ?_, ?_, ?_, h.done, h.error⟩ <;> intro hp <;> (have hp' : d.phase = _ := hp) <;> rw [hp'] at hb <;> cases hb

/-- ENC START either raises an error and writes nothing else, or is accepted with the per-call values (R120, R171). -/
theorem encStart_cases (e : Encoder) :
    (∃ c, c ≠ .noError ∧ e.start = e.raise c) ∨
    (legalMetadata e.metadata = true ∧ e.width.toNat * e.height.toNat ≠ 0 ∧ e.start = { e with
      npix := e.width.setWidth 64 * e.height.setWidth 64, prev := Config.startPixel, cache := Cache.zero, runCnt := 0, ppos := 0, err := .noError,
      sout := [], phase := .header }) := by
  unfold Encoder.start
  simp only
  split
  · next hl =>
    split
    · exact Or.inl ⟨.zeroSize, by decide, rfl⟩
    · next hz => exact Or.inr ⟨hl, fun h0 => hz ((size_eq_zero _ _).2 h0), rfl⟩
  · exact Or.inl ⟨.badMeta, by decide, rfl⟩

/-- ENC START keeps ENC's invariant (R120). -/
theorem encStart_inv {e : Encoder} (h : e.Inv) : e.start.Inv := by
  rcases encStart_cases e with ⟨c, hc, he⟩ | ⟨hl, hz, he⟩ <;> rw [he]
  · exact encRaise_inv h hc
  · refine ⟨h.pixinWf, fun h => (by cases h), fun _ => ⟨⟨size_toNat _ _, ?_, hl, rfl, ?_, ?_, ?_, ?_, rfl, cacheInv_zero⟩, rfl, rfl, rfl, rfl, rfl⟩, fun h => (by cases h), fun h => (by cases h), fun h => (by cases h), fun h => (by cases h)⟩
    · rw [size_toNat]; omega
    · exact Nat.zero_le _
    · exact Nat.zero_le _
    · exact Nat.zero_le _
    · intro i _ hi; simp at hi

/-- A pixel step keeps what holds of a running encode (R121). -/
theorem pixel_running {e e' : Encoder} {px : Pixel} (h : e.Running) (hat : e.AtPixel px) (hc : SameEncConfig e e') (hp : e'.prev = px)
    (hpp : e'.ppos = e.ppos + 1) (hca : CacheInv e'.cache)
    (hr : e'.runCnt = 0 ∨ (px = e.prev ∧ e'.runCnt.toNat = e.runCnt.toNat + 1 ∧ e.runCnt.toNat < 61)) : e'.Running := by
  have hpn : e'.ppos.toNat = e.ppos.toNat + 1 := by rw [hpp]; exact ppos_succ hat.more
  have hmore := hat.more
  refine ⟨by rw [hc.npix, hc.width, hc.height]; exact h.npix, by rw [hc.npix]; exact h.nonempty, ?_, by rw [hc.err]; exact h.err, by rw [hpn, hc.npix]; omega, ?_, ?_, ?_, ?_, hca⟩
  · have := h.legal; simpa [Encoder.metadata, hc.width, hc.height, hc.channels, hc.colorspace] using this
  · rcases hr with h0 | ⟨-, h1, h2⟩
    · rw [h0]; decide
    · omega
  · rcases hr with h0 | ⟨-, h1, h2⟩
    · rw [h0]; exact Nat.zero_le _
    · have := h.runLe; omega
  · intro i h1 h2
    rw [hc.pixin, hp]
    rcases hr with h0 | ⟨h3, h4, h5⟩
    · rw [h0, hpn] at h1; simp at h1; omega
    · by_cases hi : i = e.ppos.toNat
      · rw [hi]; exact hat.supplied
      · rw [h3]; exact h.pending i (by omega) (by omega)
  · unfold PrevIsLast
    rw [hpn, if_neg (by omega), hc.pixin, hp, Nat.add_sub_cancel]
    exact hat.supplied

/-- Every step of ENC keeps ENC's invariant (R121 to R129). -/
theorem encStep_inv {e : Encoder} (h : e.Inv) : e.step.Inv := by
  cases hph : e.phase with
  | idle => rw [step_of_move (e' := e) (by simp [Encoder.move, hph])]; exact h
  | done => rw [step_of_move (e' := e) (by simp [Encoder.move, hph])]; exact h
  | error => rw [step_of_move (e' := e) (by simp [Encoder.move, hph])]; exact h
  | header =>
    rw [step_of_move (e' := e.headerStep) (by simp [Encoder.move, hph])]
    obtain ⟨hR, hso, -⟩ := h.header hph
    refine ⟨h.pixinWf, fun h => (by cases h), fun h => (by cases h), fun _ => ⟨⟨hR.npix, hR.nonempty, hR.legal, hR.err, hR.pos, hR.runLt, hR.runLe, hR.pending, hR.prev, hR.cache⟩, ?_⟩, fun h => (by cases h), fun h => (by cases h), fun h => (by cases h)⟩
    simp only [Encoder.headerStep_sout, hso, List.nil_append]
    exact List.prefix_rfl
  | footer =>
    rw [step_of_move (e' := e.footerStep) (by simp [Encoder.move, hph])]
    obtain ⟨hR, -⟩ := h.footer hph
    exact ⟨h.pixinWf, fun h => (by cases h), fun h => (by cases h), fun h => (by cases h), fun h => (by cases h), fun _ => ⟨hR.err, _, rfl⟩, fun h => (by cases h)⟩
  | body =>
    obtain ⟨hR, hpre⟩ := h.body hph
    by_cases hlt : e.ppos.toNat < e.npix.toNat
    · cases hrd : Space.read e.pixin e.ppos.toNat with
      | none => rw [step_of_move (e' := e) (by simp [Encoder.move, hph, hlt, hrd])]; exact h
      | some px =>
        have hat : e.AtPixel px := ⟨hph, hlt, hrd, hR.runLt⟩
        have fin : ∀ e' : Encoder, e'.Running → e'.phase = .body → e'.pixin = e.pixin → (∃ b, e'.sout = e.sout ++ b) → e'.metadata = e.metadata → e'.Inv := by
          intro e' hR' hp' hpi ⟨b, hb⟩ hmd
          refine ⟨by rw [hpi]; exact h.pixinWf, ?_, ?_, ?_, ?_, ?_, ?_⟩ <;> intro hq <;> rw [hp'] at hq <;> cases hq
          refine ⟨hR', ?_⟩
          rw [hb, hmd]
          exact hpre.trans (List.prefix_append _ _)
        rcases pixelStep_cases hat with ⟨h1, h2, h3⟩ | ⟨h1, h2, h3⟩ | ⟨h1, h2, h3⟩ | ⟨h1, h2, bytes, h4, h3⟩ <;> rw [h3]
        · refine fin _ (pixel_running hR hat ⟨rfl, rfl, rfl, rfl, rfl, rfl, rfl⟩ rfl rfl hR.cache (Or.inr ⟨h1, ?_, h2⟩)) hph rfl ⟨[], by simp⟩ rfl
          show (e.runCnt + 1).toNat = _
          rw [BitVec.toNat_add]; show (e.runCnt.toNat + 1) % 64 = e.runCnt.toNat + 1; omega
        · exact fin _ (pixel_running hR hat ⟨rfl, rfl, rfl, rfl, rfl, rfl, rfl⟩ rfl rfl hR.cache (Or.inl rfl)) hph rfl ⟨_, rfl⟩ rfl
        · exact fin _ (pixel_running hR hat ⟨rfl, rfl, rfl, rfl, rfl, rfl, rfl⟩ rfl rfl hR.cache (Or.inl rfl)) hph rfl ⟨_, rfl⟩ rfl
        · exact fin _ (pixel_running hR hat ⟨rfl, rfl, rfl, rfl, rfl, rfl, rfl⟩ rfl rfl (cacheInv_store hR.cache _) (Or.inl rfl)) hph rfl ⟨_, rfl⟩ rfl
    · have he : e.ppos = e.npix := BitVec.eq_of_toNat_eq (by have := hR.pos; omega)
      rw [step_of_move (move_end hph he hR.runLt)]
      refine ⟨h.pixinWf, fun h => (by cases h), fun h => (by cases h), fun h => (by cases h), fun _ => ⟨⟨hR.npix, hR.nonempty, hR.legal, hR.err, hR.pos, ?_, ?_, ?_, hR.prev, hR.cache⟩, he, rfl, ?_⟩, fun h => (by cases h), fun h => (by cases h)⟩
      · exact Nat.zero_le _
      · exact Nat.zero_le _
      · intro i h1 h2; simp at h1; simp at h2; omega
      · exact hpre.trans (List.prefix_append _ _)

end Sys2Proof.Machine
end

