-- ==== Sys2Proof/Laws/Phase.lean ====
section
/-! SUPPORT. What a turn of an engine does to its PHASE: it advances, stays, or raises (43_encoder.md R133, 44_decoder.md
R152, 60_exceptions.md R170). -/

namespace Sys2Proof.Machine

/-! ## DEC -/

/-- A fetch that needs a byte HOST has not supplied waits. -/
theorem fetchBytes_wait {d : Decoder} {pos : Position} {p n : Nat} (h : ∃ j, j < n ∧ Space.read d.sin (p + j) = none) :
    d.fetchBytes pos p n = .wait := by
  obtain ⟨j, hj, hr⟩ := h
  unfold Decoder.fetchBytes
  cases hn : Space.readN d.sin p n with
  | none => rfl
  | some bs =>
    obtain ⟨hl, hb⟩ := (Space.readN_eq_some _ _ _ _).1 hn
    have hlt := List.getElem?_eq_none_iff.1 ((hb j hj).symm.trans hr)
    omega

/-- Executing a fetched item raises with nothing else written, or DEC goes on in its PHASE or the next one. -/
theorem dec_fetch_cases {s t : State} {i : Instr} (hf : s.dec.fetch = .item i) (hx : exec i s = .next t) :
    s.dec.phase.busy = true ∧
      ((∃ c, c ≠ .noError ∧ t = { s with dec := s.dec.raise c }) ∨
       t.dec.phase = s.dec.phase ∨ s.dec.phase.advance t.dec.phase = true) := by
  obtain ⟨pos, bytes, -, hdec⟩ := fetch_item hf
  cases pos with
  | header =>
    simp only [decode, decodeHeader] at hdec
    split at hdec
    · cases hdec
      obtain ⟨hp, hc | ⟨-, -, rfl⟩⟩ := execHeader_cases hx
      · exact ⟨by rw [hp]; rfl, Or.inl hc⟩
      · exact ⟨by rw [hp]; rfl, Or.inr (Or.inr (by rw [hp]; rfl))⟩
    · cases hdec
  | footer =>
    simp only [decode, decodeFooter] at hdec
    split at hdec
    · cases hdec
      obtain ⟨hp, hc | ⟨-, -, rfl⟩⟩ := execFooter_cases hx
      · exact ⟨by rw [hp]; rfl, Or.inl hc⟩
      · exact ⟨by rw [hp]; rfl, Or.inr (Or.inr (by rw [hp]; rfl))⟩
    · cases hdec
  | body =>
    obtain ⟨-, hpos, own, hown, -⟩ := decodeOp_spec hdec
    obtain ⟨hb, ht⟩ := exec_op_cases hpos hown hx
    have hp := ((inBody_iff _).1 hb).1
    refine ⟨by rw [hp]; rfl, ?_⟩
    split at ht
    · exact Or.inl ⟨.runOverrun, by decide, ht⟩
    · refine Or.inr ?_
      rw [ht]
      simp only [afterOp]
      split
      · exact Or.inr (by rw [hp]; rfl)
      · exact Or.inl rfl

/-! ## ENC -/

/-- The one error of a pack function is OP_RANGE (R103). -/
theorem encode_error {i : Instr} {c : Cause} (h : encode i = .error c) : c = .opRange := by
  cases i <;> simp only [encode, packIndex, packRun, packDiff, packLuma] at h <;> (try split at h) <;> cases h <;> rfl

variable {e e' : Encoder} {c : Cause}

/-- Emitting an op keeps PHASE. -/
theorem emitItem_phase {i : Instr} (h : e.emitItem i = .ok e') : e'.phase = e.phase := by
  unfold Encoder.emitItem at h
  split at h <;> cases h
  rfl

/-- Emitting an op fails as its pack function does. -/
theorem emitItem_error {i : Instr} (h : e.emitItem i = .error c) : c = .opRange := by
  unfold Encoder.emitItem at h
  split at h
  · next hc => cases h; exact encode_error hc
  · cases h

/-- Flushing the pending run keeps PHASE. -/
theorem flushRun_phase (h : e.flushRun = .ok e') : e'.phase = e.phase := by
  unfold Encoder.flushRun at h
  split at h
  · cases h; rfl
  · split at h
    · cases h
    · next flushed hf => cases h; exact (emitItem_phase hf : flushed.phase = e.phase)

/-- Flushing the pending run fails as `pack_RUN` does. -/
theorem flushRun_error (h : e.flushRun = .error c) : c = .opRange := by
  unfold Encoder.flushRun at h
  split at h
  · cases h
  · split at h
    · next hf => cases h; exact emitItem_error hf
    · cases h

/-- A pixel step stays in its PHASE. -/
theorem pixelStep_phase {px : Pixel} (h : e.pixelStep px = .ok e') : e'.phase = e.phase := by
  unfold Encoder.pixelStep at h
  split at h
  · unfold Encoder.runPixel at h
    split at h
    · split at h
      · cases h
      · next full hf => cases h; exact (emitItem_phase hf : full.phase = e.phase)
    · cases h; rfl
  · unfold Encoder.otherPixel at h
    split at h
    · cases h
    · next flushed hf =>
      have hp := flushRun_phase hf
      split at h
      · cases h
      · next emitted hi =>
        cases h
        show emitted.phase = e.phase
        split at hi
        · exact (emitItem_phase hi).trans hp
        · exact (emitItem_phase (e := { flushed with cache := store flushed.cache px }) hi).trans hp

/-- A pixel step fails as a pack function does. -/
theorem pixelStep_error {px : Pixel} (h : e.pixelStep px = .error c) : c = .opRange := by
  unfold Encoder.pixelStep at h
  split at h
  · unfold Encoder.runPixel at h
    split at h
    · split at h
      · next hf => cases h; exact emitItem_error hf
      · cases h
    · cases h
  · unfold Encoder.otherPixel at h
    split at h
    · next hf => cases h; exact flushRun_error hf
    · split at h
      · next hi =>
        cases h
        split at hi <;> exact emitItem_error hi
      · cases h

/-- A step of ENC raises with nothing else written, or ENC goes on in its PHASE or the next one. -/
theorem encStep_cases (e : Encoder) :
    (∃ c, c ≠ .noError ∧ e.step = e.raise c) ∨ e.step.phase = e.phase ∨ e.phase.advance e.step.phase = true := by
  have raised : ∀ c, e.move = .error c → c = .opRange → ∃ c, c ≠ .noError ∧ e.step = e.raise c := by
    rintro c hm rfl
    exact ⟨.opRange, by decide, by simp [Encoder.step, hm]⟩
  cases hp : e.phase with
  | idle => rw [step_of_move (e' := e) (by simp [Encoder.move, hp])]; exact Or.inr (Or.inl hp)
  | done => rw [step_of_move (e' := e) (by simp [Encoder.move, hp])]; exact Or.inr (Or.inl hp)
  | error => rw [step_of_move (e' := e) (by simp [Encoder.move, hp])]; exact Or.inr (Or.inl hp)
  | header => rw [step_of_move (e' := e.headerStep) (by simp [Encoder.move, hp])]; exact Or.inr (Or.inr rfl)
  | footer => rw [step_of_move (e' := e.footerStep) (by simp [Encoder.move, hp])]; exact Or.inr (Or.inr rfl)
  | body =>
    by_cases hlt : e.ppos.toNat < e.npix.toNat
    · cases hrd : Space.read e.pixin e.ppos.toNat with
      | none => rw [step_of_move (e' := e) (by simp [Encoder.move, hp, hlt, hrd])]; exact Or.inr (Or.inl hp)
      | some px =>
        have hm : e.move = e.pixelStep px := by simp [Encoder.move, hp, hlt, hrd]
        cases hs : e.pixelStep px with
        | ok e' => rw [step_of_move (hm.trans hs)]; exact Or.inr (Or.inl ((pixelStep_phase hs).trans hp))
        | error c => exact Or.inl (raised c (hm.trans hs) (pixelStep_error hs))
    · by_cases he : e.ppos = e.npix
      · have hm : e.move = e.endStep := by simp [Encoder.move, hp, he]
        cases hs : e.flushRun with
        | ok e' => rw [step_of_move (hm.trans (by rw [Encoder.endStep, hs]))]; exact Or.inr (Or.inr rfl)
        | error c => exact Or.inl (raised c (hm.trans (by rw [Encoder.endStep, hs])) (flushRun_error hs))
      · rw [step_of_move (e' := e) (by simp [Encoder.move, hp, hlt, he])]; exact Or.inr (Or.inl hp)

/-- In a state that meets the invariant a step of ENC never raises (R133, R103). -/
theorem encStep_advances (h : e.Inv) : e.step.phase = e.phase ∨ e.phase.advance e.step.phase = true := by
  cases hp : e.phase with
  | idle => rw [step_of_move (e' := e) (by simp [Encoder.move, hp])]; exact Or.inl hp
  | done => rw [step_of_move (e' := e) (by simp [Encoder.move, hp])]; exact Or.inl hp
  | error => rw [step_of_move (e' := e) (by simp [Encoder.move, hp])]; exact Or.inl hp
  | header => rw [step_of_move (e' := e.headerStep) (by simp [Encoder.move, hp])]; exact Or.inr rfl
  | footer => rw [step_of_move (e' := e.footerStep) (by simp [Encoder.move, hp])]; exact Or.inr rfl
  | body =>
    obtain ⟨hR, -⟩ := h.body hp
    by_cases hlt : e.ppos.toNat < e.npix.toNat
    · cases hrd : Space.read e.pixin e.ppos.toNat with
      | none => rw [step_of_move (e' := e) (by simp [Encoder.move, hp, hlt, hrd])]; exact Or.inl hp
      | some px =>
        left
        rcases pixelStep_cases (px := px) ⟨hp, hlt, hrd, hR.runLt⟩ with
          ⟨-, -, hs⟩ | ⟨-, -, hs⟩ | ⟨-, -, hs⟩ | ⟨-, -, bytes, -, hs⟩ <;> rw [hs] <;> exact hp
    · have he : e.ppos = e.npix := BitVec.eq_of_toNat_eq (by have := hR.pos; omega)
      rw [step_of_move (move_end hp he hR.runLt)]
      exact Or.inr rfl

end Sys2Proof.Machine
end

