-- ==== Sys2Proof/Laws/Run.lean ====
section
/-! SUPPORT. Runs of one engine: turns of ENC, turns of DEC, and reading a stream that HOST has supplied. -/

namespace Sys2Proof.Machine

/-- A read inside the bytes SIN holds answers exactly those bytes. -/
theorem holds_readN {m : Memory} {bs : List Byte} (h : Holds m bs) {pos n : Nat} (hn : pos + n ≤ bs.length) :
    Space.readN m pos n = some ((bs.drop pos).take n) := by
  rw [Space.readN_eq_some]
  refine ⟨by simp; omega, fun k hk => ?_⟩
  rw [h (pos + k) (by omega), List.getElem?_take, if_pos hk, List.getElem?_drop]

/-- Turns given to ENC run ENC's own steps and change nothing else. -/
theorem run_enc (k : Nat) (s : State) (e : Encoder) (turns : List Agent) :
    Sys2Proof.core.run k { s with enc := e, sched := List.replicate k .enc ++ turns } =
      .next { s with enc := Encoder.step^[k] e, sched := turns } := by
  induction k generalizing e with
  | zero => rfl
  | succ k ih =>
    have h : step { s with enc := e, sched := List.replicate (k + 1) .enc ++ turns } =
        .next { s with enc := e.step, sched := List.replicate k .enc ++ turns } := by
      rw [step_of_enc (by simp [State.mover, List.replicate_succ])]
      simp [State.popTurn, List.replicate_succ]
    rw [run_of_step _ h]
    exact ih e.step

def Reaches (s : State) (n : Nat) (d d' : Decoder) : Prop :=
  ∀ turns, Sys2Proof.core.run n { s with dec := d, sched := List.replicate n .dec ++ turns } =
    .next { s with dec := d', sched := turns }

/-- No turn, no change. -/
theorem Reaches.refl (s : State) (d : Decoder) : Reaches s 0 d d := fun _ => rfl

/-- One turn of DEC, then the rest. -/
theorem Reaches.head {s : State} {n : Nat} {d d1 d' : Decoder}
    (h1 : ∀ turns, step { s with dec := d, sched := .dec :: turns } = .next { s with dec := d1, sched := turns })
    (h : Reaches s n d1 d') : Reaches s (n + 1) d d' := by
  intro turns
  rw [List.replicate_succ, List.cons_append, run_of_step _ (h1 _)]
  exact h turns

/-- Runs of DEC compose. -/
theorem Reaches.trans {s : State} {a b : Nat} {d d1 d2 : Decoder} (h1 : Reaches s a d d1) (h2 : Reaches s b d1 d2) :
    Reaches s (a + b) d d2 := by
  intro turns
  have e1 := h1 (List.replicate b .dec ++ turns)
  rw [← List.append_assoc, List.replicate_append_replicate] at e1
  exact (run_add b e1).trans (h2 turns)

/-- one DEC step that raises -/
theorem reach_raise {s : State} {d : Decoder} {c : Cause} (h : d.fetch = .raise c) : Reaches s 1 d (d.raise c) := by
  apply Reaches.head (d1 := d.raise c) _ (Reaches.refl s _)
  intro turns
  rw [step_of_raise (c := c) (by simp [State.mover]) (by exact h)]
  rfl

/-- A fetched item that executes is one turn of DEC. -/
theorem reach_exec {s : State} {d d' : Decoder} {i : Instr} (h : d.fetch = .item i)
    (hx : ∀ s : State, s.dec = d → exec i s = .next { s with dec := d' }) : Reaches s 1 d d' := by
  apply Reaches.head (d1 := d') _ (Reaches.refl s _)
  intro turns
  rw [step_of_item (i := i) (by simp [State.mover]) (by exact h), hx _ rfl]
  rfl

end Sys2Proof.Machine
end

