-- ==== Sys2Proof/Tests/Slice0.lean ====
section
/-! SUPPORT. Tests on fixed values, each expected value from the spec's text, and for every statement with hypotheses a
witness that meets them. -/

namespace Sys2Proof.Tests

open Sys2Proof.Machine

/-! ## Small states -/

/-- DEC about to take an op step (BODY) on the bytes at SPOS = 14, with the turn. -/
def op (prev : Pixel) (cache : Cache) (opos npix : Count) (bytes : List Byte) (slen : Count) : State :=
  { State.reset with
    dec := { Decoder.reset with
      phase := .body, spos := 14, slen := slen, prev := prev, cache := cache, opos := opos, npix := npix,
      sin := Space.writeN [] 14 bytes }
    sched := [.dec] }

/-- DEC in BODY at the start of a call of 8 pixels. -/
def opFresh (bytes : List Byte) : State := op Config.startPixel Cache.zero 0 8 bytes 40

/-- DEC at the header step, with the turn. -/
def atHeader (bytes : List Byte) (slen : Count) : State :=
  { State.reset with
    dec := { Decoder.reset with phase := .header, slen := slen, sin := Space.ofList bytes }, sched := [.dec] }

/-- DEC at the footer step, SPOS = 15, one pixel written, with the turn. -/
def atFooter (bytes : List Byte) (slen : Count) : State :=
  { State.reset with
    dec := { Decoder.reset with
      phase := .footer, spos := 15, slen := slen, width := 1, height := 1, channels := 3, npix := 1, opos := 1,
      prev := ⟨9, 9, 9, 255⟩, pixout := [(0, ⟨9, 9, 9, 255⟩)], sin := Space.writeN [] 15 bytes }
    sched := [.dec] }

/-- ENC about to take a pixel step on `px`, with the turn. -/
def pixel (px prev : Pixel) (cache : Cache) (run : BitVec 6) : State :=
  { State.reset with
    enc := { Encoder.reset with
      phase := .body, width := 1, height := 70, channels := 4, npix := 70, ppos := 63, prev := prev, cache := cache,
      runCnt := run, pixin := [(63, px)] }
    sched := [.enc] }

/-- ENC configured for a 2 × 3 image, channels 4, colorspace 0, not started. -/
def configured : Encoder := { Encoder.reset with width := 2, height := 3, channels := 4, colorspace := 0 }

/-- ENC of a one-pixel image, not started; its pixel is (10,20,30,255). -/
def onePixel : Encoder :=
  { Encoder.reset with width := 1, height := 1, channels := 4, colorspace := 0, pixin := [(0, ⟨10, 20, 30, 255⟩)] }

/-- The metadata of that image. -/
def oneMeta : Metadata := ⟨1, 1, 4, 0⟩

/-- HOST has a move to make, and the turn. -/
def host (m : HostMove) (ep dp : Phase) : State :=
  { State.reset with
    enc := { Encoder.reset with phase := ep }, dec := { Decoder.reset with phase := dp }, hostq := [m]
    sched := [.host] }

/-- The next state, if there is one. -/
def next : Host.Outcome State Fault Refusal → Option State
  | .next t => some t
  | .fault _ => none
  | .refused _ => none

/-! ## Ill-formed terms, one for each check of WellFormed -/

theorem test_illformed_run : (Instr.run 0).wellFormed = false ∧ (Instr.run 63).wellFormed = false := by decide

theorem test_illformed_diff :
    (Instr.diff 2 0 0).wellFormed = false ∧ (Instr.diff (-3) 0 0).wellFormed = false ∧
    (Instr.diff 0 2 0).wellFormed = false ∧ (Instr.diff 0 (-3) 0).wellFormed = false ∧
    (Instr.diff 0 0 2).wellFormed = false ∧ (Instr.diff 0 0 (-3)).wellFormed = false := by decide

theorem test_illformed_luma :
    (Instr.luma 32 0 0).wellFormed = false ∧ (Instr.luma (-33) 0 0).wellFormed = false ∧
    (Instr.luma 0 8 0).wellFormed = false ∧ (Instr.luma 0 (-9) 0).wellFormed = false ∧
    (Instr.luma 0 0 8).wellFormed = false ∧ (Instr.luma 0 0 (-9)).wellFormed = false := by decide

theorem test_illformed_header :
    (Instr.header 0 1 1 3 0).wellFormed = false ∧ (Instr.header Config.magic 1 1 2 0).wellFormed = false ∧
    (Instr.header Config.magic 1 1 5 0).wellFormed = false ∧ (Instr.header Config.magic 1 1 3 2).wellFormed = false := by
  decide

theorem test_illformed_footer : (Instr.footer 0).wellFormed = false := by decide

/-! ## Decoding: words written out from the formats of 30_encoding.md -/

/-- R67: 11111111 rrrrrrrr gggggggg bbbbbbbb aaaaaaaa; the operands 1, 2, 3, 4. -/
theorem test_decode_rgba :
    decodeOp [0b11111111, 0b00000001, 0b00000010, 0b00000011, 0b00000100] = .ok (.rgba 1 2 3 4, []) := by decide

/-- R66: 11111110 rrrrrrrr gggggggg bbbbbbbb; a byte after it stays. -/
theorem test_decode_rgb :
    decodeOp [0b11111110, 0b00001010, 0b00010100, 0b00011110, 0xAB] = .ok (.rgb 10 20 30, [0xAB]) := by decide

/-- R65: 11 and count - 1; count 1 and count 62. -/
theorem test_decode_run :
    decodeOp [0b11000000] = .ok (.run 1, []) ∧ decodeOp [0b11111101] = .ok (.run 62, []) := by decide

/-- R62: 00 and idx. -/
theorem test_decode_index : decodeOp [0b00101101] = .ok (.index 45, []) := by decide

/-- R63: 01, then dr + 2, dg + 2, db + 2; here -2, 1, 0. -/
theorem test_decode_diff : decodeOp [0b01001110] = .ok (.diff (-2) 1 0, []) := by decide

/-- R64: 10, dg + 32, then drg + 8, dbg + 8; here 31, -8, 7. -/
theorem test_decode_luma : decodeOp [0b10111111, 0b00001111] = .ok (.luma 31 (-8) 7, []) := by decide

/-- R73 with the example of R141. -/
theorem test_decode_header :
    decodeHeader [0x71, 0x6F, 0x69, 0x66, 0x00, 0x00, 0x00, 0x02, 0x00, 0x00, 0x00, 0x03, 0x04, 0x00] =
      .ok (.header Config.magic 2 3 4 0, []) := by decide

/-- R74. -/
theorem test_decode_footer : decodeFooter [0, 0, 0, 0, 0, 0, 0, 1] = .ok (.footer Config.footerMarker, []) := by decide

/-- R142, R141, R150: too few bytes. -/
theorem test_decode_short :
    decodeOp [] = .error .truncated ∧ decodeOp [0xFF, 1, 2, 3] = .error .truncated ∧
    decodeHeader [0x71, 0x6F, 0x69, 0x66] = .error .truncated ∧ decodeFooter [0, 0, 0, 0, 0, 0, 0] = .error .badFooter := by
  decide

/-- The examples of R90 to R95 and their corner cases. -/
theorem test_pack :
    packIndex 9 = .ok [0x09] ∧ packIndex 64 = .error .opRange ∧ packDiff 1 0 (-1) = .ok [0x79] ∧
    packDiff (-2) (-2) (-2) = .ok [0x40] ∧ packDiff 0 0 0 = .ok [0x6A] ∧ packLuma 10 (-5) 2 = .ok [0xAA, 0x3A] ∧
    packLuma 31 7 7 = .ok [0xBF, 0xFF] ∧ packLuma 32 0 0 = .error .opRange ∧ packRun 62 = .ok [0xFD] ∧
    packRun 0 = .error .opRange ∧ packRun 63 = .error .opRange := by decide

/-- The examples of R80, R98 and R100. -/
theorem test_arithmetic :
    Machine.hash ⟨10, 20, 30, 255⟩ = 9 ∧ Machine.hash ⟨0, 0, 0, 255⟩ = 53 ∧ Machine.hash ⟨255, 255, 255, 255⟩ = 38 ∧
    (delta 0 255).toInt = 1 ∧ (delta 255 0).toInt = -1 ∧ (delta 128 0).toInt = -128 ∧
    applyDelta 255 1 = 0 ∧ applyDelta 0 (-2) = 254 ∧ applyDelta 250 38 = 32 := by decide

/-! ## The words of opcode_table.json, and the step that runs them first after reset -/

theorem test_table_rows :
    decodeTableWord 40 0x04030201FF = some (.rgba 1 2 3 4) ∧ decodeTableWord 32 0x030201FE = some (.rgb 1 2 3) ∧
    decodeTableWord 8 0xC2 = some (.run 3) ∧ decodeTableWord 8 0x09 = some (.index 9) ∧
    decodeTableWord 8 0x79 = some (.diff 1 0 (-1)) ∧ decodeTableWord 16 0x3AAA = some (.luma 10 (-5) 2) ∧
    decodeTableWord 112 0x0004030000000200000066696F71 = some (.header Config.magic 2 3 4 0) ∧
    decodeTableWord 64 0x0100000000000000 = some (.footer Config.footerMarker) := by decide

/-- A row that is given fewer bits than its item has: the operand bytes are 0. -/
theorem test_table_short : decodeTableWord 8 0xFF = some (.rgba 0 0 0 0) ∧ decodeTableWord 8 0x80 = some (.luma (-32) (-8) (-8)) := by
  decide

theorem test_first_step_ops :
    ((next (step (State.reset.withFetchWord 40 0x04030201FF))).map fun t => (t.dec.prev, t.dec.spos, t.dec.opos)) =
      some (⟨1, 2, 3, 4⟩, 19, 1) ∧
    ((next (step (State.reset.withFetchWord 8 0xC2))).map fun t => (t.dec.prev, t.dec.spos, t.dec.opos)) =
      some (Config.startPixel, 15, 3) := by decide

theorem test_first_step_frames :
    ((next (step (State.reset.withFetchWord 112 0x0004030000000200000066696F71))).map fun t =>
      (t.dec.phase, t.dec.npix, t.dec.spos)) = some (.body, 6, 14) ∧
    ((next (step (State.reset.withFetchWord 64 0x0100000000000000))).map fun t => (t.dec.phase, t.dec.spos)) =
      some (.done, 22) := by decide

/-! ## One step of each instruction: the examples of 44_decoder.md -/

/-- R143's example: pixel (5,5,5,200), slot 35. -/
theorem test_step_rgba :
    ((next (step (opFresh [0xFF, 0x05, 0x05, 0x05, 0xC8]))).map fun t =>
      (t.dec.prev, lookup t.dec.cache 35, t.dec.spos, t.dec.opos)) = some (⟨5, 5, 5, 200⟩, ⟨5, 5, 5, 200⟩, 19, 1) := by
  decide

/-- R144's example: alpha 255 from START_PIXEL, slot 9. -/
theorem test_step_rgb :
    ((next (step (opFresh [0xFE, 0x0A, 0x14, 0x1E]))).map fun t =>
      (t.dec.prev, lookup t.dec.cache 9, Space.read t.dec.pixout 0, t.dec.spos)) =
      some (⟨10, 20, 30, 255⟩, ⟨10, 20, 30, 255⟩, some ⟨10, 20, 30, 255⟩, 18) := by decide

/-- R145's example: OPOS 1 to 63 of 66, the cache untouched. -/
theorem test_step_run :
    ((next (step (op ⟨7, 7, 7, 255⟩ Cache.zero 1 66 [0xFD] 40))).map fun t =>
      (t.dec.opos, Space.read t.dec.pixout 62, Space.read t.dec.pixout 63, decide (t.dec.cache = Cache.zero))) =
      some (63, some ⟨7, 7, 7, 255⟩, none, true) := by decide

/-- R145: one pixel too many. -/
theorem test_step_run_overrun :
    ((next (step (op ⟨7, 7, 7, 255⟩ Cache.zero 1 62 [0xFD] 40))).map fun t => (t.dec.phase, t.dec.err, t.dec.opos)) =
      some (.error, .runOverrun, 1) := by decide

/-- R146's example: slot 9 holds (10,20,30,255). -/
theorem test_step_index :
    ((next (step (op ⟨1, 1, 1, 1⟩ (store Cache.zero ⟨10, 20, 30, 255⟩) 7 8 [0x09] 40))).map fun t =>
      (t.dec.prev, t.dec.opos, t.dec.phase)) = some (⟨10, 20, 30, 255⟩, 8, .footer) := by decide

/-- R146: a slot never written gives (0,0,0,0), alpha 0 included. -/
theorem test_step_index_empty :
    ((next (step (opFresh [0x3F]))).map fun t => (t.dec.prev, decide (t.dec.cache = Cache.zero))) =
      some (⟨0, 0, 0, 0⟩, true) := by decide

/-- R147's example: (11,20,29,255), slot 5. -/
theorem test_step_diff :
    ((next (step (op ⟨10, 20, 30, 255⟩ Cache.zero 0 8 [0x79] 40))).map fun t => (t.dec.prev, lookup t.dec.cache 5)) =
      some (⟨11, 20, 29, 255⟩, ⟨11, 20, 29, 255⟩) := by decide

/-- R147's corner case: the channels wrap. -/
theorem test_step_diff_wraps :
    ((next (step (op ⟨255, 0, 0, 7⟩ Cache.zero 0 8 [0b01110000] 40))).map fun t => t.dec.prev) =
      some ⟨0, 254, 254, 7⟩ := by decide

/-- R148's example: (105,110,112,255), slot 38. -/
theorem test_step_luma :
    ((next (step (op ⟨100, 100, 100, 255⟩ Cache.zero 0 8 [0xAA, 0x3A] 40))).map fun t =>
      (t.dec.prev, lookup t.dec.cache 38, t.dec.spos)) = some (⟨105, 110, 112, 255⟩, ⟨105, 110, 112, 255⟩, 16) := by
  decide

/-- R142: the second byte is missing. -/
theorem test_step_luma_truncated :
    ((next (step (op ⟨100, 100, 100, 255⟩ Cache.zero 0 8 [0xAA] 15))).map fun t => (t.dec.phase, t.dec.err, t.dec.spos)) =
      some (.error, .truncated, 14) := by decide

/-- The 14 bytes of R141's example. -/
def header23 : List Byte := [0x71, 0x6F, 0x69, 0x66, 0x00, 0x00, 0x00, 0x02, 0x00, 0x00, 0x00, 0x03, 0x04, 0x00]

/-- R141's example. -/
theorem test_step_header :
    ((next (step (atHeader header23 30))).map fun t => (t.dec.metadata, t.dec.npix, t.dec.spos, t.dec.phase)) =
      some (⟨2, 3, 4, 0⟩, 6, 14, .body) := by decide

/-- R112, R172: channels 5 and colorspace 2; the channels are tested first. -/
theorem test_step_header_priority :
    ((next (step (atHeader (header23.take 12 ++ [0x05, 0x02]) 30))).map fun t => (t.dec.err, t.dec.width)) =
      some (.badChannels, 0) := by decide

/-- R150. -/
theorem test_step_footer :
    ((next (step (atFooter [0, 0, 0, 0, 0, 0, 0, 1] 23))).map fun t => (t.dec.phase, t.dec.spos)) = some (.done, 23) := by
  decide

/-- R150: a byte after the footer. -/
theorem test_step_footer_trailing :
    ((next (step (atFooter [0, 0, 0, 0, 0, 0, 0, 1, 0] 24))).map fun t => (t.dec.phase, t.dec.err)) =
      some (.error, .trailingData) := by decide

/-! ## The encoder: the examples of 43_encoder.md -/

/-- R122's example. -/
theorem test_enc_header :
    ((next (step { State.reset with enc := { configured with phase := .header }, sched := [.enc] })).map fun t =>
      (t.enc.sout, t.enc.phase)) = some (header23, .body) := by decide

/-- R123's example: the 62nd pixel of a run emits 0xFD. -/
theorem test_enc_run_full :
    ((next (step (pixel ⟨7, 7, 7, 255⟩ ⟨7, 7, 7, 255⟩ Cache.zero 61))).map fun t => (t.enc.sout, t.enc.runCnt)) =
      some ([0xFD], 0) := by decide

/-- R125's example with a pending run of 3: 0xC2, then 0x09. -/
theorem test_enc_flush_then_index :
    ((next (step (pixel ⟨10, 20, 30, 255⟩ ⟨7, 7, 7, 255⟩ (store Cache.zero ⟨10, 20, 30, 255⟩) 3))).map fun t =>
      (t.enc.sout, t.enc.runCnt)) = some ([0xC2, 0x09], 0) := by decide

/-- R126's examples: RGB for (10,20,30,255) after (0,0,0,255), and RGBA for (5,5,5,200) after alpha 255. -/
theorem test_enc_rgb_and_rgba :
    ((next (step (pixel ⟨10, 20, 30, 255⟩ ⟨0, 0, 0, 255⟩ Cache.zero 0))).map fun t => t.enc.sout) =
      some [0xFE, 0x0A, 0x14, 0x1E] ∧
    ((next (step (pixel ⟨5, 5, 5, 200⟩ ⟨4, 5, 5, 255⟩ Cache.zero 0))).map fun t => t.enc.sout) =
      some [0xFF, 0x05, 0x05, 0x05, 0xC8] := by decide

/-- R126 corner case (b), and R92's example. -/
theorem test_enc_diff_and_luma :
    ((next (step (pixel ⟨0, 0, 0, 255⟩ ⟨255, 255, 255, 255⟩ Cache.zero 0))).map fun t => t.enc.sout) = some [0x7F] ∧
    ((next (step (pixel ⟨105, 110, 112, 255⟩ ⟨100, 100, 100, 255⟩ Cache.zero 0))).map fun t => t.enc.sout) =
      some [0xAA, 0x3A] := by decide

/-- R120: BAD_META comes before ZERO_SIZE, and 0xFFFFFFFF squared is accepted. -/
theorem test_enc_start :
    (Encoder.start { configured with width := 0, channels := 5 }).err = .badMeta ∧
    (Encoder.start { configured with width := 0 }).err = .zeroSize ∧
    (Encoder.start { configured with width := 0xFFFFFFFF, height := 0xFFFFFFFF }).npix = 0xFFFFFFFE00000001 := by
  decide

/-- R171, D20: a START refused for its size writes nothing but the error. -/
theorem test_enc_start_refused :
    Encoder.start { configured with width := 0, npix := 9, sout := [1] } =
      { configured with width := 0, npix := 9, sout := [], phase := .error, err := .zeroSize } := by decide

/-- R22: STATUS in BODY is 0x21, in ERROR 0x54; ERR of RUN_OVERRUN is 0x37 (R160, R161). -/
theorem test_status :
    statusByte .body = 0x21 ∧ statusByte .error = 0x54 ∧ errByte .runOverrun = 0x37 ∧ statusByte .idle = 0 := by decide

/-! ## Witnesses: for each statement with hypotheses, values that meet them all; one per clause, at the bounds -/

/-- WellFormedItemsRoundTrip: an item of each row, at the bounds of its operands. -/
theorem test_witness_WellFormedItemsRoundTrip :
    (Instr.rgba 0 255 0 255).wellFormed = true ∧ (Instr.rgb 0 255 0).wellFormed = true ∧
    (Instr.run 1).wellFormed = true ∧ (Instr.run 62).wellFormed = true ∧ (Instr.index 63).wellFormed = true ∧
    (Instr.diff (-2) 1 (-2)).wellFormed = true ∧ (Instr.luma (-32) (-8) 7).wellFormed = true ∧
    (Instr.luma 31 7 (-8)).wellFormed = true ∧ (Instr.header Config.magic 0 0 3 1).wellFormed = true ∧
    (Instr.header Config.magic 0 0 4 0).wellFormed = true ∧ (Instr.footer Config.footerMarker).wellFormed = true := by
  decide

/-- DecodedBytesPackBack, at each position. -/
theorem test_witness_DecodedBytesPackBack :
    decode .body [0xC2, 0x00] = .ok (.run 3, [0x00]) ∧
    decode .header header23 = .ok (.header Config.magic 2 3 4 0, []) ∧
    decode .footer [0, 0, 0, 0, 0, 0, 0, 0] = .ok (.footer 0, []) := by decide

/-- FirstByteDecidesOpAndLength: the first and last byte of each range; just enough and just too few bytes. -/
theorem test_witness_FirstByteDecidesOpAndLength :
    classify 0xFF = .rgba ∧ classify 0xFE = .rgb ∧ classify 0xC0 = .run ∧ classify 0xFD = .run ∧ classify 0x00 = .index ∧
    classify 0x3F = .index ∧ classify 0x40 = .diff ∧ classify 0x7F = .diff ∧ classify 0x80 = .luma ∧
    classify 0xBF = .luma ∧ (classify 0xFF).length ≤ [1, 2, 3, (4 : Byte)].length + 1 ∧
    [1, 2, (3 : Byte)].length + 1 < (classify 0xFF).length := by decide

/-- DiffByteLayout: operands inside the range at both bounds, and just outside it. -/
theorem test_witness_DiffByteLayout :
    (-2 ≤ (-2 : Delta).toInt ∧ (-2 : Delta).toInt ≤ 1) ∧ (-2 ≤ (1 : Delta).toInt ∧ (1 : Delta).toInt ≤ 1) ∧
    ¬(-2 ≤ (-3 : Delta).toInt ∧ (-3 : Delta).toInt ≤ 1) ∧ ¬(-2 ≤ (2 : Delta).toInt ∧ (2 : Delta).toInt ≤ 1) := by decide

/-- LumaByteLayout, likewise. -/
theorem test_witness_LumaByteLayout :
    (-32 ≤ (-32 : Delta).toInt ∧ (31 : Delta).toInt ≤ 31) ∧ (-8 ≤ (-8 : Delta).toInt ∧ (7 : Delta).toInt ≤ 7) ∧
    ¬(-32 ≤ (-33 : Delta).toInt) ∧ ¬((32 : Delta).toInt ≤ 31) ∧ ¬(-8 ≤ (-9 : Delta).toInt) ∧
    ¬((8 : Delta).toInt ≤ 7) := by decide

/-- RunAndIndexByteLayout: both sides of each bound. -/
theorem test_witness_RunAndIndexByteLayout :
    (63 : Byte).toNat ≤ 63 ∧ 63 < (64 : Byte).toNat ∧ (1 ≤ (1 : Byte).toNat ∧ (62 : Byte).toNat ≤ 62) ∧
    (0 : Byte).toNat = 0 ∧ 62 < (63 : Byte).toNat := by decide

/-- HashIgnoresAdderWidth: the narrowest adder. -/
theorem test_witness_HashIgnoresAdderWidth : 6 ≤ (6 : Nat) := by decide

/-- CacheStoreAndHit: a pixel that its slot already holds. -/
theorem test_witness_CacheStoreAndHit : lookup Cache.zero (Machine.hash Config.zeroPixel) = Config.zeroPixel := by
  decide

/-- RgbaWritesItsPixel: a state at an op step; and one whose stream ends one byte before the op does. -/
theorem test_witness_RgbaWritesItsPixel :
    (opFresh [0xFF, 1, 2, 3, 4]).dec.inBody = true ∧
    ((op Config.startPixel Cache.zero 0 8 [0xFF, 1, 2, 3] 18).mover = .dec ∧
      (op Config.startPixel Cache.zero 0 8 [0xFF, 1, 2, 3] 18).dec.inBody = true ∧
      Space.read (op Config.startPixel Cache.zero 0 8 [0xFF, 1, 2, 3] 18).dec.sin 14 = some 0xFF ∧
      classify 0xFF = .rgba ∧ (18 : Count).toNat < (14 : Count).toNat + OpKind.rgba.length) := by decide

theorem test_witness_RgbInheritsAlpha :
    (opFresh [0xFE, 1, 2, 3]).dec.inBody = true ∧
    ((op Config.startPixel Cache.zero 0 8 [0xFE, 1, 2] 17).mover = .dec ∧
      (op Config.startPixel Cache.zero 0 8 [0xFE, 1, 2] 17).dec.inBody = true ∧
      Space.read (op Config.startPixel Cache.zero 0 8 [0xFE, 1, 2] 17).dec.sin 14 = some 0xFE ∧
      classify 0xFE = .rgb ∧ (17 : Count).toNat < (14 : Count).toNat + OpKind.rgb.length) := by decide

/-- RunRepeatsPrevOrOverruns: the first and last RUN byte; a run that just fits and one that is one too long. -/
theorem test_witness_RunRepeatsPrevOrOverruns :
    (0xC0 ≤ (0xC0 : Byte).toNat ∧ (0xFD : Byte).toNat ≤ 0xFD) ∧
    ((op ⟨7, 7, 7, 255⟩ Cache.zero 1 63 [0xFD] 40).dec.inBody = true ∧ (1 : Count).toNat + (62 : Byte).toNat ≤ (63 : Count).toNat) ∧
    ((op ⟨7, 7, 7, 255⟩ Cache.zero 1 62 [0xFD] 40).dec.inBody = true ∧ (62 : Count).toNat < (1 : Count).toNat + (62 : Byte).toNat) := by
  decide

theorem test_witness_IndexReplaysTheSlot : (0x3F : Byte).toNat ≤ 0x3F ∧ (opFresh [0x3F]).dec.inBody = true := by
  decide

theorem test_witness_DiffAddsToPrev :
    (0x40 ≤ (0x40 : Byte).toNat ∧ (0x7F : Byte).toNat ≤ 0x7F) ∧ (opFresh [0x7F]).dec.inBody = true := by decide

theorem test_witness_LumaAddsToPrev :
    (0x80 ≤ (0x80 : Byte).toNat ∧ (0xBF : Byte).toNat ≤ 0xBF) ∧ (opFresh [0xBF, 0]).dec.inBody = true ∧
    ((op Config.startPixel Cache.zero 0 8 [0xBF] 15).mover = .dec ∧
      (op Config.startPixel Cache.zero 0 8 [0xBF] 15).dec.inBody = true ∧
      Space.read (op Config.startPixel Cache.zero 0 8 [0xBF] 15).dec.sin 14 = some 0xBF ∧ classify 0xBF = .luma ∧
      (15 : Count).toNat < (14 : Count).toNat + OpKind.luma.length) := by decide

/-- HeaderOpensTheBody: a stream of 13 bytes; 14 bytes presented. -/
theorem test_witness_HeaderOpensTheBody :
    ((atHeader header23 13).mover = .dec ∧ (atHeader header23 13).dec.phase = .header ∧
      (atHeader header23 13).dec.slen.toNat < 14) ∧
    ((atHeader header23 14).mover = .dec ∧ (atHeader header23 14).dec.Presents header23 .header) ∧
    be32 Config.magic ++ be32 2 ++ be32 3 ++ [4, 0] = header23 :=
  ⟨by decide, ⟨by decide, by decide, by decide, by decide, by decide⟩, by decide⟩

/-- HeaderOpensTheBody, the five outcomes: wrong magic; channels 2 and 5; colorspace 2; a zero side; a 1 × 1 image. -/
theorem test_witness_HeaderOpensTheBody_clauses :
    (0 : BitVec 32) ≠ Config.magic ∧ ¬((2 : Byte).toNat = 3 ∨ (2 : Byte).toNat = 4) ∧
    ¬((5 : Byte).toNat = 3 ∨ (5 : Byte).toNat = 4) ∧ ((3 : Byte).toNat = 3 ∧ (4 : Byte).toNat = 4) ∧
    ¬((2 : Byte).toNat = 0 ∨ (2 : Byte).toNat = 1) ∧ ((0 : Byte).toNat = 0 ∧ (1 : Byte).toNat = 1) ∧
    (0 : BitVec 32).toNat * (5 : BitVec 32).toNat = 0 ∧ (1 : BitVec 32).toNat * (1 : BitVec 32).toNat ≠ 0 := by decide

/-- FooterClosesTheCall: 7 bytes left; 8 bytes presented; the three outcomes. -/
theorem test_witness_FooterClosesTheCall :
    ((atFooter [] 22).mover = .dec ∧ (atFooter [] 22).dec.phase = .footer ∧
      (atFooter [] 22).dec.slen.toNat < (atFooter [] 22).dec.spos.toNat + 8) ∧
    ((atFooter [0, 0, 0, 0, 0, 0, 0, 1] 23).mover = .dec ∧
      (atFooter [0, 0, 0, 0, 0, 0, 0, 1] 23).dec.Presents (be64 1) .footer) ∧
    be64 0 ≠ [0, 0, 0, 0, 0, 0, 0, 1] ∧
    (be64 1 = [0, 0, 0, 0, 0, 0, 0, 1] ∧ (15 : Count).toNat + 8 ≠ (24 : Count).toNat) ∧
    (15 : Count).toNat + 8 = (23 : Count).toNat :=
  ⟨by decide, ⟨by decide, by decide, by decide, by decide, by decide⟩, by decide, by decide, by decide⟩

/-- ItemsLeaveTheRestAlone: an op that goes on, an op that errs, and both frames. -/
theorem test_witness_ItemsLeaveTheRestAlone :
    (∃ t, exec (.run 8) (opFresh []) = .next t ∧ t.dec.phase ≠ .error) ∧
    (∃ t, exec (.run 9) (opFresh []) = .next t ∧ t.dec.phase = .error) ∧
    (∃ t, exec (.index 5) (opFresh []) = .next t) ∧
    (∃ t, exec (.header Config.magic 1 1 3 0) (atHeader [] 14) = .next t) ∧
    (∃ t, exec (.footer 1) (atFooter [] 23) = .next t) :=
  ⟨⟨_, rfl, by decide⟩, ⟨_, rfl, by decide⟩, ⟨_, rfl⟩, ⟨_, rfl⟩, ⟨_, rfl⟩⟩

/-- StepRunsTheDecodedItem, at each position. -/
theorem test_witness_StepRunsTheDecodedItem :
    ((opFresh [0xC0]).mover = .dec ∧ (opFresh [0xC0]).dec.Presents [0xC0] .body ∧ decode .body [0xC0] = .ok (.run 1, [])) ∧
    ((atHeader header23 14).dec.Presents header23 .header ∧
      decode .header header23 = .ok (.header Config.magic 2 3 4 0, [])) ∧
    ((atFooter [0, 0, 0, 0, 0, 0, 0, 1] 23).dec.Presents [0, 0, 0, 0, 0, 0, 0, 1] .footer ∧
      decode .footer [0, 0, 0, 0, 0, 0, 0, 1] = .ok (.footer 1, [])) :=
  ⟨⟨by decide, ⟨by decide, by decide, by decide⟩, by decide⟩,
    ⟨⟨by decide, by decide, by decide, by decide⟩, by decide⟩, ⟨⟨by decide, by decide, by decide, by decide⟩, by decide⟩⟩

/-- OpStepFetchesExecutesAdvances: no byte left; one byte too few; an op that just fits, in the stream and in the output. -/
theorem test_witness_OpStepFetchesExecutesAdvances :
    ((op Config.startPixel Cache.zero 0 1 [] 14).mover = .dec ∧ (op Config.startPixel Cache.zero 0 1 [] 14).dec.inBody = true ∧
      (14 : Count).toNat < (14 : Count).toNat + 1) ∧
    (Space.read (op Config.startPixel Cache.zero 0 1 [0x80] 15).dec.sin 14 = some 0x80 ∧
      (15 : Count).toNat < (14 : Count).toNat + (classify 0x80).length) ∧
    ((op Config.startPixel Cache.zero 0 1 [0xC0] 15).dec.Presents [0xC0] .body ∧ decodeOp [0xC0] = .ok (.run 1, []) ∧
      opEffect (.run 1) ⟨Config.startPixel, Cache.zero⟩ = (Config.startPixel, 1, Cache.zero) ∧
      (0 : Count).toNat + 1 ≤ (1 : Count).toNat) :=
  ⟨by decide, by decide, ⟨⟨by decide, by decide, by decide⟩, by decide, rfl, by decide⟩⟩

/-- EncStartInitialisesOrRefuses: illegal channels, illegal colorspace, a zero height, a legal configuration. -/
theorem test_witness_EncStartInitialisesOrRefuses :
    ¬(((5 : Byte).toNat = 3 ∨ (5 : Byte).toNat = 4) ∧ ((0 : Byte).toNat = 0 ∨ (0 : Byte).toNat = 1)) ∧
    ¬(((3 : Byte).toNat = 3 ∨ (3 : Byte).toNat = 4) ∧ ((2 : Byte).toNat = 0 ∨ (2 : Byte).toNat = 1)) ∧
    (configured.channels.toNat = 4 ∧ configured.colorspace.toNat = 0 ∧ configured.width.toNat * (0 : BitVec 32).toNat = 0) ∧
    configured.width.toNat * configured.height.toNat ≠ 0 := by decide

/-- The engine in a phase, with the turn. -/
def encIn (p : Phase) : State := { State.reset with enc := { configured with phase := p }, sched := [.enc] }

theorem test_witness_EncHeaderStepEmitsHeader : (encIn .header).mover = .enc ∧ (encIn .header).enc.phase = .header := by decide

/-- EncRunPixelCounts: RUN_CNT 60 (counted) and 61 (flushed). -/
theorem test_witness_EncRunPixelCounts :
    ((pixel ⟨7, 7, 7, 255⟩ ⟨7, 7, 7, 255⟩ Cache.zero 60).mover = .enc ∧
      (pixel ⟨7, 7, 7, 255⟩ ⟨7, 7, 7, 255⟩ Cache.zero 60).enc.AtPixel ⟨7, 7, 7, 255⟩ ∧ (60 : BitVec 6).toNat < 61) ∧
    ((pixel ⟨7, 7, 7, 255⟩ ⟨7, 7, 7, 255⟩ Cache.zero 61).enc.AtPixel ⟨7, 7, 7, 255⟩ ∧ (61 : BitVec 6).toNat = 61) :=
  ⟨⟨by decide, ⟨by decide, by decide, by decide, by decide⟩, by decide⟩,
    ⟨⟨by decide, by decide, by decide, by decide⟩, by decide⟩⟩

/-- EncCacheHitEmitsIndex, with the longest pending run. -/
theorem test_witness_EncCacheHitEmitsIndex :
    (pixel ⟨0, 0, 0, 0⟩ ⟨7, 7, 7, 255⟩ Cache.zero 61).mover = .enc ∧
    (pixel ⟨0, 0, 0, 0⟩ ⟨7, 7, 7, 255⟩ Cache.zero 61).enc.AtPixel ⟨0, 0, 0, 0⟩ ∧
    (⟨0, 0, 0, 0⟩ : Pixel) ≠ ⟨7, 7, 7, 255⟩ ∧ lookup Cache.zero (Machine.hash ⟨0, 0, 0, 0⟩) = ⟨0, 0, 0, 0⟩ :=
  ⟨by decide, ⟨by decide, by decide, by decide, by decide⟩, by decide, by decide⟩

/-- EncCacheMissEmitsLiteral: a miss, and the four literals: alpha changed; deltas -2 and 1; LUMA at its bounds; neither. -/
theorem test_witness_EncCacheMissEmitsLiteral :
    (pixel ⟨5, 5, 5, 200⟩ ⟨4, 5, 5, 255⟩ Cache.zero 0).mover = .enc ∧
    (pixel ⟨5, 5, 5, 200⟩ ⟨4, 5, 5, 255⟩ Cache.zero 0).enc.AtPixel ⟨5, 5, 5, 200⟩ ∧
    lookup Cache.zero (Machine.hash ⟨5, 5, 5, 200⟩) ≠ ⟨5, 5, 5, 200⟩ ∧ (200 : Byte) ≠ 255 ∧
    fitsDiff (-2) 1 1 = true ∧ (fitsDiff (-40) (-32) (-25) = false ∧ fitsLuma (-40) (-32) (-25) = true) ∧
    (fitsDiff 10 20 30 = false ∧ fitsLuma 10 20 30 = false) :=
  ⟨by decide, ⟨by decide, by decide, by decide, by decide⟩, by decide, by decide, by decide, by decide, by decide⟩

/-- EncEndOfImageFlushes: with a pending run of 61. -/
theorem test_witness_EncEndOfImageFlushes :
    (encIn .body).mover = .enc ∧ (encIn .body).enc.phase = .body ∧ (encIn .body).enc.ppos = (encIn .body).enc.npix ∧
    (61 : BitVec 6).toNat ≤ 61 := by decide

theorem test_witness_EncFooterStepEnds : (encIn .footer).mover = .enc ∧ (encIn .footer).enc.phase = .footer := by decide

/-- StarvedEngineWaits, ENC: not BUSY; in BODY with no pixel at PPOS. -/
theorem test_witness_StarvedEngineWaits_enc :
    ((encIn .idle).mover = .enc ∧ (encIn .idle).enc.phase = .idle ∧ (encIn .done).enc.phase = .done ∧
      (encIn .error).enc.phase = .error) ∧
    ({ encIn .body with enc := { configured with phase := .body, npix := 1 } }.mover = .enc ∧
      (0 : Count).toNat < (1 : Count).toNat ∧ Space.read configured.pixin 0 = none) := by decide

/-- StarvedEngineWaits, DEC: not BUSY; the last byte of a header, an op's first byte, the last byte of an RGBA and the
last byte of a footer not supplied, in a stream that just holds them. -/
theorem test_witness_StarvedEngineWaits_dec :
    ({ State.reset with sched := [.dec] }.mover = .dec ∧ State.reset.dec.phase = .idle) ∧
    ((atHeader (header23.take 13) 14).dec.phase = .header ∧ 14 ≤ (14 : Count).toNat ∧
      Space.read (atHeader (header23.take 13) 14).dec.sin 13 = none) ∧
    ((op Config.startPixel Cache.zero 0 8 [] 15).dec.inBody = true ∧ (14 : Count).toNat < (15 : Count).toNat ∧
      Space.read (op Config.startPixel Cache.zero 0 8 [] 15).dec.sin 14 = none) ∧
    ((op Config.startPixel Cache.zero 0 8 [0xFF, 1, 2, 3] 19).dec.inBody = true ∧
      Space.read (op Config.startPixel Cache.zero 0 8 [0xFF, 1, 2, 3] 19).dec.sin 14 = some 0xFF ∧
      (14 : Count).toNat + (classify 0xFF).length ≤ (19 : Count).toNat ∧ 4 < (classify 0xFF).length ∧
      Space.read (op Config.startPixel Cache.zero 0 8 [0xFF, 1, 2, 3] 19).dec.sin 18 = none) ∧
    ((atFooter [0, 0, 0, 0, 0, 0, 0] 23).dec.phase = .footer ∧ (15 : Count).toNat + 8 ≤ (23 : Count).toNat ∧
      Space.read (atFooter [0, 0, 0, 0, 0, 0, 0] 23).dec.sin 22 = none) := by decide

/-- The reset state meets the invariant, engine by engine. -/
theorem reset_enc_inv : Encoder.reset.Inv := by
  refine ⟨rfl, fun _ => ⟨rfl, rfl⟩, ?_, ?_, ?_, ?_, ?_⟩ <;> intro h <;> cases h

theorem reset_dec_inv : Decoder.reset.Inv := by
  refine ⟨rfl, rfl, fun _ => ⟨rfl, rfl⟩, ?_, ?_, ?_, ?_, ?_⟩ <;> intro h <;> cases h

/-- A running encoder that meets the invariant: a one-pixel image, just started. -/
theorem started_inv : onePixel.start.Inv := by
  apply encStart_inv
  refine ⟨rfl, fun _ => ⟨rfl, rfl⟩, ?_, ?_, ?_, ?_, ?_⟩ <;> intro h <;> cases h

/-- EncNeverRaisesAfterStart, and StepKeepsTheInvariant: a state that meets the invariant, in a call, and a step of it. -/
theorem test_witness_EncNeverRaisesAfterStart :
    State.Inv { State.reset with enc := onePixel.start } ∧
    (∃ t, step { State.reset with enc := onePixel.start } = .next t) ∧ onePixel.start.phase.busy = true :=
  ⟨⟨started_inv, reset_dec_inv⟩, ⟨_, rfl⟩, by decide⟩

theorem test_witness_StepKeepsTheInvariant :
    State.Inv { State.reset with enc := onePixel.start } ∧
    ∃ t, step { State.reset with enc := onePixel.start } = .next t := ⟨⟨started_inv, reset_dec_inv⟩, ⟨_, rfl⟩⟩

/-- SelectionFollowsThePriority: a run; a hit; a miss with alpha changed, and one of each of the other three. -/
theorem test_witness_SelectionFollowsThePriority :
    (⟨0, 0, 0, 0⟩ : Pixel) ≠ Config.startPixel ∧ lookup Cache.zero (Machine.hash ⟨0, 0, 0, 0⟩) = ⟨0, 0, 0, 0⟩ ∧
    (lookup Cache.zero (Machine.hash ⟨5, 5, 5, 200⟩) ≠ ⟨5, 5, 5, 200⟩ ∧ (200 : Byte) ≠ Config.startPixel.a) ∧
    fitsDiff (delta 255 0) (delta 1 0) (delta 254 0) = true ∧
    (fitsDiff (delta 5 0) (delta 10 0) (delta 12 0) = false ∧ fitsLuma (delta 5 0) (delta 10 0) (delta 12 0) = true) ∧
    (fitsDiff (delta 10 0) (delta 20 0) (delta 30 0) = false ∧ fitsLuma (delta 10 0) (delta 20 0) (delta 30 0) = false) ∧
    ((Instr.diff (-2) 1 0).wellFormed = true ∧ (Instr.luma 31 7 (-8)).wellFormed = true) ∧
    (opEffect (.rgba 5 5 5 200) ⟨Config.startPixel, Cache.zero⟩).1 = ⟨5, 5, 5, 200⟩ := by decide

/-- DecStartInitialises: CTRL = 1 to an engine that is not BUSY. -/
theorem test_witness_DecStartInitialises :
    (host (.writeDCtrl 1) .idle .done).mover = .host ∧ (host (.writeDCtrl 1) .idle .done).hostq = [.writeDCtrl 1] ∧
    (1 : Byte).getLsbD 0 = true ∧ (host (.writeDCtrl 1) .idle .done).dec.phase.busy = false := by decide

/-- StartIsAcceptedUnlessBusy: every phase. -/
theorem test_witness_StartIsAcceptedUnlessBusy :
    (host (.writeECtrl 0xFF) .idle .idle).mover = .host ∧ (0xFF : Byte).getLsbD 0 = true ∧
    (host (.writeECtrl 0xFF) .error .idle).enc.phase = .error ∧ (host (.writeECtrl 0xFF) .header .idle).enc.phase = .header ∧
    (host (.writeDCtrl 0xFF) .idle .done).dec.phase = .done ∧ (host (.writeDCtrl 0xFF) .idle .footer).dec.phase = .footer := by
  decide

/-- ConfigurationWrites: each register, not BUSY and BUSY; CTRL with every bit but START set. -/
theorem test_witness_ConfigurationWrites :
    (host (.writeEWidth 0) .idle .idle).mover = .host ∧ (host (.writeEWidth 0) .idle .idle).hostq = [.writeEWidth 0] ∧
    (host (.writeEHeight 1) .done .idle).enc.phase.busy = false ∧ (host (.writeEChannels 9) .body .idle).enc.phase.busy = true ∧
    (host (.writeEColorspace 9) .error .idle).enc.phase.busy = false ∧
    (host (.writeDSlen 5) .idle .idle).dec.phase.busy = false ∧ (host (.writeDSlen 5) .idle .header).dec.phase.busy = true ∧
    (0xFE : Byte).getLsbD 0 = false ∧ (host (.writeECtrl 0xFE) .done .idle).hostq = [.writeECtrl 0xFE] ∧
    (host (.writeECtrl 0xFE) .done .idle).enc.phase.busy = false ∧ (host (.writeECtrl 0xFE) .body .idle).enc.phase.busy = true ∧
    (host (.writeDCtrl 0) .idle .error).hostq = [.writeDCtrl 0] ∧ (host (.writeDCtrl 0) .idle .error).dec.phase.busy = false ∧
    (host (.writeDCtrl 0) .idle .footer).dec.phase.busy = true := by
  decide

theorem test_witness_RegisterReads :
    (host (.readEnc .err) .idle .idle).mover = .host ∧ (host (.readEnc .err) .idle .idle).hostq = [.readEnc .err] ∧
    (host (.readDec .slen) .idle .idle).hostq = [.readDec .slen] := by decide

/-- HostSuppliesBuffers: not BUSY and BUSY. -/
theorem test_witness_HostSuppliesBuffers :
    ((host (.supplySin [1, 2]) .idle .idle).mover = .host ∧ (host (.supplySin [1, 2]) .idle .idle).dec.phase.busy = false ∧
      (host (.supplySin [1, 2]) .idle .body).dec.phase.busy = true) ∧
    ((host (.supplyPixin ([⟨1, 2, 3, 4⟩].map Pixel.toWord)) .done .idle).hostq =
        [.supplyPixin ([⟨1, 2, 3, 4⟩].map Pixel.toWord)] ∧
      (host (.supplyPixin []) .done .idle).enc.phase.busy = false ∧ (host (.supplyPixin []) .body .idle).enc.phase.busy = true) := by
  decide

theorem test_witness_StatusShowsThePhase :
    (host (.readEnc .status) .body .idle).mover = .host ∧ (host (.readEnc .status) .body .idle).hostq = [.readEnc .status] ∧
    (host (.readDec .status) .body .idle).hostq = [.readDec .status] := by decide

/-- ErrorEndsOnlyByStart: an engine leaves ERROR by START of a legal configuration. -/
theorem test_witness_ErrorEndsOnlyByStart :
    (∃ t, step { host (.writeECtrl 1) .error .error with enc := { configured with phase := .error } } = .next t ∧
      t.enc.phase ≠ .error) ∧
    (∃ t, step (host (.writeDCtrl 1) .error .error) = .next t ∧ t.dec.phase ≠ .error) :=
  ⟨⟨_, rfl, by decide⟩, ⟨_, rfl, by simp⟩⟩

/-- HardwareResetLeavesIdle: in the middle of a call. -/
theorem test_witness_HardwareResetLeavesIdle :
    (host .resetEnc .body .idle).mover = .host ∧ (host .resetEnc .body .idle).hostq = [.resetEnc] ∧
    (host .resetDec .idle .body).hostq = [.resetDec] := by decide

/-- Exactly cell 0 of a one-pixel output holds a value. -/
theorem filledTo_one (p : Pixel) : FilledTo [(0, p)] 1 := by
  intro i
  by_cases h : i = 0 <;> simp [Space.read, h]

/-- A decoder at the footer of a one-pixel image meets the invariant. -/
theorem footer_inv (bytes : List Byte) (slen : Count) (h : 15 ≤ slen.toNat) : (atFooter bytes slen).dec.Inv := by
  have one : 0 < (1 : Count).toNat := by decide
  have meta1 : legalMetadata ⟨1, 1, 3, 0⟩ = true := by decide
  have low : 14 ≤ (15 : Count).toNat := by decide
  refine ⟨Space.wf_writeN rfl 15 bytes, rfl, ?_, ?_, ?_, fun _ => ⟨⟨rfl, one, meta1, rfl, low, h, filledTo_one _, rfl,
    cacheInv_zero⟩, rfl⟩, ?_, ?_⟩ <;> intro hp <;> cases hp

/-- DoneMeansFull: the step that ends a call. -/
theorem test_witness_DoneMeansFull :
    State.Inv (atFooter [0, 0, 0, 0, 0, 0, 0, 1] 23) ∧
    ∃ t, step (atFooter [0, 0, 0, 0, 0, 0, 0, 1] 23) = .next t ∧
      (atFooter [0, 0, 0, 0, 0, 0, 0, 1] 23).dec.phase ≠ .done ∧ t.dec.phase = .done :=
  ⟨⟨reset_enc_inv, footer_inv _ _ (by decide)⟩, _, rfl, by decide, by decide⟩

/-- ResultsExistAtDoneOnly: a decoder that is DONE with one pixel, and one that is not DONE. -/
theorem test_witness_ResultsExistAtDoneOnly :
    (∃ d : Decoder, d.Inv ∧ d.phase = .done ∧ d.npix.toNat = 1) ∧ Decoder.reset.phase ≠ .done ∧
    Encoder.reset.phase ≠ .done ∧ (encIn .done).enc.phase = .done := by
  refine ⟨⟨{ (atFooter [] 23).dec with phase := .done }, ⟨rfl, rfl, ?_, ?_, ?_, ?_, fun _ => ⟨rfl, rfl, filledTo_one _⟩, ?_⟩, rfl, rfl⟩,
    by decide, by decide, rfl⟩ <;> intro hp <;> cases hp

/-- PhasesMoveForward: a state that meets the invariant, and a step that advances ENC. -/
theorem test_witness_PhasesMoveForward :
    State.Inv { State.reset with enc := onePixel.start } ∧
    ∃ t, step { State.reset with enc := onePixel.start } = .next t ∧ t.enc.phase = .body :=
  ⟨⟨started_inv, reset_dec_inv⟩, _, rfl, by decide⟩

/-- EnginesShareNothing: two states that differ outside the engine whose turn it is. -/
theorem test_witness_EnginesShareNothing :
    ((opFresh [0xC0]).mover = .dec ∧ { opFresh [0xC0] with enc := configured }.mover = .dec ∧
      ∃ t, step (opFresh [0xC0]) = .next t) ∧
    ((encIn .header).mover = .enc ∧ { encIn .header with dec := (opFresh []).dec }.mover = .enc ∧
      ∃ t, step (encIn .header) = .next t) :=
  ⟨⟨by decide, by decide, _, rfl⟩, ⟨by decide, by decide, _, rfl⟩⟩

/-- StartForgetsEarlierCalls: a fresh engine and one that ended in DONE with everything else changed; a header accepted
after START. -/
theorem test_witness_StartForgetsEarlierCalls :
    (onePixel.metadata =
        { onePixel with prev := ⟨1, 2, 3, 4⟩, runCnt := 9, npix := 5, ppos := 5, phase := .done, sout := [1] }.metadata ∧
      onePixel.start.phase = .header) ∧
    (Decoder.reset.slen = { Decoder.reset with prev := ⟨1, 2, 3, 4⟩, npix := 5, opos := 5, phase := .done }.slen ∧
      Decoder.reset.metadata =
        { Decoder.reset with prev := ⟨1, 2, 3, 4⟩, npix := 5, opos := 5, phase := .done }.metadata) ∧
    (∃ t, exec (.header Config.magic 1 1 3 0) { State.reset with dec := Decoder.reset.start 0 } = .next t ∧
      t.dec.phase = .body) := ⟨by decide, by decide, _, rfl, rfl⟩

/-- ErrorsWriteNothingOfTheirOwn: a run too long; a START refused for its size. -/
theorem test_witness_ErrorsWriteNothingOfTheirOwn :
    (∃ t, step (op ⟨7, 7, 7, 255⟩ Cache.zero 1 62 [0xFD] 40) = .next t ∧ t.dec.phase = .error) ∧
    (∃ t, step { host (.writeECtrl 1) .idle .idle with enc := { configured with width := 0 } } = .next t ∧
      t.enc.phase = .error) ∧
    (Encoder.start { configured with width := 0 }).phase ≠ .header :=
  ⟨⟨_, rfl, by decide⟩, ⟨_, rfl, by decide⟩, by decide⟩

/-- The encoder of the one-pixel image is at the beginning of a call. -/
theorem onePixel_ready : onePixel.Ready oneMeta [⟨10, 20, 30, 255⟩] := by
  refine ⟨rfl, rfl, rfl, rfl, fun i hi => ?_, rfl⟩
  have : i = 0 := by simpa using hi
  subst this; rfl

/-- EncodeCallIsTheReference, OutputLagsByThePendingRun, ReferenceRoundTrip and MachineRoundTrip. -/
theorem test_witness_EncodeCallIsTheReference :
    { State.reset with enc := onePixel }.enc.Ready oneMeta [⟨10, 20, 30, 255⟩] ∧ legalMetadata oneMeta = true ∧
    [(⟨10, 20, 30, 255⟩ : Pixel)] ≠ [] := ⟨onePixel_ready, by decide, by decide⟩

/-- OutputLagsByThePendingRun: before the first pixel and after the last. -/
theorem test_witness_OutputLagsByThePendingRun :
    { State.reset with enc := onePixel }.enc.Ready oneMeta [⟨10, 20, 30, 255⟩] ∧ legalMetadata oneMeta = true ∧
    [(⟨10, 20, 30, 255⟩ : Pixel)] ≠ [] ∧ 0 ≤ 1 ∧ 1 ≤ [(⟨10, 20, 30, 255⟩ : Pixel)].length :=
  ⟨onePixel_ready, by decide, by decide, by decide, by decide⟩

/-- The stream of the one-pixel image: header, 0xFE 0A 14 1E (V5 of 95_test_vectors.md), footer. -/
def oneStream : List Byte :=
  [0x71, 0x6F, 0x69, 0x66, 0, 0, 0, 1, 0, 0, 0, 1, 4, 0, 0xFE, 0x0A, 0x14, 0x1E, 0, 0, 0, 0, 0, 0, 0, 1]

theorem oneStream_encoded : encodeStream oneMeta [⟨10, 20, 30, 255⟩] = .ok oneStream := by decide

/-- A decoder that has been given a stream. -/
theorem ready_ofList (bytes : List Byte) (n : Count) (h : n.toNat = bytes.length) :
    Decoder.Ready { Decoder.reset with sin := Space.ofList bytes, slen := n } bytes :=
  ⟨fun i _ => Space.read_ofList bytes i, h⟩

/-- DecodeCallIsTheReference: a stream that decodes, one that does not, and the empty one. -/
theorem test_witness_DecodeCallIsTheReference :
    Decoder.Ready { Decoder.reset with sin := Space.ofList oneStream, slen := 26 } oneStream ∧
    (∃ r, decodeStream oneStream = .ok r) ∧ decodeStream (oneStream ++ [0]) = .error .trailingData ∧
    decodeStream [] = .error .truncated :=
  ⟨ready_ofList _ _ (by decide), ⟨_, by rfl⟩, by decide, by decide⟩

theorem test_witness_ReferenceRoundTrip :
    legalMetadata oneMeta = true ∧ oneMeta.width.toNat * oneMeta.height.toNat = [(⟨10, 20, 30, 255⟩ : Pixel)].length ∧
    [(⟨10, 20, 30, 255⟩ : Pixel)] ≠ [] := by decide

theorem test_witness_MachineRoundTrip :
    { State.reset with enc := onePixel }.enc.Ready oneMeta [⟨10, 20, 30, 255⟩] ∧ legalMetadata oneMeta = true ∧
    Decoder.Ready { Decoder.reset with sin := Space.ofList oneStream, slen := 26 } oneStream :=
  ⟨onePixel_ready, by decide, ready_ofList _ _ (by decide)⟩

/-- OpStreamLengthBounds: no pixel, and one pixel. -/
theorem test_witness_OpStreamLengthBounds :
    encodeOps [] = .ok [] ∧ encodeOps [⟨10, 20, 30, 255⟩] = .ok [0xFE, 0x0A, 0x14, 0x1E] := by decide

end Sys2Proof.Tests
end

section
/-! SUPPORT. The flags as functions of PHASE, the fields of STATUS one by one, and what a HOST read of a register does. -/

namespace Sys2Proof.Machine

variable {s : State} {rest : List HostMove}

/-- The phases that are BUSY (R15). -/
theorem Phase.busy_iff (p : Phase) : p.busy = true ↔ p = .header ∨ p = .body ∨ p = .footer := by
  cases p <;> simp [Phase.busy]

theorem statusByte_getLsbD_zero (p : Phase) : (statusByte p).getLsbD 0 = p.busy := by
  cases p <;> rfl

theorem statusByte_getLsbD_one (p : Phase) : (statusByte p).getLsbD 1 = decide (p = .done) := by
  cases p <;> rfl

theorem statusByte_getLsbD_two (p : Phase) : (statusByte p).getLsbD 2 = decide (p = .error) := by
  cases p <;> rfl

theorem statusByte_getLsbD_three (p : Phase) : (statusByte p).getLsbD 3 = false := by
  cases p <;> rfl

/-- The upper four bits of STATUS: a zero and PHASE (R22). -/
theorem statusByte_toNat_div (p : Phase) : (statusByte p).toNat / 16 = p.code.toNat := by
  cases p <;> rfl

/-- Bit 7 of STATUS is zero (R22), since PHASE has three bits. -/
theorem statusByte_toNat_lt (p : Phase) : (statusByte p).toNat < 128 := by
  have code : (statusByte p).toNat / 16 = p.code.toNat := statusByte_toNat_div p
  have width : p.code.toNat < 8 := p.code.isLt
  omega

/-- STATUS as HOST reads it: zero-extension keeps the value (R22). -/
theorem Encoder.readReg_status_toNat (e : Encoder) : (e.readReg .status).toNat = (statusByte e.phase).toNat :=
  BitVec.toNat_setWidth_of_le (by decide)

theorem Decoder.readReg_status_toNat (d : Decoder) : (d.readReg .status).toNat = (statusByte d.phase).toNat :=
  BitVec.toNat_setWidth_of_le (by decide)

/-- A HOST read of a register of ENC: the value is added to what HOST got, and nothing else but the turn changes. -/
theorem step_of_readEnc {r : EncReg} (h : s.mover = .host) (hq : s.hostq = .readEnc r :: rest) :
    step s = .next { s.popTurn with hostq := rest, hostGot := s.enc.readReg r :: s.hostGot } := by
  rw [step_of_hostMove h hq]
  rfl

/-- A HOST read of a register of DEC. -/
theorem step_of_readDec {r : DecReg} (h : s.mover = .host) (hq : s.hostq = .readDec r :: rest) :
    step s = .next { s.popTurn with hostq := rest, hostGot := s.dec.readReg r :: s.hostGot } := by
  rw [step_of_hostMove h hq]
  rfl

end Sys2Proof.Machine
end

section
/-! PROOFS of the statements about the status registers. -/

namespace Sys2Proof.Machine

/-- Settles O38: the layout field by field, the codes by computation, and a HOST read through its step equation. -/
theorem statusShowsThePhase : Obligations.StatusShowsThePhase := by
  refine ⟨fun p => ⟨?busy, ?done, ?err, ?zero, ?code, ?top⟩, by decide, fun s rest hm => ⟨fun hq => ?enc, fun hq => ?dec⟩⟩
  case busy => rw [statusByte_getLsbD_zero]; exact p.busy_iff
  case done => rw [statusByte_getLsbD_one]; exact decide_eq_true_iff
  case err => rw [statusByte_getLsbD_two]; exact decide_eq_true_iff
  case zero => exact statusByte_getLsbD_three p
  case code => exact statusByte_toNat_div p
  case top => exact statusByte_toNat_lt p
  case enc => exact ⟨_, _, step_of_readEnc hm hq, rfl, s.enc.readReg_status_toNat, rfl, rfl⟩
  case dec => exact ⟨_, _, step_of_readDec hm hq, rfl, s.dec.readReg_status_toNat, rfl, rfl⟩

end Sys2Proof.Machine
end

section
/-! SUPPORT. The pixel port as arithmetic, a space read whole, and that an engine's turn is a function of that engine
alone. -/

namespace Sys2Proof.Machine

/-! ## The pixel port (R43) -/

/-- Appending a byte below a word shifts the word up by one byte. -/
theorem toNat_append_byte {w : Nat} (x : BitVec w) (b : Byte) : (x ++ b).toNat = x.toNat * 2 ^ 8 + b.toNat := by
  rw [BitVec.toNat_append, ← Nat.shiftLeft_add_eq_or_of_lt b.isLt, Nat.shiftLeft_eq]

theorem Pixel.toWord_toNat (p : Pixel) :
    (Pixel.toWord p).toNat = p.r.toNat * 2 ^ 24 + p.g.toNat * 2 ^ 16 + p.b.toNat * 2 ^ 8 + p.a.toNat := by
  rw [Pixel.toWord, toNat_append_byte, toNat_append_byte, toNat_append_byte]
  omega

/-- A port word lays its four channels out as `unbe32` lays out four bytes, so `be32` finds them again. -/
theorem Pixel.ofWord_toWord (p : Pixel) : Pixel.ofWord (Pixel.toWord p) = p := by
  have channels : be32 (Pixel.toWord p) = [p.r, p.g, p.b, p.a] := be32_unbe32 p.r p.g p.b p.a
  simp only [be32, List.cons.injEq] at channels
  obtain ⟨hr, hg, hb, ha, -⟩ := channels
  simp only [Pixel.ofWord, hr, hg, hb, ha]

/-! ## Reading a space whole -/

/-- A read of `n` values succeeds once every cell of the range holds one. -/
theorem Space.readN_of_isSome {α : Type} (m : Space α) (pos n : Nat)
    (h : ∀ k, k < n → (Space.read m (pos + k)).isSome = true) : ∃ vs, Space.readN m pos n = some vs := by
  induction n generalizing pos with
  | zero => exact ⟨[], rfl⟩
  | succ n ih =>
    obtain ⟨v, hv⟩ := Option.isSome_iff_exists.1 (h 0 (by omega))
    obtain ⟨vs, hvs⟩ := ih (pos + 1) fun k hk => by
      rw [Nat.add_assoc, Nat.add_comm 1 k]; exact h (k + 1) (by omega)
    rw [Nat.add_zero] at hv
    exact ⟨v :: vs, by simp only [Space.readN, hv, hvs]⟩

/-! ## The results (R50) -/

theorem Encoder.result_of_done {e : Encoder} (h : e.phase = .done) : e.result = some e.sout := if_pos h

theorem Encoder.result_of_not_done {e : Encoder} (h : e.phase ≠ .done) : e.result = none := if_neg h

theorem Decoder.result_of_not_done {d : Decoder} (h : d.phase ≠ .done) : d.result = none := if_neg h

/-- At DONE the result is the metadata and the pixels read from PIXOUT, each as its port word. -/
theorem Decoder.result_of_done {d : Decoder} {pixels : List Pixel} (h : d.phase = .done)
    (hr : Space.readN d.pixout 0 d.npix.toNat = some pixels) :
    d.result = some (d.metadata, pixels.map Pixel.toWord) := by
  simp [Decoder.result, h, hr, Decoder.metadata]

/-! ## An engine's turn is a function of that engine (R54) -/

variable {s s' t : State}

/-- Executing an item reads nothing but DEC: any state `u` with the same DEC gets the same new DEC, and nothing else
of `u` changes. -/
theorem exec_with_dec {i : Instr} (h : exec i s = .next t) (u : State) :
    exec i { u with dec := s.dec } = .next { u with dec := t.dec } := by
  have key : ∀ pre d, commit s pre d = .next t →
      commit { u with dec := s.dec } pre d = .next { u with dec := t.dec } := by
    intro pre d hc
    obtain ⟨hpre, rfl⟩ := commit_eq_next.1 hc
    exact commit_true _ hpre d
  cases i <;> exact key _ _ h

/-- DEC's turn reads nothing but DEC. -/
theorem decTurn_with_dec (h : decTurn s = .next t) (u : State) :
    decTurn { u with dec := s.dec } = .next { u with dec := t.dec } := by
  cases hf : s.dec.fetch <;> simp only [decTurn, hf] at h ⊢
  case item i => exact exec_with_dec h u
  case raise c => cases h; rfl
  case wait => cases h; rfl

/-- In DEC's turn, states that agree on DEC make the same step: DEC becomes the same, the turn is used up, and nothing
else changes. -/
theorem step_of_same_dec (h : step s = .next t) (hm : s.mover = .dec) (hm' : s'.mover = .dec) (hd : s.dec = s'.dec) :
    step s' = .next { s'.popTurn with dec := t.dec } := by
  have moved := decTurn_with_dec ((step_of_dec hm).symm.trans h) s'.popTurn
  rw [State.popTurn_dec, hd] at moved
  exact (step_of_dec hm').trans moved

/-- A step of DEC changes DEC and the turn only. -/
theorem step_dec_frame (h : step s = .next t) (hm : s.mover = .dec) : t = { s.popTurn with dec := t.dec } := by
  have again := step_of_same_dec h hm hm rfl
  rw [h] at again
  injection again

/-- A step of ENC changes ENC and the turn only. -/
theorem step_enc_frame (h : step s = .next t) (hm : s.mover = .enc) : t = { s.popTurn with enc := s.enc.step } := by
  rw [step_of_enc hm] at h
  injection h with h
  exact h.symm

end Sys2Proof.Machine
end

section
/-! PROOFS of the statements about the pixel port, the results and the two engines' independence. -/

namespace Sys2Proof.Machine

/-- Settles O42: each appended byte shifts by 8 bits, and `be32` takes the word apart again. -/
theorem pixelPortPacking : Obligations.PixelPortPacking :=
  fun p => ⟨Pixel.toWord_toNat p, Pixel.ofWord_toWord p⟩

/-- Settles O46: at DONE the invariant has PIXOUT filled up to NPIX, so the read of the whole image succeeds. -/
theorem resultsExistAtDoneOnly : Obligations.ResultsExistAtDoneOnly := by
  refine ⟨fun e => ⟨Encoder.result_of_done, Encoder.result_of_not_done⟩, fun d => Decoder.result_of_not_done,
    fun d hinv hdone => ?_⟩
  obtain ⟨-, -, filled⟩ := hinv.done hdone
  obtain ⟨pixels, hread⟩ := Space.readN_of_isSome d.pixout 0 d.npix.toNat fun k hk => by
    rw [Nat.zero_add]; exact (filled k).2 hk
  obtain ⟨hlen, hcells⟩ := (Space.readN_eq_some _ _ _ _).1 hread
  refine ⟨pixels.map Pixel.toWord, Decoder.result_of_done hdone hread, by rw [List.length_map, hlen], fun j hj => ?_⟩
  obtain ⟨p, hp⟩ := Option.isSome_iff_exists.1 ((filled j).2 hj)
  have hget : pixels[j]? = some p := by rw [← hcells j hj, Nat.zero_add, hp]
  exact ⟨p, hp, by rw [List.getElem?_map, hget]; rfl⟩

/-- Settles O48: the step of an engine is a function of that engine put back into the state; the frame is the case of a
state compared with itself. -/
theorem enginesShareNothing : Obligations.EnginesShareNothing := by
  refine ⟨fun s t h hm => ?decFrame, fun s t h hm => ?encFrame, fun s s' t hm hm' hd h => ?decReads,
    fun s s' t hm hm' he h => ?encReads⟩
  case decFrame => rw [step_dec_frame h hm]; exact ⟨rfl, rfl, rfl⟩
  case encFrame => rw [step_enc_frame h hm]; exact ⟨rfl, rfl, rfl⟩
  case decReads => exact ⟨_, step_of_same_dec h hm hm' hd, rfl⟩
  case encReads =>
    refine ⟨_, step_of_enc hm', ?_⟩
    rw [step_enc_frame h hm, he]

end Sys2Proof.Machine
end

section
/-! SUPPORT. The bytes of the op-codec as numbers: a biased field, fields put side by side, the first byte of an op by
its value, and the answer of each pack function (30_encoding.md R60 to R69, 41_opcodec.md R90 to R93). -/

namespace Sys2Proof

theorem inRange_iff {lo hi v : Int} : inRange lo hi v = true ↔ lo ≤ v ∧ v ≤ hi := by
  rw [inRange, Bool.and_eq_true, decide_eq_true_iff, decide_eq_true_iff]

/-! ## The first byte (R60, R76) -/

/-- The two tag bits of a first byte say in which quarter of the byte range it lies. -/
theorem tagBits_toNat (b : Byte) : (b.extractLsb' 6 2).toNat = b.toNat / 64 := by
  rw [BitVec.extractLsb'_toNat, Nat.shiftRight_eq_div_pow]
  omega

/-- The ordered tests of R60 on the byte's value. -/
theorem classify_eq (b : Byte) : classify b =
    if b.toNat = 0xFF then .rgba else if b.toNat = 0xFE then .rgb else if b.toNat / 64 = 3 then .run
    else if b.toNat / 64 = 0 then .index else if b.toNat / 64 = 1 then .diff else .luma := by
  simp only [classify, ← BitVec.toNat_inj, tagBits_toNat]
  rfl

theorem classify_eq_rgba {b : Byte} (h : b.toNat = 0xFF) : classify b = .rgba := by
  rw [classify_eq, if_pos h]

theorem classify_eq_rgb {b : Byte} (h : b.toNat = 0xFE) : classify b = .rgb := by
  rw [classify_eq, if_neg (by omega), if_pos h]

theorem classify_eq_run {b : Byte} (low : 0xC0 ≤ b.toNat) (high : b.toNat ≤ 0xFD) : classify b = .run := by
  rw [classify_eq, if_neg (by omega), if_neg (by omega), if_pos (by omega)]

theorem classify_eq_index {b : Byte} (high : b.toNat ≤ 0x3F) : classify b = .index := by
  rw [classify_eq, if_neg (by omega), if_neg (by omega), if_neg (by omega), if_pos (by omega)]

theorem classify_eq_diff {b : Byte} (low : 0x40 ≤ b.toNat) (high : b.toNat ≤ 0x7F) : classify b = .diff := by
  rw [classify_eq, if_neg (by omega), if_neg (by omega), if_neg (by omega), if_neg (by omega), if_pos (by omega)]

theorem classify_eq_luma {b : Byte} (low : 0x80 ≤ b.toNat) (high : b.toNat ≤ 0xBF) : classify b = .luma := by
  rw [classify_eq, if_neg (by omega), if_neg (by omega), if_neg (by omega), if_neg (by omega), if_neg (by omega)]

/-- A first byte selects the row of the op it is classified as, and no other (each row checked on each byte). -/
theorem selects_eq_decide_classify : ∀ row ∈ opRows, ∀ b : Byte, row.selects b = decide (row.kind = classify b) := by
  decide +kernel

/-- Each op has one row of the table. -/
theorem opRows_filter_kind (k : OpKind) : (opRows.filter fun row => decide (row.kind = k)).map OpRow.kind = [k] := by
  cases k <;> rfl

/-- An op whose bytes are not all there is TRUNCATED (R142). -/
theorem decodeOp_of_short {b0 : Byte} {more : List Byte} (h : more.length + 1 < (classify b0).length) :
    decodeOp (b0 :: more) = .error .truncated := by
  cases hd : decodeOp (b0 :: more) with
  | error c => rw [(decodeOp_error hd).1]
  | ok answer =>
    have used : (b0 :: more).length = (classify b0).length + answer.2.length := decodeOp_length hd
    rw [List.length_cons] at used
    omega

/-! ## Fields as numbers (R68) -/

/-- Adding the bias does not wrap when the biased field fits a byte. -/
theorem biased_toNat {d : Delta} (bias : Nat) (low : 0 ≤ d.toInt + bias) (high : d.toInt + bias < 256) :
    ((d + BitVec.ofNat 8 bias).toNat : Int) = d.toInt + bias := by
  have signed := BitVec.toInt_eq_toNat_cond d
  have wrapped : (d + BitVec.ofNat 8 bias).toNat = (d.toNat + bias % 2 ^ 8) % 2 ^ 8 := BitVec.toNat_add d _
  have width := d.isLt
  split at signed <;> omega

/-- A field moved up to bit `k`, where it still fits the byte. -/
theorem shiftLeft_toNat {x : Byte} (k : Nat) (fits : x.toNat * 2 ^ k < 256) : (x <<< k).toNat = x.toNat * 2 ^ k := by
  rw [BitVec.toNat_shiftLeft, Nat.shiftLeft_eq, Nat.mod_eq_of_lt fits]

/-- Bits from `k` up joined to a field below bit `k`: no bit meets another, so OR adds. -/
theorem or_toNat {x y : Byte} (k : Nat) (above : x.toNat % 2 ^ k = 0) (below : y.toNat < 2 ^ k) :
    (x ||| y).toNat = x.toNat + y.toNat := by
  have shifted : 2 ^ k * (x.toNat / 2 ^ k) = x.toNat := Nat.mul_div_cancel' (Nat.dvd_of_mod_eq_zero above)
  rw [BitVec.toNat_or, ← shifted, Nat.two_pow_add_eq_or_of_lt below]

/-- A tag in the two top bits over a 6-bit field: the first byte of LUMA, and RUN (R64, R65). -/
theorem tagged_toNat {tag field : Byte} (htag : tag.toNat % 64 = 0) (hfield : field.toNat < 64) :
    (tag ||| field).toNat = tag.toNat + field.toNat := or_toNat 6 htag hfield

/-- Two nibbles: the second byte of LUMA (R64). -/
theorem nibbles_toNat {u v : Byte} (hu : u.toNat < 16) (hv : v.toNat < 16) :
    (u <<< 4 ||| v).toNat = 16 * u.toNat + v.toNat := by
  have shifted : (u <<< 4).toNat = u.toNat * 2 ^ 4 := shiftLeft_toNat 4 (by omega)
  rw [or_toNat 4 (by omega) hv]
  omega

/-- A tag over three 2-bit fields: DIFF (R63). -/
theorem tagged_pairs_toNat {u v w : Byte} (hu : u.toNat < 4) (hv : v.toNat < 4) (hw : w.toNat < 4) :
    (0x40#8 ||| u <<< 4 ||| v <<< 2 ||| w).toNat = 0x40 + 16 * u.toNat + 4 * v.toNat + w.toNat := by
  have tag : (0x40#8).toNat = 0x40 := rfl
  have shiftedU : (u <<< 4).toNat = u.toNat * 2 ^ 4 := shiftLeft_toNat 4 (by omega)
  have shiftedV : (v <<< 2).toNat = v.toNat * 2 ^ 2 := shiftLeft_toNat 2 (by omega)
  have first : (0x40#8 ||| u <<< 4).toNat = (0x40#8).toNat + (u <<< 4).toNat := or_toNat 6 rfl (by omega)
  have second : (0x40#8 ||| u <<< 4 ||| v <<< 2).toNat = (0x40#8 ||| u <<< 4).toNat + (v <<< 2).toNat :=
    or_toNat 4 (by omega) (by omega)
  rw [or_toNat 2 (by omega) hw]
  omega

/-! ## The answers of the pack functions (R90 to R93) -/

theorem packDiff_eq (dr dg db : Delta) : packDiff dr dg db =
    if (-2 ≤ dr.toInt ∧ dr.toInt ≤ 1) ∧ (-2 ≤ dg.toInt ∧ dg.toInt ≤ 1) ∧ (-2 ≤ db.toInt ∧ db.toInt ≤ 1) then
      .ok [0x40#8 ||| (dr + 2#8) <<< 4 ||| (dg + 2#8) <<< 2 ||| (db + 2#8)]
    else .error .opRange := by
  simp only [packDiff, Bool.and_eq_true, inRange_iff, and_assoc]

theorem packLuma_eq (dg drg dbg : Delta) : packLuma dg drg dbg =
    if (-32 ≤ dg.toInt ∧ dg.toInt ≤ 31) ∧ (-8 ≤ drg.toInt ∧ drg.toInt ≤ 7) ∧ (-8 ≤ dbg.toInt ∧ dbg.toInt ≤ 7) then
      .ok [0x80#8 ||| (dg + 32#8), (drg + 8#8) <<< 4 ||| (dbg + 8#8)]
    else .error .opRange := by
  simp only [packLuma, Bool.and_eq_true, inRange_iff, and_assoc]

theorem packIndex_of_le {idx : Byte} (h : idx.toNat ≤ 63) : packIndex idx = .ok [idx] := if_neg (Nat.not_lt.2 h)

theorem packIndex_of_lt {idx : Byte} (h : 63 < idx.toNat) : packIndex idx = .error .opRange := if_pos h

theorem packRun_eq (count : Byte) : packRun count =
    if count.toNat < 1 ∨ 62 < count.toNat then .error .opRange else .ok [0xC0#8 ||| (count - 1#8)] := rfl

theorem packRun_of_range {count : Byte} (low : 1 ≤ count.toNat) (high : count.toNat ≤ 62) :
    packRun count = .ok [0xC0#8 ||| (count - 1#8)] := by rw [packRun_eq, if_neg (by omega)]

theorem packRun_of_not_range {count : Byte} (h : count.toNat = 0 ∨ 62 < count.toNat) :
    packRun count = .error .opRange := by rw [packRun_eq, if_pos (by omega)]

end Sys2Proof
end

section
/-! PROOFS of the statements about the bytes of the ops. -/

namespace Sys2Proof

/-- Settles O3: the ranges by the byte's value, the rows through the one kind each selects, the lengths through what a
decode of an op answers. -/
theorem firstByteDecidesOpAndLength : Obligations.FirstByteDecidesOpAndLength := by
  refine ⟨fun b0 => ⟨classify_eq_rgba, classify_eq_rgb, classify_eq_run, classify_eq_index, classify_eq_diff,
    classify_eq_luma⟩, ⟨rfl, rfl, rfl, rfl, rfl, rfl⟩, fun b0 => ?oneRow, fun b0 more => decodeOp_of_length,
    fun b0 more => decodeOp_of_short⟩
  case oneRow =>
    rw [List.filter_congr fun row hrow => selects_eq_decide_classify row hrow b0]
    exact opRows_filter_kind (classify b0)

/-- Settles O5: each delta plus 2 is a 2-bit field, and the three fields and the tag share no bit. -/
theorem diffByteLayout : Obligations.DiffByteLayout := by
  refine fun dr dg db => ⟨fun h => ⟨_, by rw [packDiff_eq, if_pos h], ?byte⟩, fun h => by rw [packDiff_eq, if_neg h]⟩
  case byte =>
    have field : ∀ d : Delta, -2 ≤ d.toInt ∧ d.toInt ≤ 1 → ((d + 2#8).toNat : Int) = d.toInt + 2 :=
      fun d hd => biased_toNat 2 (by omega) (by omega)
    obtain ⟨hr, hg, hb⟩ := h
    have fr := field dr hr
    have fg := field dg hg
    have fb := field db hb
    rw [tagged_pairs_toNat (by omega) (by omega) (by omega)]
    omega

/-- Settles O6: each operand plus its bias is a field of its width, and the fields of a byte share no bit. -/
theorem lumaByteLayout : Obligations.LumaByteLayout := by
  refine fun dg drg dbg =>
    ⟨fun h => ⟨_, _, by rw [packLuma_eq, if_pos h], ?byte0, ?byte1⟩, fun h => by rw [packLuma_eq, if_neg h]⟩
  all_goals obtain ⟨hg, hrg, hbg⟩ := h
  case byte0 =>
    have fg : ((dg + 32#8).toNat : Int) = dg.toInt + 32 := biased_toNat 32 (by omega) (by omega)
    have tag : (0x80#8).toNat = 0x80 := rfl
    rw [tagged_toNat rfl (by omega)]
    omega
  case byte1 =>
    have frg : ((drg + 8#8).toNat : Int) = drg.toInt + 8 := biased_toNat 8 (by omega) (by omega)
    have fbg : ((dbg + 8#8).toNat : Int) = dbg.toInt + 8 := biased_toNat 8 (by omega) (by omega)
    rw [nibbles_toNat (by omega) (by omega)]
    omega

/-- Settles O7: an index is its own byte, and a count less 1 is a 6-bit field under the tag. -/
theorem runAndIndexByteLayout : Obligations.RunAndIndexByteLayout := by
  refine ⟨fun idx => ⟨packIndex_of_le, packIndex_of_lt⟩,
    fun count => ⟨fun low high => ⟨_, packRun_of_range low high, ?byte⟩, packRun_of_not_range⟩⟩
  case byte =>
    have field : (count - 1#8).toNat = count.toNat - 1 := BitVec.toNat_sub_of_le low
    have tag : (0xC0#8).toNat = 0xC0 := rfl
    rw [tagged_toNat rfl (by omega)]
    omega

end Sys2Proof
end

section
/-! SUPPORT. The reference round trip: the pixels a sequence of ops replays, that the scan's ops replay the pixels it was
given, and that a decode of packed ops is their replay (43_encoder.md R134 (a), 44_decoder.md R153 (a)). -/

namespace Sys2Proof.Machine

/-! ## Packing, then decoding (R101 (b)) -/

/-- The round trip of every item, from the lemmas per instruction. -/
theorem roundTrip (i : Instr) : Laws.RoundTrip.Statement i := by
  cases i with
  | rgba r g b a => exact Laws.RoundTrip.rgba r g b a
  | rgb r g b => exact Laws.RoundTrip.rgb r g b
  | run count => exact Laws.RoundTrip.run count
  | index idx => exact Laws.RoundTrip.index idx
  | diff dr dg db => exact Laws.RoundTrip.diff dr dg db
  | luma dg drg dbg => exact Laws.RoundTrip.luma dg drg dbg
  | header m w h c s => exact Laws.RoundTrip.header m w h c s
  | footer m => exact Laws.RoundTrip.footer m

/-- The bytes a well-formed item packs to decode to it, whatever follows. -/
theorem decode_encode {i : Instr} {own : List Byte} (hw : i.wellFormed = true) (he : encode i = .ok own)
    (rest : List Byte) : decode i.position (own ++ rest) = .ok (i, rest) := by
  obtain ⟨bytes, hb, hd⟩ := roundTrip i hw
  cases he.symm.trans hb
  exact hd rest

/-- The bytes of a sequence are those of its first item and those of the rest (R49 (b)). -/
theorem encodeAll_cons {i : Instr} {is : List Instr} {bytes : List Byte} (h : encodeAll (i :: is) = .ok bytes) :
    ∃ own more, encode i = .ok own ∧ encodeAll is = .ok more ∧ bytes = own ++ more := by
  simp only [encodeAll] at h
  split at h
  · cases h
  · next own ho =>
    split at h
    · cases h
    · next more hm => cases h; exact ⟨own, more, ho, hm, rfl⟩

/-! ## What a sequence of ops replays -/

/-- The pixels that a sequence of ops writes from a mirror on, and the mirror after it (R143 to R148). -/
def replayItems (m : Mirror) : List Instr → List Pixel × Mirror
  | [] => ([], m)
  | i :: is =>
    let effect := opEffect i m
    let rest := replayItems ⟨effect.1, effect.2.2⟩ is
    (List.replicate effect.2.1 effect.1 ++ rest.1, rest.2)

theorem replayItems_append (m : Mirror) (xs ys : List Instr) :
    replayItems m (xs ++ ys) =
      ((replayItems m xs).1 ++ (replayItems (replayItems m xs).2 ys).1, (replayItems (replayItems m xs).2 ys).2) := by
  induction xs generalizing m with
  | nil => rfl
  | cons x xs ih => simp only [List.cons_append, replayItems, ih, List.append_assoc]

theorem replayItems_flush (m : Mirror) {n : Nat} (h : n ≤ 61) :
    replayItems m (flushItems n) = (List.replicate n m.prev, m) := by
  by_cases h0 : n = 0
  · subst h0; rfl
  · have hn : n % 2 ^ 8 = n := Nat.mod_eq_of_lt (by omega)
    simp only [flushItems, if_neg h0, replayItems, opEffect, BitVec.toNat_ofNat, hn, List.append_nil]

theorem replayItems_index {m : Mirror} {px : Pixel} (h : hit m.cache px = true) :
    replayItems m [.index (hash px)] = ([px], ⟨px, m.cache⟩) := by
  simp only [replayItems, opEffect, (hit_iff m.cache px).1 h, List.append_nil, List.replicate_one]

theorem replayItems_literal (m : Mirror) (px : Pixel) :
    replayItems m [literalItem px m.prev] = ([px], ⟨px, store m.cache px⟩) := by
  simp only [replayItems, opEffect_literalItem px m.prev m.cache, List.append_nil, List.replicate_one]

/-! ## One pixel of the scan, branch by branch (R123 to R126) -/

section Branches

variable {c : Scan} {px : Pixel}

theorem scanPixel_count (hp : px = c.mirror.prev) (hr : c.run + 1 ≠ 62) :
    scanPixel c px = ([], ⟨c.mirror, c.run + 1⟩) := (if_pos hp).trans (if_neg hr)

theorem scanPixel_full (hp : px = c.mirror.prev) (hr : c.run + 1 = 62) :
    scanPixel c px = ([.run 62], ⟨c.mirror, 0⟩) := (if_pos hp).trans (if_pos hr)

theorem scanPixel_hit (hp : px ≠ c.mirror.prev) (hh : hit c.mirror.cache px = true) :
    scanPixel c px = (flushItems c.run ++ [.index (hash px)], ⟨⟨px, c.mirror.cache⟩, 0⟩) :=
  (if_neg hp).trans (if_pos hh)

theorem scanPixel_miss (hp : px ≠ c.mirror.prev) (hh : ¬ hit c.mirror.cache px = true) :
    scanPixel c px =
      (flushItems c.run ++ [literalItem px c.mirror.prev], ⟨⟨px, store c.mirror.cache px⟩, 0⟩) :=
  (if_neg hp).trans (if_neg hh)

end Branches

/-! ## The scan's ops replay the pixels scanned -/

/-- The pixels of a pending run, which no op has represented yet (R11). -/
def Scan.pending (c : Scan) : List Pixel := List.replicate c.run c.mirror.prev

/-- One scanned pixel: the ops emitted replay the pixels pending before and the pixel, less those pending after. -/
theorem replayItems_scanPixel {c : Scan} (h : c.run ≤ 61) (px : Pixel) :
    ∃ out, replayItems c.mirror (scanPixel c px).1 = (out, (scanPixel c px).2.mirror) ∧
      out ++ (scanPixel c px).2.pending = c.pending ++ [px] := by
  by_cases hp : px = c.mirror.prev
  · have copies : List.replicate (c.run + 1) c.mirror.prev = c.pending ++ [px] := by
      rw [List.replicate_succ', hp]; rfl
    by_cases hr : c.run + 1 = 62
    · rw [scanPixel_full hp hr]
      exact ⟨c.pending ++ [px], by rw [← copies, hr]; rfl, List.append_nil _⟩
    · rw [scanPixel_count hp hr]
      exact ⟨[], rfl, copies⟩
  · refine ⟨c.pending ++ [px], ?_⟩
    by_cases hh : hit c.mirror.cache px = true
    · rw [scanPixel_hit hp hh, replayItems_append, replayItems_flush c.mirror h, replayItems_index hh]
      exact ⟨rfl, List.append_nil _⟩
    · rw [scanPixel_miss hp hh, replayItems_append, replayItems_flush c.mirror h, replayItems_literal]
      exact ⟨rfl, List.append_nil _⟩

/-- The ops of a scan with the pending run flushed replay the pixels pending at its start and the pixels scanned, and
decoder and encoder keep the same mirror (R87 (c)). -/
theorem replayItems_scan {c : Scan} (h : c.run ≤ 61) (ps : List Pixel) :
    replayItems c.mirror ((scan c ps).1 ++ flushItems (scan c ps).2.run) = (c.pending ++ ps, (scan c ps).2.mirror) := by
  induction ps generalizing c with
  | nil => rw [List.append_nil]; exact replayItems_flush c.mirror h
  | cons px ps ih =>
    obtain ⟨out, hout, hpix⟩ := replayItems_scanPixel h px
    simp only [scan, List.append_assoc]
    rw [replayItems_append, hout]
    simp only [ih (scanPixel_run h px)]
    rw [← List.append_assoc, hpix, List.append_assoc, List.singleton_append]

/-- R128's ops replay the pixels they were made from, and end with the encoder's mirror (R134 (a), R87 (c)). -/
theorem replayItems_encodeItems (ps : List Pixel) :
    replayItems Mirror.start (encodeItems ps) = (ps, encodeMirror ps) := by
  rw [encodeItems_eq_scan, encodeMirror_eq_scan]
  exact replayItems_scan (c := Scan.start) (Nat.zero_le _) ps

/-! ## The items of the reference encoder are ops -/

theorem flushItems_body (n : Nat) : ∀ i ∈ flushItems n, i.position = .body := by
  intro i hi
  unfold flushItems at hi
  split at hi
  · cases hi
  · rw [List.mem_singleton.1 hi]; rfl

theorem scanPixel_body (c : Scan) (px : Pixel) : ∀ i ∈ (scanPixel c px).1, i.position = .body := by
  intro i hi
  unfold scanPixel at hi
  split at hi
  · split at hi
    · rw [List.mem_singleton.1 hi]; rfl
    · cases hi
  · split at hi <;> rcases List.mem_append.1 hi with hi | hi
    case isTrue.inl => exact flushItems_body c.run i hi
    case isTrue.inr => rw [List.mem_singleton.1 hi]; rfl
    case isFalse.inl => exact flushItems_body c.run i hi
    case isFalse.inr => rw [List.mem_singleton.1 hi]; exact literalItem_body px c.mirror.prev

theorem scan_body (c : Scan) (ps : List Pixel) : ∀ i ∈ (scan c ps).1, i.position = .body := by
  induction ps generalizing c with
  | nil => intro i hi; cases hi
  | cons p ps ih =>
    intro i hi
    rcases List.mem_append.1 hi with hi | hi
    · exact scanPixel_body c p i hi
    · exact ih (scanPixel c p).2 i hi

theorem encodeItems_body (ps : List Pixel) : ∀ i ∈ encodeItems ps, i.position = .body := by
  rw [encodeItems_eq_scan]
  intro i hi
  rcases List.mem_append.1 hi with hi | hi
  · exact scan_body Scan.start ps i hi
  · exact flushItems_body _ i hi

/-! ## Decoding packed ops is replaying them -/

/-- The bytes of well-formed ops decode to what the ops replay, when as many pixels are wanted as they write (R151). -/
theorem decodeFrom_items {xs : List Instr} {own : List Byte} {m : Mirror} {fuel : Nat} (rest : List Byte)
    (hw : ∀ i ∈ xs, i.wellFormed = true) (hp : ∀ i ∈ xs, i.position = .body) (he : encodeAll xs = .ok own)
    (hf : (replayItems m xs).1.length ≤ fuel) :
    decodeFrom fuel (replayItems m xs).1.length m (own ++ rest) =
      .ok ((replayItems m xs).1, rest, (replayItems m xs).2) := by
  induction xs generalizing own m fuel with
  | nil => cases he; cases fuel <;> rfl
  | cons i is ih =>
    obtain ⟨first, more, hfirst, hmore, rfl⟩ := encodeAll_cons he
    have hwi := hw i List.mem_cons_self
    have hpi := hp i List.mem_cons_self
    have hpos : 1 ≤ (opEffect i m).2.1 := effect_pos hwi hpi
    simp only [replayItems, List.length_append, List.length_replicate] at hf ⊢
    rw [List.append_assoc, decodeFrom_op hwi hpi hfirst (by omega) (by omega) (Nat.le_add_right _ _), Nat.add_sub_cancel_left,
      ih (fun j hj => hw j (List.mem_cons_of_mem _ hj)) (fun j hj => hp j (List.mem_cons_of_mem _ hj)) hmore (by omega)]
    rfl

/-- `decode_ops` of `encode_ops` gives the pixels back, the bytes after them untouched, and the encoder's mirror. -/
theorem decodeOps_encodeOps {ps : List Pixel} {ops : List Byte} (rest : List Byte) (h : encodeOps ps = .ok ops) :
    decodeOps (ops ++ rest) ps.length = .ok (ps, rest, encodeMirror ps) := by
  have decoded := decodeFrom_items (m := Mirror.start) (fuel := ps.length) rest (encodeItems_wellFormed ps)
    (encodeItems_body ps) h (by rw [replayItems_encodeItems])
  rwa [replayItems_encodeItems] at decoded

/-- `encode_ops` never fails (R103). -/
theorem encodeOps_ok (ps : List Pixel) : ∃ ops, encodeOps ps = .ok ops := encodeAll_ok (encodeItems_wellFormed ps)

/-! ## The frame -/

/-- Reading back the header that was written (R114). -/
theorem openHeader_writeHeader {md : Metadata} (hl : legalMetadata md = true) (hz : md.width.toNat * md.height.toNat ≠ 0)
    (rest : List Byte) : openHeader (writeHeader md ++ rest) = .ok (md, rest) := by
  obtain ⟨hc, hs⟩ : legalChannels md.channels = true ∧ legalColorspace md.colorspace = true := by
    simpa only [legalMetadata, Bool.and_eq_true] using hl
  have read : readHeader Config.magic md.width md.height md.channels md.colorspace = .ok md :=
    readHeader_ok.2 ⟨rfl, hc, hs, rfl⟩
  simp only [openHeader, writeHeader, decodeHeader_bytes, read, if_neg hz]

theorem checkEnd_footerBytes : checkEnd footerBytes = .ok () := rfl

end Sys2Proof.Machine
end

section
/-! SUPPORT. A store that changes nothing (40_pixelcache.md R84). -/

namespace Sys2Proof.Machine

/-- Caches whose 64 slots read the same are the same. -/
theorem Cache.ext_of_lookup {c c' : Cache} (h : ∀ i, lookup c i = lookup c' i) : c = c' := by
  refine Vector.ext fun i hi => ?_
  have slot := h (BitVec.ofNatLT i hi)
  simpa only [lookup, Vector.get_eq_getElem, BitVec.toNat_ofNatLT] using slot

/-- Storing what the slot already holds changes no slot. -/
theorem store_held {c : Cache} {p : Pixel} (h : lookup c (hash p) = p) : store c p = c := by
  refine Cache.ext_of_lookup fun i => ?_
  rw [lookup_store]
  split
  · next hi => rw [hi, h]
  · rfl

end Sys2Proof.Machine
end

section
/-! PROOFS of the statements about the reference round trip and the cache unit. -/

namespace Sys2Proof.Machine

/-- Settles O53: the frame is read back as written, and the ops between replay the pixels. -/
theorem referenceRoundTrip : Obligations.ReferenceRoundTrip := by
  intro md ps hl hsize hne
  obtain ⟨ops, hops⟩ := encodeOps_ok ps
  have hz : md.width.toNat * md.height.toNat ≠ 0 := by
    rw [hsize]; exact fun h0 => hne (List.length_eq_zero_iff.1 h0)
  refine ⟨writeHeader md ++ ops ++ footerBytes, by rw [encodeStream, hops], ?_⟩
  simp only [decodeStream, List.append_assoc, openHeader_writeHeader hl hz, hsize, decodeOps_encodeOps footerBytes hops,
    checkEnd_footerBytes]

/-- Settles O10: a reduction mod 2^k changes no sum mod 64, since 64 divides 2^k. -/
theorem hashIgnoresAdderWidth : Obligations.HashIgnoresAdderWidth := by
  intro p k hk
  have slot : (hash p).toNat = (p.r.toNat * 3 + p.g.toNat * 5 + p.b.toNat * 7 + p.a.toNat * 11) % 64 :=
    BitVec.toNat_ofNat _ _
  have divides : 64 ∣ 2 ^ k := Nat.pow_dvd_pow 2 hk
  refine ⟨slot, ?_⟩
  rw [slot]
  simp only [Nat.add_mod_mod, Nat.mod_add_mod, Nat.mod_mod_of_dvd _ divides]

/-- Settles O11: a store is read back slot by slot, and every slot of the fresh cache holds the zero pixel. -/
theorem cacheStoreAndHit : Obligations.CacheStoreAndHit := by
  refine ⟨fun c p => ⟨storedSlot_store c p, (hit_iff _ p).2 (storedSlot_store c p).stored, ?same, hit_iff c p⟩,
    fun p => ?zero⟩
  case same => exact store_held
  case zero => rw [hit_iff, lookup_zero, eq_comm]

end Sys2Proof.Machine
end

section
/-! SUPPORT. An encode call of ENC is the reference encode: a pixel step is one step of the scan, so the pixel steps of a
call emit the scan's ops (43_encoder.md R130, R133). -/

namespace Sys2Proof.Machine

variable {e e' : Encoder}

/-- What ENC carries from pixel to pixel, as the scan does: PREV, CACHE and RUN_CNT (R121). -/
def Encoder.scanState (e : Encoder) : Scan := ⟨⟨e.prev, e.cache⟩, e.runCnt.toNat⟩

/-- The RUN byte of a pending run is its flush (R124). -/
theorem encodeAll_flushItems (h : e.runCnt.toNat ≤ 61) :
    encodeAll (flushItems e.runCnt.toNat) = .ok e.pendingBytes := by
  unfold flushItems Encoder.pendingBytes
  by_cases h0 : e.runCnt.toNat = 0
  · rw [if_pos h0, if_pos h0]; rfl
  · rw [if_neg h0, if_neg h0]
    simp only [encodeAll, encode_run (by omega) (by omega : e.runCnt.toNat ≤ 62), List.append_nil]

/-- A flush, then one op. -/
theorem encodeAll_flush_op {i : Instr} {bytes : List Byte} (h : e.runCnt.toNat ≤ 61) (hi : encode i = .ok bytes) :
    encodeAll (flushItems e.runCnt.toNat ++ [i]) = .ok (e.pendingBytes ++ bytes) :=
  encodeAll_append (encodeAll_flushItems h) (by simp only [encodeAll, hi, List.append_nil])

/-- ENC has walked over `ps` in its pixel steps, as the scan does. -/
structure Encoder.Walked (e e' : Encoder) (ps : List Pixel) : Prop where
  bytes : ∃ own, encodeAll (scan e.scanState ps).1 = .ok own ∧ e'.sout = e.sout ++ own
  scan : e'.scanState = (scan e.scanState ps).2
  ppos : e'.ppos.toNat = e.ppos.toNat + ps.length
  phase : e'.phase = .body
  config : SameEncConfig e e'

theorem Encoder.Walked.nil (h : e.phase = .body) : e.Walked e [] :=
  ⟨⟨[], rfl, (List.append_nil _).symm⟩, rfl, rfl, h, ⟨rfl, rfl, rfl, rfl, rfl, rfl, rfl⟩⟩

theorem SameEncConfig.trans {e₁ e₂ e₃ : Encoder} (h : SameEncConfig e₁ e₂) (h' : SameEncConfig e₂ e₃) :
    SameEncConfig e₁ e₃ :=
  ⟨h'.width.trans h.width, h'.height.trans h.height, h'.channels.trans h.channels, h'.colorspace.trans h.colorspace,
    h'.npix.trans h.npix, h'.err.trans h.err, h'.pixin.trans h.pixin⟩

theorem Encoder.Walked.append {e₁ e₂ e₃ : Encoder} {ps qs : List Pixel} (h : e₁.Walked e₂ ps) (h' : e₂.Walked e₃ qs) :
    e₁.Walked e₃ (ps ++ qs) := by
  obtain ⟨own, hown, hsout⟩ := h.bytes
  obtain ⟨more, hmore, hsout'⟩ := h'.bytes
  rw [h.scan] at hmore
  refine ⟨⟨own ++ more, ?bytes, ?sout⟩, ?scan, ?ppos, h'.phase, h.config.trans h'.config⟩
  case bytes => rw [scan_append]; exact encodeAll_append hown hmore
  case sout => rw [hsout', hsout, List.append_assoc]
  case scan => rw [scan_append, h'.scan, h.scan]
  case ppos => rw [h'.ppos, h.ppos, List.length_append, Nat.add_assoc]

/-- A pixel step that emits the bytes of the scan's items, and leaves PREV, CACHE and RUN_CNT as the scan does, walks over
its pixel. -/
theorem Encoder.AtPixel.walked_of {px : Pixel} {items : List Instr} {own : List Byte} {run : BitVec 6} {cache : Cache}
    (h : e.AtPixel px) (hown : encodeAll items = .ok own)
    (hscan : scanPixel e.scanState px = (items, ⟨⟨px, cache⟩, run.toNat⟩))
    (hs : e.step = { e with
      sout := e.sout ++ own, runCnt := run, cache := cache, prev := px, ppos := e.ppos + 1 }) :
    e.Walked e.step [px] := by
  have one : Machine.scan e.scanState [px] = (items, ⟨⟨px, cache⟩, run.toNat⟩) := by
    simp only [Machine.scan, hscan, List.append_nil]
  rw [hs]
  exact ⟨⟨own, by rw [one]; exact hown, rfl⟩, by rw [one]; rfl, ppos_succ h.more, h.phase,
    ⟨rfl, rfl, rfl, rfl, rfl, rfl, rfl⟩⟩

/-- One pixel step of ENC is one step of the scan (R123 to R126). -/
theorem Encoder.AtPixel.walked {px : Pixel} (h : e.AtPixel px) : e.Walked e.step [px] := by
  rcases pixelStep_cases h with
    ⟨rfl, hr, hs⟩ | ⟨rfl, hr, hs⟩ | ⟨hp, hh, hs⟩ | ⟨hp, hh, bytes, hb, hs⟩
  · have count : (e.runCnt + 1).toNat = e.runCnt.toNat + 1 := by
      rw [BitVec.toNat_add]; exact Nat.mod_eq_of_lt (show e.runCnt.toNat + 1 < 64 by omega)
    refine h.walked_of (items := []) rfl ?_ (by rw [hs, List.append_nil])
    rw [count]
    exact scanPixel_count (c := e.scanState) rfl (by show e.runCnt.toNat + 1 ≠ 62; omega)
  · have full : e.runCnt.toNat + 1 = 62 := by rw [hr]
    exact h.walked_of (run := 0) rfl (scanPixel_full (c := e.scanState) rfl full) hs
  · have hit : hit e.cache px = true := (hit_iff e.cache px).2 hh
    exact h.walked_of (run := 0) (encodeAll_flush_op h.run (encode_index _)) (scanPixel_hit (c := e.scanState) hp hit) hs
  · have miss : ¬ hit e.cache px = true := fun hit => hh ((hit_iff e.cache px).1 hit)
    exact h.walked_of (run := 0) (encodeAll_flush_op h.run hb) (scanPixel_miss (c := e.scanState) hp miss) hs

/-- As many steps as there are pixels left to take walk over those pixels. -/
theorem iterate_walked {ps : List Pixel} (hphase : e.phase = .body) (hrun : e.runCnt.toNat ≤ 61)
    (hlen : e.ppos.toNat + ps.length ≤ e.npix.toNat)
    (hpix : ∀ k, k < ps.length → Space.read e.pixin (e.ppos.toNat + k) = ps[k]?) :
    e.Walked (Encoder.step^[ps.length] e) ps := by
  induction ps generalizing e with
  | nil => exact .nil hphase
  | cons px ps ih =>
    rw [List.length_cons] at hlen hpix
    have first : e.Walked e.step [px] :=
      Encoder.AtPixel.walked ⟨hphase, by omega, hpix 0 (by omega), hrun⟩
    have pos : e.step.ppos.toNat = e.ppos.toNat + 1 := first.ppos
    have run : e.step.scanState.run ≤ 61 := by
      rw [first.scan]; exact scan_run hrun [px]
    refine first.append (ih first.phase run ?_ fun k hk => ?_)
    · rw [pos, first.config.npix]; omega
    · rw [first.config.pixin, pos, Nat.add_assoc, Nat.add_comm 1 k]; exact hpix (k + 1) (by omega)

/-- ENC at the start of the body: SOUT holds the header, every other per-call register its first value (R120, R122). -/
def Encoder.opened (e : Encoder) : Encoder :=
  { e with
    err := .noError, sout := writeHeader e.metadata, npix := e.width.setWidth 64 * e.height.setWidth 64,
    prev := Config.startPixel, cache := Cache.zero, runCnt := 0, ppos := 0, phase := .body }

theorem step_of_header (h : e.phase = .header) : e.step = e.headerStep :=
  step_of_move (by simp only [Encoder.move, h])

theorem step_of_footer (h : e.phase = .footer) : e.step = e.footerStep :=
  step_of_move (by simp only [Encoder.move, h])

/-- START on legal metadata of a size that is not 0 is accepted, and the header step opens the body (R120, R122). -/
theorem start_step (hl : legalMetadata e.metadata = true) (hz : e.width.toNat * e.height.toNat ≠ 0) :
    e.start.step = e.opened := by
  have nonzero : ¬ (e.width.setWidth 64 * e.height.setWidth 64 : Count) = 0 := fun h => hz ((size_eq_zero _ _).1 h)
  have accepted : e.start = { e with
      err := .noError, sout := [], npix := e.width.setWidth 64 * e.height.setWidth 64, prev := Config.startPixel,
      cache := Cache.zero, runCnt := 0, ppos := 0, phase := .header } := (if_pos hl).trans (if_neg nonzero)
  rw [accepted, step_of_header rfl]
  rfl

/-- The two steps after the last pixel: the flush, then the footer (R127, R129). -/
theorem step_step_end (hp : e.phase = .body) (he : e.ppos = e.npix) (hr : e.runCnt.toNat ≤ 61) :
    e.step.step = { e with sout := e.sout ++ e.pendingBytes ++ footerBytes, runCnt := 0, phase := .done } := by
  rw [step_of_move (move_end hp he hr), step_of_footer rfl]
  rfl

/-- A whole encode call of ENC: NPIX + 3 steps after START, SOUT, PREV and CACHE are those of the reference (R130). -/
theorem encode_call {md : Metadata} {ps : List Pixel} (h : e.Ready md ps) (hl : legalMetadata md = true) (hne : ps ≠ [])
    (he : e' = Encoder.step^[ps.length + 3] e.start) :
    encodeStream md ps = .ok e'.sout ∧ e'.phase = .done ∧ e'.prev = (encodeMirror ps).prev ∧
      e'.cache = (encodeMirror ps).cache := by
  have hmd : e.metadata = md := by
    rw [Encoder.metadata, h.width, h.height, h.channels, h.colorspace]
  have size : e.width.toNat * e.height.toNat = ps.length := by rw [h.width, h.height, h.size]
  have nonzero : e.width.toNat * e.height.toNat ≠ 0 := by
    rw [size]; exact fun h0 => hne (List.length_eq_zero_iff.1 h0)
  have npix : e.opened.npix.toNat = ps.length := (size_toNat _ _).trans size
  have walked : e.opened.Walked (Encoder.step^[ps.length] e.opened) ps :=
    iterate_walked rfl (Nat.zero_le _) (by rw [npix]; exact (Nat.zero_add _).le) fun k hk => by
      show Space.read e.pixin (0 + k) = _
      rw [Nat.zero_add]; exact h.pixels k hk
  rw [Function.iterate_succ_apply', Function.iterate_succ_apply', Function.iterate_succ_apply,
    start_step (hmd ▸ hl) nonzero] at he
  generalize Encoder.step^[ps.length] e.opened = w at walked he
  obtain ⟨own, hown, hsout⟩ := walked.bytes
  have scanned : w.scanState = (scan Scan.start ps).2 := walked.scan
  have run : w.runCnt.toNat = (scan Scan.start ps).2.run := congrArg Scan.run scanned
  have mirror : (⟨w.prev, w.cache⟩ : Mirror) = encodeMirror ps := by
    rw [encodeMirror_eq_scan, ← scanned]; rfl
  have runLe : w.runCnt.toNat ≤ 61 := by rw [run]; exact scan_run (Nat.zero_le _) ps
  have atEnd : w.ppos = w.npix := by
    apply BitVec.eq_of_toNat_eq
    rw [walked.ppos, walked.config.npix, npix]; exact Nat.zero_add _
  have ops : encodeOps ps = .ok (own ++ w.pendingBytes) := by
    rw [encodeOps, encodeItems_eq_scan, ← run]
    exact encodeAll_append hown (encodeAll_flushItems runLe)
  rw [step_step_end walked.phase atEnd runLe] at he
  subst he
  refine ⟨?_, rfl, congrArg Mirror.prev mirror, congrArg Mirror.cache mirror⟩
  rw [encodeStream, ops, hsout, ← hmd]
  simp only [Encoder.opened, List.append_assoc]

end Sys2Proof.Machine
end

section
/-! SUPPORT. A decode call of DEC on a stream that the reference decodes: each turn is one step of R151's loop, so DEC ends
in DONE with the reference's pixels, metadata and mirror (44_decoder.md R151, R152). -/

namespace Sys2Proof.Machine

/-! ## Sequences in a space -/

theorem Space.writeN_append {α : Type} (m : Space α) (pos : Nat) (xs ys : List α) :
    Space.writeN m pos (xs ++ ys) = Space.writeN (Space.writeN m pos xs) (pos + xs.length) ys := by
  induction xs generalizing m pos with
  | nil => rfl
  | cons x xs ih =>
    rw [List.cons_append, Space.writeN, ih, Space.writeN, List.length_cons, Nat.add_assoc, Nat.add_comm 1]

/-- Filling is writing as many copies (R145). -/
theorem Space.fill_eq_writeN {α : Type} (m : Space α) (pos : Nat) (v : α) (n : Nat) :
    Space.fill m pos v n = Space.writeN m pos (List.replicate n v) := by
  induction n with
  | zero => rfl
  | succ n ih => rw [Space.fill, ih, List.replicate_succ', Space.writeN_append, List.length_replicate]; rfl

/-- The space of a sequence, filled further at its end. -/
theorem Space.fill_ofList {α : Type} (vs : List α) (v : α) (n : Nat) :
    Space.fill (Space.ofList vs) vs.length v n = Space.ofList (vs ++ List.replicate n v) := by
  rw [Space.fill_eq_writeN, Space.ofList, Space.ofList, Space.writeN_append, Nat.zero_add]

theorem holds_ofList {α : Type} (vs : List α) : Holds (Space.ofList vs) vs := fun i _ => Space.read_ofList vs i

theorem filledTo_ofList (vs : List Pixel) : FilledTo (Space.ofList vs) vs.length := by
  intro i
  rw [Space.read_ofList, isSome_getElem?]

/-! ## DEC in the middle of a call -/

/-- Bytes further on in a stream that SIN holds are read as they stand there. -/
theorem Decoder.Ready.readN {d : Decoder} {before own rest : List Byte} (h : d.Ready (before ++ own ++ rest)) :
    Space.readN d.sin before.length own.length = some own := by
  rw [holds_readN h.stream (by simp only [List.length_append]; omega), List.append_assoc, List.drop_left, List.take_left]

/-- DEC in BODY or FOOTER of a call on `stream`: `written` are the pixels in PIXOUT, `m` is the mirror, `want` pixels are
still to come, and `left` are the bytes from SPOS on. -/
structure Decoder.Midway (d : Decoder) (stream : List Byte) (md : Metadata) (written : List Pixel) (m : Mirror)
    (want : Nat) (left : List Byte) : Prop where
  ready : d.Ready stream
  metadata : d.metadata = md
  pixout : d.pixout = Space.ofList written
  opos : d.opos.toNat = written.length
  npix : d.npix.toNat = written.length + want
  size : md.width.toNat * md.height.toNat = written.length + want
  prev : d.prev = m.prev
  cache : d.cache = m.cache
  phase : d.phase = if want = 0 then .footer else .body
  parsed : ∃ before, stream = before ++ left ∧ d.spos.toNat = before.length

variable {s : State} {d : Decoder} {stream left tail : List Byte} {md : Metadata} {written : List Pixel} {m : Mirror}
  {want : Nat}

/-- DEC fetches the op that the bytes left begin with (R142). -/
theorem Decoder.Midway.fetch_op {own : List Byte} {i : Instr} (h : d.Midway stream md written m (want + 1) (own ++ tail))
    (hw : i.wellFormed = true) (hp : i.position = .body) (he : encode i = .ok own) :
    d.inBody = true ∧ d.fetch = .item i := by
  obtain ⟨before, hstream, hspos⟩ := h.parsed
  have ready := h.ready
  rw [hstream, ← List.append_assoc] at ready
  have body : d.inBody = true := (inBody_iff d).2 ⟨h.phase, by rw [h.opos, h.npix]; omega⟩
  have decoded := decode_encode hw he []
  rw [List.append_nil, hp] at decoded
  refine ⟨body, fetch_of_presents (pos := .body) ⟨body, ?_, ?_⟩ decoded⟩
  · rw [hspos, ready.slen]; simp only [List.length_append]; omega
  · rw [hspos]; exact ready.readN

/-- One op step of DEC is one round of R151's loop. -/
theorem Decoder.Midway.op_step {i : Instr} (h : d.Midway stream md written m (want + 1) left)
    (hd : decodeOp left = .ok (i, tail)) (hc : (opEffect i m).2.1 ≤ want + 1) :
    ∃ d', Reaches s 1 d d' ∧
      d'.Midway stream md (written ++ List.replicate (opEffect i m).2.1 (opEffect i m).1)
        ⟨(opEffect i m).1, (opEffect i m).2.2⟩ (want + 1 - (opEffect i m).2.1) tail := by
  obtain ⟨hw, hp, own, he, rfl⟩ := decodeOp_spec hd
  obtain ⟨body, fetched⟩ := h.fetch_op hw hp he
  obtain ⟨before, hstream, hspos⟩ := h.parsed
  have mirror : (⟨d.prev, d.cache⟩ : Mirror) = m := by rw [h.prev, h.cache]
  have fits : d.opos.toNat + (opEffect i m).2.1 ≤ d.npix.toNat := by rw [h.opos, h.npix]; omega
  have inStream : d.spos.toNat + own.length ≤ d.slen.toNat := by
    rw [hspos, h.ready.slen, hstream]; simp only [List.length_append]; omega
  refine ⟨afterOp d (opEffect i m).1 (opEffect i m).2.1 own.length (opEffect i m).2.2,
    reach_exec fetched fun t ht => ?_, ?_⟩
  · rw [exec_op hp he t d ht body, mirror, if_neg (by omega)]
  · have opos := count_add_toNat fits
    have full : d.opos + BitVec.ofNat 64 (opEffect i m).2.1 = d.npix ↔ want + 1 - (opEffect i m).2.1 = 0 := by
      rw [BitVec.toNat_eq, opos, h.opos, h.npix]; omega
    exact {
      ready := ⟨h.ready.stream, h.ready.slen⟩
      metadata := h.metadata
      pixout := by
        show Space.fill d.pixout d.opos.toNat _ _ = _
        rw [h.pixout, h.opos, Space.fill_ofList]
      opos := by
        rw [List.length_append, List.length_replicate, ← h.opos]; exact opos
      npix := by
        rw [List.length_append, List.length_replicate]
        exact h.npix.trans (by omega)
      size := by
        rw [List.length_append, List.length_replicate]
        exact h.size.trans (by omega)
      prev := rfl
      cache := rfl
      phase := by
        show (if _ then _ else d.phase) = _
        rw [h.phase, if_neg (Nat.succ_ne_zero want)]
        exact if_congr full rfl rfl
      parsed := ⟨before ++ own, by rw [hstream, List.append_assoc], by
        rw [List.length_append, ← hspos]; exact count_add_toNat inStream⟩ }

/-- What a round of R151's loop that ends well has done. -/
theorem decodeFrom_succ_ok {fuel : Nat} {ps : List Pixel} {final : Mirror}
    (h : decodeFrom (fuel + 1) (want + 1) m left = .ok (ps, tail, final)) :
    ∃ i rest qs, decodeOp left = .ok (i, rest) ∧ (opEffect i m).2.1 ≤ want + 1 ∧
      decodeFrom fuel (want + 1 - (opEffect i m).2.1) ⟨(opEffect i m).1, (opEffect i m).2.2⟩ rest = .ok (qs, tail, final) ∧
      ps = List.replicate (opEffect i m).2.1 (opEffect i m).1 ++ qs := by
  simp only [decodeFrom] at h
  split at h
  · cases h
  · next i rest hd =>
    split at h
    · cases h
    · next hc =>
      split at h
      · cases h
      · next qs left' final' hq => cases h; exact ⟨i, rest, qs, hd, Nat.not_lt.1 hc, hq, rfl⟩

/-- The op steps of DEC are R151's loop. -/
theorem Decoder.Midway.ops {fuel : Nat} {ps : List Pixel} {final : Mirror} (s : State)
    (h : d.Midway stream md written m want left) (hf : want ≤ fuel)
    (hd : decodeFrom fuel want m left = .ok (ps, tail, final)) :
    ∃ n d', n ≤ want ∧ Reaches s n d d' ∧ d'.Midway stream md (written ++ ps) final 0 tail := by
  induction fuel generalizing d written m want left ps with
  | zero =>
    obtain rfl : want = 0 := by omega
    cases hd
    exact ⟨0, d, le_rfl, .refl s d, by rwa [List.append_nil]⟩
  | succ fuel ih =>
    cases want with
    | zero =>
      cases hd
      exact ⟨0, d, le_rfl, .refl s d, by rwa [List.append_nil]⟩
    | succ want =>
      obtain ⟨i, rest, qs, hi, hc, hq, rfl⟩ := decodeFrom_succ_ok hd
      obtain ⟨hw, hp, -⟩ := decodeOp_spec hi
      have pos : 1 ≤ (opEffect i m).2.1 := effect_pos hw hp
      obtain ⟨d₁, first, mid⟩ := h.op_step (s := s) hi hc
      obtain ⟨n, d₂, hn, more, fin⟩ := ih mid (by omega) hq
      exact ⟨1 + n, d₂, by omega, first.trans more, by rwa [← List.append_assoc]⟩

/-! ## The frame -/

/-- A decoded header used 14 bytes, which are all it needs (R73). -/
theorem decodeHeader_spec {bytes : List Byte} {i : Instr} (h : decodeHeader bytes = .ok (i, tail)) :
    ∃ own, own.length = 14 ∧ bytes = own ++ tail ∧ decodeHeader own = .ok (i, []) := by
  unfold decodeHeader at h
  split at h
  · next m0 m1 m2 m3 w0 w1 w2 w3 h0 h1 h2 h3 c s t =>
    cases h
    exact ⟨[m0, m1, m2, m3, w0, w1, w2, w3, h0, h1, h2, h3, c, s], rfl, rfl, rfl⟩
  · cases h

/-- A decoded footer used 8 bytes (R74). -/
theorem decodeFooter_length {bytes : List Byte} {i : Instr} (h : decodeFooter bytes = .ok (i, tail)) :
    bytes.length = 8 + tail.length := by
  unfold decodeFooter at h
  split at h
  · cases h; simp only [List.length_cons]; omega
  · cases h

/-- What an accepted header is (R112, R141). -/
theorem openHeader_ok {bytes : List Byte} (h : openHeader bytes = .ok (md, tail)) :
    legalMetadata md = true ∧ md.width.toNat * md.height.toNat ≠ 0 ∧
      decodeHeader bytes = .ok (.header Config.magic md.width md.height md.channels md.colorspace, tail) := by
  unfold openHeader at h
  split at h
  · next m w ht c cs rest hd =>
    split at h
    · cases h
    · next md' hr =>
      obtain ⟨rfl, hc, hs, rfl⟩ := readHeader_ok.1 hr
      split at h
      · cases h
      · next hz => cases h; exact ⟨by rw [legalMetadata, hc, hs]; rfl, hz, hd⟩
  · cases h
  · cases h

/-- A stream that ends well ends with the footer and nothing after it (R150). -/
theorem checkEnd_ok {bytes : List Byte} (h : checkEnd bytes = .ok ()) :
    decodeFooter bytes = .ok (.footer Config.footerMarker, []) := by
  unfold checkEnd at h
  split at h
  · next marker rest hd =>
    split at h
    · cases h
    · next hv =>
      split at h
      · next hr =>
        unfold verifyFooter at hv
        split at hv
        · next hm => rw [hd, hr, hm]
        · cases hv
      · cases h
  · cases h
  · cases h

/-- DEC once a header is accepted (R141). -/
def Decoder.opened (d : Decoder) (md : Metadata) : Decoder :=
  { d with
    width := md.width, height := md.height, channels := md.channels, colorspace := md.colorspace,
    npix := md.width.setWidth 64 * md.height.setWidth 64, spos := 14, phase := .body }

theorem execHeader_accepted (hp : s.dec.phase = .header) (hl : legalMetadata md = true)
    (hz : md.width.toNat * md.height.toNat ≠ 0) :
    exec (.header Config.magic md.width md.height md.channels md.colorspace) s =
      .next { s with dec := s.dec.opened md } := by
  obtain ⟨hc, hs⟩ : legalChannels md.channels = true ∧ legalColorspace md.colorspace = true := by
    simpa only [legalMetadata, Bool.and_eq_true] using hl
  have read : readHeader Config.magic md.width md.height md.channels md.colorspace = .ok md :=
    readHeader_ok.2 ⟨rfl, hc, hs, rfl⟩
  have nonzero : ¬ (md.width.setWidth 64 * md.height.setWidth 64 : Count) = 0 := fun h => hz ((size_eq_zero _ _).1 h)
  simp only [exec, execHeader, read, if_neg nonzero]
  exact commit_true s (decide_eq_true hp) _

theorem execFooter_accepted (hp : s.dec.phase = .footer) (hend : s.dec.spos.toNat + 8 = s.dec.slen.toNat) :
    exec (.footer Config.footerMarker) s =
      .next { s with dec := { s.dec with spos := s.dec.spos + 8, phase := .done } } := by
  have verified : verifyFooter Config.footerMarker = .ok () := if_pos rfl
  have last : ¬ s.dec.spos.toNat + 8 ≠ s.dec.slen.toNat := not_not_intro hend
  simp only [exec, execFooter, verified, if_neg last]
  exact commit_true s (decide_eq_true hp) _

/-- The header step of a call on a stream whose header is accepted. -/
theorem header_step (s : State) (draw : Nat) (h : d.Ready stream) (ho : openHeader stream = .ok (md, left)) :
    Reaches s 1 (d.start draw) ((d.start draw).opened md) ∧
      ((d.start draw).opened md).Midway stream md [] Mirror.start (md.width.toNat * md.height.toNat) left := by
  obtain ⟨hl, hz, hd⟩ := openHeader_ok ho
  obtain ⟨own, hlen, rfl, hown⟩ := decodeHeader_spec hd
  have read := Decoder.Ready.readN (before := []) h
  rw [List.length_nil, hlen] at read
  have presents : (d.start draw).Presents own .header :=
    ⟨rfl, hlen, by rw [Decoder.start_slen, h.slen, List.length_append]; omega, read⟩
  refine ⟨reach_exec (fetch_of_presents presents hown) fun t ht => ?_, ?_⟩
  · rw [execHeader_accepted (by rw [ht]; rfl) hl hz, ht]
  · exact {
      ready := ⟨h.stream, h.slen⟩
      metadata := rfl
      pixout := rfl
      opos := rfl
      npix := (size_toNat _ _).trans (Nat.zero_add _).symm
      size := (Nat.zero_add _).symm
      prev := rfl
      cache := rfl
      phase := (if_neg hz).symm
      parsed := ⟨own, rfl, hlen.symm⟩ }

/-- The footer step of a call whose stream ends well. -/
theorem Decoder.Midway.footer_step (s : State) (h : d.Midway stream md written m 0 left) (he : checkEnd left = .ok ()) :
    Reaches s 1 d { d with spos := d.spos + 8, phase := .done } := by
  have hd := checkEnd_ok he
  have hlen : left.length = 8 := decodeFooter_length hd
  obtain ⟨before, hstream, hspos⟩ := h.parsed
  have ready := h.ready
  rw [hstream, ← List.append_nil (before ++ left)] at ready
  have read := ready.readN
  have hend : d.spos.toNat + 8 = d.slen.toNat := by
    rw [hspos, ready.slen]; simp only [List.length_append, List.length_nil]; omega
  have presents : d.Presents left .footer := ⟨h.phase, hlen, hend.le, by rw [hspos]; rwa [hlen] at read⟩
  refine reach_exec (fetch_of_presents presents hd) fun t ht => ?_
  rw [execFooter_accepted (by rw [ht]; exact h.phase) (by rw [ht]; exact hend), ht]

/-- A whole decode call of DEC on a stream that decodes: at most NPIX + 2 turns after START it is DONE with the metadata,
the pixels and the mirror of the reference (R151, R153 (c)). -/
theorem decode_call {ps : List Pixel} {final : Mirror} (s : State) (draw : Nat) (h : d.Ready stream)
    (hd : decodeStream stream = .ok (md, ps, final)) :
    ∃ n d', n ≤ ps.length + 2 ∧ Reaches s n (d.start draw) d' ∧ d'.phase = .done ∧ d'.metadata = md ∧
      d'.pixout = Space.ofList ps ∧ d'.prev = final.prev ∧ d'.cache = final.cache := by
  simp only [decodeStream] at hd
  split at hd
  · cases hd
  · next md' body ho =>
    split at hd
    · cases hd
    · next qs left' final' hops =>
      split at hd
      · cases hd
      · next he =>
        cases hd
        obtain ⟨opened, mid⟩ := header_step s draw h ho
        obtain ⟨n, d₁, hn, walked, fin⟩ := mid.ops s le_rfl hops
        have count : md.width.toNat * md.height.toNat = ps.length := fin.size
        exact ⟨1 + (n + 1), _, by omega, opened.trans (walked.trans (fin.footer_step s he)), rfl, fin.metadata, fin.pixout,
          fin.prev, fin.cache⟩

end Sys2Proof.Machine
end

section
/-! PROOF of the statement about the round trip on the machine. -/

namespace Sys2Proof.Machine

/-- Settles O54: both calls are the reference's, and the reference's round trip joins them. -/
theorem machineRoundTrip : Obligations.MachineRoundTrip := by
  intro s md ps hready hl hne
  obtain ⟨encoded, hdone, hprev, hcache⟩ := encode_call hready hl hne rfl
  have ran := run_enc (ps.length + 3) s s.enc.start []
  rw [List.append_nil] at ran
  refine ⟨_, ran, hdone, fun u draw hu => ?_⟩
  obtain ⟨bytes, hbytes, decoded⟩ := referenceRoundTrip md ps hl (hready.size) hne
  cases hbytes.symm.trans encoded
  obtain ⟨n, d', -, reached, phase, metadata, pixout, prev, cache⟩ := decode_call u draw hu decoded
  have ran := reached []
  rw [List.append_nil] at ran
  exact ⟨n, _, ran, phase, by rw [pixout]; exact holds_ofList ps, by rw [pixout]; exact filledTo_ofList ps,
    metadata, prev.trans hprev.symm, cache.trans hcache.symm⟩

end Sys2Proof.Machine
end

section
/-! PROOF of the statement about the channel arithmetic of the ops. -/

namespace Sys2Proof.Machine

/-- A signed byte is at least -128 and at most 127 (R7). -/
theorem delta_toInt_range (d : Delta) : -128 ≤ d.toInt ∧ d.toInt ≤ 127 :=
  ⟨BitVec.le_toInt d, Int.le_of_lt_add_one (BitVec.toInt_lt (x := d))⟩

/-- Settles O8: the range is that of every signed byte, and both readings of `u8` keep the value mod 256. -/
theorem deltaArithmetic : Obligations.DeltaArithmetic := by
  intro cur prev
  obtain ⟨low, high⟩ := delta_toInt_range (delta cur prev)
  have congruent : (delta cur prev).toInt % 256 = ((cur.toNat : Int) - prev.toNat) % 256 := u8_toInt_mod _
  have wraps : ∀ d : Int, ((applyDelta prev d).toNat : Int) = ((prev.toNat : Int) + d) % 256 := fun _ => u8_toNat _
  exact ⟨⟨low, high, congruent⟩, wraps⟩

end Sys2Proof.Machine
end

section
/-! SUPPORT. The footer step of DEC: what its fetch answers on the 8 bytes and on fewer, and the outcomes that raise
(42_framecodec.md R113, 44_decoder.md R150). -/

namespace Sys2Proof.Machine

variable {s : State} {marker : BitVec 64}

/-! ## The 8 bytes of a footer (R74, R111) -/

/-- A footer's bytes decode to it, with nothing left over. -/
theorem decode_footer_be64 (marker : BitVec 64) : decode .footer (be64 marker) = .ok (.footer marker, []) :=
  decodeFooter_bytes marker []

/-- The bytes determine the word, since they decode to it. -/
theorem be64_injective : Function.Injective be64 := by
  intro v w hvw
  have decoded := decode_footer_be64 v
  rw [hvw, decode_footer_be64 w] at decoded
  cases decoded
  rfl

/-- The one word whose bytes are FOOTER. -/
theorem be64_eq_footer_iff : be64 marker = [0, 0, 0, 0, 0, 0, 0, 1] ↔ marker = Config.footerMarker := by
  have bytes : be64 Config.footerMarker = [0, 0, 0, 0, 0, 0, 0, 1] := by decide
  rw [← bytes, be64_injective.eq_iff]

/-! ## The fetch and the outcomes -/

/-- With fewer than 8 bytes left, the fetch itself raises (R150). -/
theorem fetch_footer_short {d : Decoder} (hp : d.phase = .footer) (hl : d.slen.toNat < d.spos.toNat + 8) :
    d.fetch = .raise .badFooter := by
  rw [fetch_footer hp, Decoder.fetchFooter, if_pos hl]

theorem execFooter_mismatch (hp : s.dec.phase = .footer) (hm : marker ≠ Config.footerMarker) :
    exec (.footer marker) s = .next { s with dec := s.dec.raise .badFooter } := by
  have rejected : verifyFooter marker = .error .badFooter := if_neg hm
  simp only [exec, execFooter, rejected]
  exact commit_true s (decide_eq_true hp) _

theorem execFooter_trailing (hp : s.dec.phase = .footer) (hmore : s.dec.spos.toNat + 8 ≠ s.dec.slen.toNat) :
    exec (.footer Config.footerMarker) s = .next { s with dec := s.dec.raise .trailingData } := by
  have verified : verifyFooter Config.footerMarker = .ok () := if_pos rfl
  simp only [exec, execFooter, verified, if_pos hmore]
  exact commit_true s (decide_eq_true hp) _

end Sys2Proof.Machine
end

section
/-! PROOFS of the statements about the round trip of the items and about the footer. -/

namespace Sys2Proof.Machine

/-- Settles O1: the round trip of every item, one lemma per row of the opcode table. -/
theorem wellFormedItemsRoundTrip : Obligations.WellFormedItemsRoundTrip := roundTrip

/-- Settles O19: a short stream raises in the fetch, a full one is fetched as the footer it holds, and the bytes are
FOOTER for one word alone. -/
theorem footerClosesTheCall : Obligations.FooterClosesTheCall := by
  refine ⟨fun s hm hp hl => ?short, fun marker s hm hpres => ?fetched,
    fun marker s hp => ⟨fun hne => ?mismatch, fun heq hmore => ?trailing, fun heq hend => ?accepted⟩⟩
  case short => exact step_of_raise hm (fetch_footer_short hp hl)
  case fetched => exact step_of_item hm (fetch_of_presents hpres (decode_footer_be64 marker))
  case mismatch => exact execFooter_mismatch hp (mt be64_eq_footer_iff.2 hne)
  case trailing =>
    obtain rfl := be64_eq_footer_iff.1 heq
    exact execFooter_trailing hp hmore
  case accepted =>
    obtain rfl := be64_eq_footer_iff.1 heq
    exact execFooter_accepted hp hend

end Sys2Proof.Machine
end

section
/-! SUPPORT. A step of the machine seen from one engine: what each agent's turn does to the invariant, and to PHASE
(43_encoder.md R121, R133, 44_decoder.md R149, R152, 60_exceptions.md R173, R180). -/

namespace Sys2Proof.Machine

variable {s t : State} {m : HostMove}

/-! ## The invariant -/

/-- A move of HOST keeps the invariant: a write is made only while the engine is not BUSY, where the invariant says
nothing of what is written. -/
theorem hostMove_inv (h : s.Inv) (hx : hostMove m s = .next t) : t.Inv where
  enc := by
    rcases hostMove_enc hx with same | ⟨notBusy, written⟩ | ⟨-, started, -⟩ | ⟨reset, -⟩
    · rw [same]; exact h.enc
    · exact encWrite_inv h.enc notBusy written
    · rw [started]; exact encStart_inv h.enc
    · rw [reset]; exact encReset_inv h.enc _
  dec := by
    rcases hostMove_dec hx with same | ⟨notBusy, written⟩ | ⟨-, started, -⟩ | ⟨reset, -⟩
    · rw [same]; exact h.dec
    · exact decWrite_inv h.dec notBusy written
    · rw [started]; exact decStart_inv h.dec _
    · rw [reset]; exact decReset_inv h.dec _

/-! ## PHASE -/

theorem EncWrite.phase {e e' : Encoder} (h : EncWrite e e') : e'.phase = e.phase := by
  rcases h with ⟨_, _, _, _, rfl⟩ | ⟨_, rfl⟩ <;> rfl

theorem DecWrite.phase {d d' : Decoder} (h : DecWrite d d') : d'.phase = d.phase := by
  rcases h with ⟨_, rfl⟩ | ⟨_, rfl⟩ <;> rfl

/-- START either begins a call or refuses it (R120). -/
theorem Encoder.start_phase (e : Encoder) : e.start.phase = .header ∨ e.start.phase = .error := by
  rcases encStart_cases e with ⟨c, -, refused⟩ | ⟨-, -, accepted⟩
  · rw [refused]; exact Or.inr rfl
  · rw [accepted]; exact Or.inl rfl

/-- A call that goes well does not move to ERROR. -/
theorem Phase.advance_ne_error {p q : Phase} (h : p.advance q = true) : q ≠ .error := by
  rintro rfl
  cases p <;> cases h

/-- How ENC's PHASE moves, in a state where ENC meets its invariant (R133, R180, R190). -/
theorem step_enc_phase (hinv : s.enc.Inv) (h : step s = .next t) :
    t.enc.phase = s.enc.phase ∨ (s.mover = .enc ∧ s.enc.phase.advance t.enc.phase = true) ∨
    (s.enc.phase.busy = false ∧ (∃ v : Byte, v.getLsbD 0 = true ∧ s.HostMakes (.writeECtrl v)) ∧
      (t.enc.phase = .header ∨ t.enc.phase = .error)) ∨
    (s.HostMakes .resetEnc ∧ t.enc.phase = .idle) := by
  rcases step_cases h with ⟨hm, -⟩ | ⟨hm, rfl⟩ | ⟨hm, ⟨-, rfl⟩ | ⟨m, rest, hq, hx⟩⟩
  · exact Or.inl (by rw [step_enc_of_dec hm h])
  · exact (encStep_advances hinv).imp_right fun adv => Or.inl ⟨hm, adv⟩
  · exact Or.inl rfl
  · rcases hostMove_enc hx with same | ⟨-, written⟩ | ⟨notBusy, started, v, hv, rfl⟩ | ⟨reset, rfl⟩
    · exact Or.inl (congrArg Encoder.phase same)
    · exact Or.inl written.phase
    · rw [started]
      exact Or.inr (Or.inr (Or.inl ⟨notBusy, ⟨v, hv, hm, rest, hq⟩, Encoder.start_phase _⟩))
    · rw [reset]
      exact Or.inr (Or.inr (Or.inr ⟨⟨hm, rest, hq⟩, rfl⟩))

/-- How DEC's PHASE moves in DEC's own turn (R152, R170). -/
theorem step_dec_phase_of_dec (hm : s.mover = .dec) (h : step s = .next t) :
    t.dec.phase = s.dec.phase ∨ s.dec.phase.advance t.dec.phase = true ∨
    (s.dec.phase.busy = true ∧ t.dec.phase = .error) := by
  cases hf : s.dec.fetch with
  | item i =>
    rw [step_of_item hm hf] at h
    obtain ⟨busy, ⟨c, -, rfl⟩ | stays | advances⟩ := dec_fetch_cases (s := s.popTurn) hf h
    · exact Or.inr (Or.inr ⟨busy, rfl⟩)
    · exact Or.inl stays
    · exact Or.inr (Or.inl advances)
  | raise c =>
    rw [step_of_raise hm hf] at h
    cases h
    exact Or.inr (Or.inr ⟨(fetch_raise hf).1, rfl⟩)
  | wait =>
    rw [step_of_wait hm hf] at h
    cases h
    exact Or.inl rfl

/-- How DEC's PHASE moves (R152, R180, R190). -/
theorem step_dec_phase (h : step s = .next t) :
    t.dec.phase = s.dec.phase ∨ (s.mover = .dec ∧ s.dec.phase.advance t.dec.phase = true) ∨
    (s.mover = .dec ∧ s.dec.phase.busy = true ∧ t.dec.phase = .error) ∨
    (s.dec.phase.busy = false ∧ (∃ v : Byte, v.getLsbD 0 = true ∧ s.HostMakes (.writeDCtrl v)) ∧
      t.dec.phase = .header) ∨
    (s.HostMakes .resetDec ∧ t.dec.phase = .idle) := by
  rcases step_cases h with ⟨hm, -⟩ | ⟨-, rfl⟩ | ⟨hm, ⟨-, rfl⟩ | ⟨m, rest, hq, hx⟩⟩
  · rcases step_dec_phase_of_dec hm h with stays | advances | raised
    · exact Or.inl stays
    · exact Or.inr (Or.inl ⟨hm, advances⟩)
    · exact Or.inr (Or.inr (Or.inl ⟨hm, raised⟩))
  · exact Or.inl rfl
  · exact Or.inl rfl
  · rcases hostMove_dec hx with same | ⟨-, written⟩ | ⟨notBusy, started, v, hv, rfl⟩ | ⟨reset, rfl⟩
    · exact Or.inl (congrArg Decoder.phase same)
    · exact Or.inl written.phase
    · rw [started]
      exact Or.inr (Or.inr (Or.inr (Or.inl ⟨notBusy, ⟨v, hv, hm, rest, hq⟩, rfl⟩)))
    · rw [reset]
      exact Or.inr (Or.inr (Or.inr (Or.inr ⟨⟨hm, rest, hq⟩, rfl⟩)))

end Sys2Proof.Machine
end

section
/-! PROOFS of the statements about the invariant and PHASE. -/

namespace Sys2Proof.Machine

/-- Settles O44: the turn of each agent keeps it, by the lemma of each update that the turn can make. -/
theorem stepKeepsTheInvariant : Obligations.StepKeepsTheInvariant := by
  intro s t hinv h
  rcases step_cases h with ⟨-, ⟨i, hf, hx⟩ | ⟨c, hf, rfl⟩ | ⟨-, rfl⟩⟩ | ⟨-, rfl⟩ | ⟨-, ⟨-, rfl⟩ | ⟨m, rest, -, hx⟩⟩
  · exact ⟨by rw [(exec_outside hx).enc]; exact hinv.enc, dec_fetch_inv (s := s.popTurn) hinv.dec hf hx⟩
  · exact ⟨hinv.enc, raise_inv hinv.dec (fetch_raise hf).2⟩
  · exact ⟨hinv.enc, hinv.dec⟩
  · exact ⟨encStep_inv hinv.enc, hinv.dec⟩
  · exact ⟨hinv.enc, hinv.dec⟩
  · exact hostMove_inv (s := { s.popTurn with hostq := rest }) ⟨hinv.enc, hinv.dec⟩ hx

/-- Settles O47: each engine's PHASE, agent by agent. -/
theorem phasesMoveForward : Obligations.PhasesMoveForward :=
  fun _ _ h => ⟨fun hinv => step_enc_phase hinv.enc h, step_dec_phase h⟩

/-- Settles O31: of the moves of PHASE only a START goes to ERROR, and START is not accepted while ENC is BUSY. -/
theorem encNeverRaisesAfterStart : Obligations.EncNeverRaisesAfterStart := by
  intro s t hinv h busy error
  rcases step_enc_phase hinv.enc h with stays | ⟨-, advances⟩ | ⟨notBusy, -⟩ | ⟨-, idle⟩
  · rw [← stays, error] at busy; cases busy
  · exact Phase.advance_ne_error advances error
  · rw [notBusy] at busy; cases busy
  · rw [idle] at error; cases error

end Sys2Proof.Machine
end

section
/-! SUPPORT. The literal op, choice by choice, and which ops could represent a pixel (43_encoder.md R126, R131). -/

namespace Sys2Proof.Machine

variable {px prev : Pixel} {cache : Cache} {dr dg db : Delta}

/-! ## The choices of `literalItem` -/

theorem literalItem_rgba (ha : px.a ≠ prev.a) : literalItem px prev = .rgba px.r px.g px.b px.a := if_neg ha

section SameAlpha

variable (ha : px.a = prev.a) (hr : dr = delta px.r prev.r) (hg : dg = delta px.g prev.g) (hb : db = delta px.b prev.b)
include ha hr hg hb

theorem literalItem_diff (fits : fitsDiff dr dg db = true) : literalItem px prev = .diff dr dg db := by
  subst hr hg hb
  exact (if_pos ha).trans (if_pos fits)

theorem literalItem_luma (misfit : fitsDiff dr dg db = false) (fits : fitsLuma dr dg db = true) :
    literalItem px prev = .luma dg (u8 (dr.toInt - dg.toInt)) (u8 (db.toInt - dg.toInt)) := by
  subst hr hg hb
  exact (if_pos ha).trans ((if_neg (ne_true_of_eq_false misfit)).trans (if_pos fits))

theorem literalItem_rgb (misfit : fitsDiff dr dg db = false) (misfit' : fitsLuma dr dg db = false) :
    literalItem px prev = .rgb px.r px.g px.b := by
  subst hr hg hb
  exact (if_pos ha).trans ((if_neg (ne_true_of_eq_false misfit)).trans (if_neg (ne_true_of_eq_false misfit')))

end SameAlpha

/-! ## Which ops could represent a pixel -/

/-- A delta op that gives the pixel adds the deltas of its channels, mod 256. -/
theorem delta_of_shiftPixel {x y z : Int} (h : shiftPixel prev x y z = px) :
    delta px.r prev.r = u8 x ∧ delta px.g prev.g = u8 y ∧ delta px.b prev.b = u8 z := by
  have channel : ∀ (p : Byte) (d : Int), delta (applyDelta p d) p = u8 d := fun p d =>
    delta_of_apply (apply_congr p (u8_toInt_mod d))
  subst h
  exact ⟨channel _ _, channel _ _, channel _ _⟩

/-- The wrapped difference of a wrapped sum gives the first summand back. -/
theorem s8_sub_of_u8_add (x y : Delta) : s8 ((u8 (y.toInt + x.toInt)).toInt - x.toInt) = y.toInt := by
  have wrapped : (u8 (y.toInt + x.toInt)).toInt % 256 = (y.toInt + x.toInt) % 256 := u8_toInt_mod _
  have congruent : u8 ((u8 (y.toInt + x.toInt)).toInt - x.toInt) = u8 y.toInt := (u8_eq_iff _ _).2 (by omega)
  rw [s8, congruent, byte_of_delta]

/-- A DIFF represents a pixel only if the deltas fit it (R99). -/
theorem fitsDiff_of_diff {x y z : Delta} (hw : (Instr.diff x y z).wellFormed = true)
    (h : (opEffect (.diff x y z) ⟨prev, cache⟩).1 = px) :
    fitsDiff (delta px.r prev.r) (delta px.g prev.g) (delta px.b prev.b) = true := by
  obtain ⟨hr, hg, hb⟩ := delta_of_shiftPixel h
  rw [hr, hg, hb, byte_of_delta, byte_of_delta, byte_of_delta]
  exact hw

/-- A LUMA represents a pixel only if the deltas fit it (R99). -/
theorem fitsLuma_of_luma {x y z : Delta} (hw : (Instr.luma x y z).wellFormed = true)
    (h : (opEffect (.luma x y z) ⟨prev, cache⟩).1 = px) :
    fitsLuma (delta px.r prev.r) (delta px.g prev.g) (delta px.b prev.b) = true := by
  obtain ⟨hr, hg, hb⟩ := delta_of_shiftPixel h
  rw [hr, hg, hb, byte_of_delta, fitsLuma, s8_sub_of_u8_add, s8_sub_of_u8_add]
  exact hw

/-- Of the ops other than INDEX only RGBA changes alpha (R143 to R148), and it carries its pixel whole. -/
theorem eq_rgba_of_alpha {i : Instr} (hp : i.position = .body) (hi : ∀ k, i ≠ .index k)
    (h : (opEffect i ⟨prev, cache⟩).1 = px) (ha : px.a ≠ prev.a) : i = .rgba px.r px.g px.b px.a := by
  subst h
  cases i with
  | rgba r g b a => rfl
  | rgb r g b => exact absurd rfl ha
  | run count => exact absurd rfl ha
  | index idx => exact absurd rfl (hi idx)
  | diff x y z => exact absurd rfl ha
  | luma x y z => exact absurd rfl ha
  | header m w h c s => cases hp
  | footer marker => cases hp

/-! ## The choices of `select` -/

theorem select_run (h : px = prev) : select px prev cache = .run := if_pos h

theorem select_index (h : px ≠ prev) (hh : lookup cache (hash px) = px) :
    select px prev cache = .op (.index (hash px)) := (if_neg h).trans (if_pos ((hit_iff cache px).2 hh))

theorem select_literal (h : px ≠ prev) (hh : lookup cache (hash px) ≠ px) :
    select px prev cache = .op (literalItem px prev) := (if_neg h).trans (if_neg (mt (hit_iff cache px).1 hh))

end Sys2Proof.Machine
end

section
/-! PROOF of the statement about the selection. -/

namespace Sys2Proof.Machine

/-- Settles O32: the choices of the selection one by one; an op passed over could not represent the pixel, since its
operands would be the deltas, which do not fit it. -/
theorem selectionFollowsThePriority : Obligations.SelectionFollowsThePriority := by
  refine fun px prev cache => ⟨select_run, select_index, fun hp hh => ⟨select_literal hp hh, ?_⟩⟩
  intro dr dg db hr hg hb
  have noDiff (misfit : fitsDiff dr dg db = false) (x y z : Delta) (hw : (Instr.diff x y z).wellFormed = true) :
      (opEffect (.diff x y z) ⟨prev, cache⟩).1 ≠ px := fun h => by
    subst hr hg hb
    rw [fitsDiff_of_diff hw h] at misfit; cases misfit
  have noLuma (misfit : fitsLuma dr dg db = false) (x y z : Delta) (hw : (Instr.luma x y z).wellFormed = true) :
      (opEffect (.luma x y z) ⟨prev, cache⟩).1 ≠ px := fun h => by
    subst hr hg hb
    rw [fitsLuma_of_luma hw h] at misfit; cases misfit
  refine ⟨fun ha => ⟨literalItem_rgba ha, fun i hpos _ hi h => eq_rgba_of_alpha hpos hi h ha⟩,
    fun ha fits => ?diff, fun ha misfit fits => ⟨?luma, noDiff misfit⟩,
    fun ha misfit misfit' => ⟨?rgb, noDiff misfit, noLuma misfit'⟩⟩
  case diff => exact literalItem_diff ha hr hg hb fits
  case luma => exact literalItem_luma ha hr hg hb misfit fits
  case rgb => exact literalItem_rgb ha hr hg hb misfit misfit'

end Sys2Proof.Machine
end

section
/-! SUPPORT. The steps of ENC in the claims' terms: START in its three outcomes, what a pixel step leaves, and the turn of
an engine without an enabled step (43_encoder.md R120, R123 to R126, R135). -/

namespace Sys2Proof.Machine

variable {s : State} {e : Encoder} {d : Decoder} {px : Pixel}

/-! ## START (R120) -/

theorem legalMetadata_iff (md : Metadata) : legalMetadata md = true ↔
    (md.channels.toNat = 3 ∨ md.channels.toNat = 4) ∧ (md.colorspace.toNat = 0 ∨ md.colorspace.toNat = 1) := by
  rw [legalMetadata, Bool.and_eq_true, legalChannels_iff, legalColorspace_iff]

theorem Encoder.start_of_illegal (h : ¬ legalMetadata e.metadata = true) : e.start = e.raise .badMeta := if_neg h

theorem Encoder.start_of_zero_size (hl : legalMetadata e.metadata = true) (hz : e.width.toNat * e.height.toNat = 0) :
    e.start = e.raise .zeroSize := (if_pos hl).trans (if_pos ((size_eq_zero _ _).2 hz))

theorem Encoder.start_of_legal (hl : legalMetadata e.metadata = true) (hz : e.width.toNat * e.height.toNat ≠ 0) :
    e.start = { e with
      npix := e.width.setWidth 64 * e.height.setWidth 64, prev := Config.startPixel, cache := Cache.zero, runCnt := 0,
      ppos := 0, err := .noError, sout := [], phase := .header } :=
  (if_pos hl).trans (if_neg (mt (size_eq_zero _ _).1 hz))

/-! ## The pixel step (R123, R124) -/

/-- A pixel step writes SOUT, RUN_CNT, CACHE, PREV and PPOS, and nothing else. -/
theorem Encoder.AtPixel.pixelDone {own : List Byte} {run : BitVec 6} {cache : Cache} (h : s.enc.AtPixel px) :
    PixelDone s { s.popTurn with enc := { s.enc with
      sout := s.enc.sout ++ own, runCnt := run, cache := cache, prev := px, ppos := s.enc.ppos + 1 } } px own where
  moved := ⟨rfl, rfl, rfl, rfl, rfl⟩
  config := ⟨rfl, rfl, rfl, rfl, rfl, rfl, rfl⟩
  phase := h.phase
  prev := rfl
  ppos := ppos_succ h.more
  sout := rfl

/-- ENC's turn at a pixel that equals PREV. -/
theorem step_of_runPixel {e' : Encoder} (hm : s.mover = .enc) (h : s.enc.AtPixel px) (hp : px = s.enc.prev)
    (hs : s.enc.runPixel px = .ok e') : step s = .next { s.popTurn with enc := e' } := by
  rw [step_of_enc hm, step_of_move ((move_atPixel h).trans ((if_pos hp).trans hs))]

/-- ENC's turn at a pixel that differs from PREV. -/
theorem step_of_otherPixel {e' : Encoder} (hm : s.mover = .enc) (h : s.enc.AtPixel px) (hp : px ≠ s.enc.prev)
    (hs : s.enc.otherPixel px = .ok e') : step s = .next { s.popTurn with enc := e' } := by
  rw [step_of_enc hm, step_of_move ((move_atPixel h).trans ((if_neg hp).trans hs))]

/-- The count of a pending run does not wrap below its bound (R11). -/
theorem runCnt_succ (h : e.runCnt.toNat < 61) : (e.runCnt + 1).toNat = e.runCnt.toNat + 1 := by
  rw [BitVec.toNat_add]
  exact Nat.mod_eq_of_lt (show e.runCnt.toNat + 1 < 64 by omega)

/-! ## An engine without an enabled step (R135) -/

/-- Without an enabled step ENC's own step changes nothing. -/
theorem Encoder.step_of_not_enabled (h : e.enabled = false) : e.step = e := by
  apply step_of_move
  unfold Encoder.enabled at h
  unfold Encoder.move
  cases hp : e.phase <;> simp only [hp] at h ⊢
  case header => cases h
  case footer => cases h
  case body =>
    split at h
    · next more =>
      have missing : Space.read e.pixin e.ppos.toNat = none := by simpa using h
      rw [if_pos more, missing]
    · next full => rw [if_neg full, if_neg (of_decide_eq_false h)]

/-- ENC waits when it is not BUSY. -/
theorem Encoder.not_enabled_of_not_busy (h : e.phase.busy = false) : e.enabled = false := by
  unfold Encoder.enabled
  cases hp : e.phase <;> rw [hp] at h
  case header | body | footer => cases h

/-- ENC waits for a pixel HOST has not supplied. -/
theorem Encoder.not_enabled_of_no_pixel (hp : e.phase = .body) (more : e.ppos.toNat < e.npix.toNat)
    (hr : Space.read e.pixin e.ppos.toNat = none) : e.enabled = false := by
  simp only [Encoder.enabled, hp, if_pos more, hr, Option.isSome_none]

/-- DEC waits when it is not BUSY. -/
theorem fetch_of_not_busy (h : d.phase.busy = false) : d.fetch = .wait := by
  unfold Decoder.fetch
  cases hp : d.phase <;> rw [hp] at h
  case header | body | footer => cases h

/-- DEC waits for a byte of the header that HOST has not supplied. -/
theorem fetch_header_wait (hp : d.phase = .header) (hl : 14 ≤ d.slen.toNat)
    (hr : ∃ j, j < 14 ∧ Space.read d.sin j = none) : d.fetch = .wait := by
  rw [fetch_header hp, Decoder.fetchHeader, if_neg (Nat.not_lt.2 hl)]
  obtain ⟨j, hj, missing⟩ := hr
  exact fetchBytes_wait ⟨j, hj, by rw [Nat.zero_add]; exact missing⟩

/-- DEC waits for an op's first byte. -/
theorem fetch_op_wait_first (hb : d.inBody = true) (hl : d.spos.toNat < d.slen.toNat)
    (hr : Space.read d.sin d.spos.toNat = none) : d.fetch = .wait := by
  rw [fetch_body hb, Decoder.fetchOp, if_neg (by omega), hr]

/-- DEC waits for the bytes of an op whose first byte is there. -/
theorem fetch_op_wait {b0 : Byte} (hb : d.inBody = true) (h0 : Space.read d.sin d.spos.toNat = some b0)
    (hl : d.spos.toNat + (classify b0).length ≤ d.slen.toNat)
    (hr : ∃ j, j < (classify b0).length ∧ Space.read d.sin (d.spos.toNat + j) = none) : d.fetch = .wait := by
  have needed : 0 < (classify b0).length := by
    obtain ⟨j, hj, -⟩ := hr
    omega
  rw [fetch_body hb, Decoder.fetchOp, if_neg (by omega), h0]
  exact (if_neg (Nat.not_lt.2 hl)).trans (fetchBytes_wait hr)

/-- DEC waits for a byte of the footer. -/
theorem fetch_footer_wait (hp : d.phase = .footer) (hl : d.spos.toNat + 8 ≤ d.slen.toNat)
    (hr : ∃ j, j < 8 ∧ Space.read d.sin (d.spos.toNat + j) = none) : d.fetch = .wait := by
  rw [fetch_footer hp, Decoder.fetchFooter, if_neg (Nat.not_lt.2 hl)]
  exact fetchBytes_wait hr

end Sys2Proof.Machine
end

section
/-! PROOFS of the statements about the steps of ENC, and about an engine that waits. -/

namespace Sys2Proof.Machine

/-- Settles O23: the two tests in their order, then the exact product of two 32-bit sizes. -/
theorem encStartInitialisesOrRefuses : Obligations.EncStartInitialisesOrRefuses := by
  intro e
  refine ⟨fun illegal => ?badMeta, fun hc hs hz => ?zeroSize, fun hc hs hz => ⟨_, size_toNat e.width e.height, ?accepted⟩⟩
  case badMeta =>
    rw [Encoder.start_of_illegal (mt (legalMetadata_iff _).1 illegal)]
    exact ⟨rfl, rfl, rfl⟩
  case zeroSize =>
    rw [Encoder.start_of_zero_size ((legalMetadata_iff _).2 ⟨hc, hs⟩) hz]
    exact ⟨rfl, rfl, rfl⟩
  case accepted => exact Encoder.start_of_legal ((legalMetadata_iff _).2 ⟨hc, hs⟩) hz

/-- Settles O24: the header step, in ENC's turn. -/
theorem encHeaderStepEmitsHeader : Obligations.EncHeaderStepEmitsHeader := by
  intro s hm hp
  rw [step_of_enc hm, step_of_header hp]
  rfl

/-- Settles O25: the run branch below 62 counts, at 62 it emits. -/
theorem encRunPixelCounts : Obligations.EncRunPixelCounts := by
  intro s px hm hat hp
  by_cases full : s.enc.runCnt.toNat = 61
  · refine ⟨_, step_of_runPixel hm hat hp (runPixel_full full), rfl, fun below => ?_, fun _ => ⟨hat.pixelDone, rfl⟩⟩
    omega
  · have below : s.enc.runCnt.toNat < 61 := Nat.lt_of_le_of_ne hat.run full
    refine ⟨_, step_of_runPixel hm hat hp (runPixel_count below), rfl, fun _ => ⟨?_, runCnt_succ below⟩,
      fun at61 => absurd at61 full⟩
    have done := hat.pixelDone (own := []) (run := s.enc.runCnt + 1) (cache := s.enc.cache)
    rwa [List.append_nil] at done

/-- Settles O26: the flush and the INDEX byte, which is the slot number zero-extended. -/
theorem encCacheHitEmitsIndex : Obligations.EncCacheHitEmitsIndex := by
  intro s px hm hat hp hh
  exact ⟨_, _, step_of_otherPixel hm hat hp (otherPixel_hit hat.run hh), BitVec.toNat_setWidth_of_le (by decide),
    hat.pixelDone, rfl, rfl⟩

/-- Settles O27: the flush, the store and the bytes of the literal op, read off for each of its choices. -/
theorem encCacheMissEmitsLiteral : Obligations.EncCacheMissEmitsLiteral := by
  intro s px hm hat hp hh
  obtain ⟨bytes, packed⟩ := encode_literal px s.enc.prev
  refine ⟨_, bytes, step_of_otherPixel hm hat hp (otherPixel_miss hat.run hh packed), hat.pixelDone, rfl,
    storedSlot_store _ _, fun ha => ?rgba, fun ha dr dg db hr hg hb =>
      ⟨fun fits => ?diff, fun misfit fits => ?luma, fun misfit misfit' => ?rgb⟩⟩
  case rgba => rw [literalItem_rgba ha] at packed; cases packed; rfl
  case diff => rwa [literalItem_diff ha hr hg hb fits] at packed
  case luma => rwa [literalItem_luma ha hr hg hb misfit fits] at packed
  case rgb => rw [literalItem_rgb ha hr hg hb misfit misfit'] at packed; cases packed; rfl

/-- Settles O28: the step at the end of the image, in ENC's turn. -/
theorem encEndOfImageFlushes : Obligations.EncEndOfImageFlushes := by
  intro s hm hp hend hr
  rw [step_of_enc hm, step_of_move (move_end hp hend hr)]

/-- Settles O29: the footer step, in ENC's turn. -/
theorem encFooterStepEnds : Obligations.EncFooterStepEnds := by
  intro s hm hp
  rw [step_of_enc hm, step_of_footer hp]
  rfl

/-- Settles O30: each missing input leaves ENC not enabled, or DEC's fetch waiting. -/
theorem starvedEngineWaits : Obligations.StarvedEngineWaits := by
  refine ⟨fun s hm starved => ?enc, fun s hm starved => ?dec⟩
  case enc =>
    have waits : s.enc.enabled = false := by
      rcases starved with hp | hp | hp | ⟨hp, more, hr⟩
      · exact Encoder.not_enabled_of_not_busy (by rw [hp]; rfl)
      · exact Encoder.not_enabled_of_not_busy (by rw [hp]; rfl)
      · exact Encoder.not_enabled_of_not_busy (by rw [hp]; rfl)
      · exact Encoder.not_enabled_of_no_pixel hp more hr
    exact ⟨waits, by rw [step_of_enc hm, Encoder.step_of_not_enabled waits]; rfl⟩
  case dec =>
    have waits : s.dec.fetch = .wait := by
      rcases starved with hp | hp | hp | ⟨hp, hl, hr⟩ | ⟨hb, hl, hr⟩ | ⟨hb, b0, h0, hl, hr⟩ | ⟨hp, hl, hr⟩
      · exact fetch_of_not_busy (by rw [hp]; rfl)
      · exact fetch_of_not_busy (by rw [hp]; rfl)
      · exact fetch_of_not_busy (by rw [hp]; rfl)
      · exact fetch_header_wait hp hl hr
      · exact fetch_op_wait_first hb hl hr
      · exact fetch_op_wait hb h0 hl hr
      · exact fetch_footer_wait hp hl hr
    exact ⟨decide_eq_false (not_not_intro waits), step_of_wait hm waits⟩

end Sys2Proof.Machine
end

section
/-! SUPPORT. The op step of DEC: the tests of the stream's length, what a first byte's value says of the op decoded, and
the op's effect as a whole (44_decoder.md R142 to R148). -/

namespace Sys2Proof.Machine

variable {s : State} {d : Decoder} {b0 b1 : Byte} {rest : List Byte}

/-! ## The stream ends before or inside an op (R142) -/

/-- No byte is left. -/
theorem fetch_op_at_end (hb : d.inBody = true) (hl : d.slen.toNat < d.spos.toNat + 1) : d.fetch = .raise .truncated := by
  rw [fetch_body hb, Decoder.fetchOp, if_pos hl]

/-- The first byte is there, and the stream ends before the op does. -/
theorem fetch_op_short (hb : d.inBody = true) (h0 : Space.read d.sin d.spos.toNat = some b0)
    (hl : d.slen.toNat < d.spos.toNat + (classify b0).length) : d.fetch = .raise .truncated := by
  by_cases atEnd : d.slen.toNat < d.spos.toNat + 1
  · exact fetch_op_at_end hb atEnd
  · rw [fetch_body hb, Decoder.fetchOp, if_neg atEnd, h0]
    exact if_pos hl

theorem opTruncates (k : OpKind) : OpTruncates k := by
  rintro s b0 hm hb h0 rfl hl
  exact step_of_raise hm (fetch_op_short hb h0 hl)

/-! ## What a first byte decodes to (R60, R97) -/

theorem decodeOp_of_run (h : classify b0 = .run) : decodeOp (b0 :: rest) = .ok (unpackRun b0, rest) := by
  simp only [decodeOp, h]

theorem decodeOp_of_index (h : classify b0 = .index) : decodeOp (b0 :: rest) = .ok (unpackIndex b0, rest) := by
  simp only [decodeOp, h]

theorem decodeOp_of_diff (h : classify b0 = .diff) : decodeOp (b0 :: rest) = .ok (unpackDiff b0, rest) := by
  simp only [decodeOp, h]

theorem decodeOp_of_luma (h : classify b0 = .luma) : decodeOp (b0 :: b1 :: rest) = .ok (unpackLuma b0 b1, rest) := by
  simp only [decodeOp, h]

/-! ## Its fields as numbers (R68) -/

/-- A field of a byte: `len` bits from bit `start` on. -/
theorem field_toNat (b : Byte) (start len : Nat) : (b.extractLsb' start len).toNat = b.toNat / 2 ^ start % 2 ^ len := by
  rw [BitVec.extractLsb'_toNat, Nat.shiftRight_eq_div_pow]

/-- The lowest `len` bits of a byte. -/
theorem lowField_toNat (b : Byte) (len : Nat) : (b.extractLsb' 0 len).toNat = b.toNat % 2 ^ len := by
  rw [field_toNat, pow_zero, Nat.div_one]

theorem highNibble_toNat (b : Byte) : (b.extractLsb' 4 4).toNat = b.toNat / 16 := by
  rw [field_toNat]
  exact Nat.mod_eq_of_lt (Nat.div_lt_of_lt_mul b.isLt)

/-- Subtracting the bias from a field of at most 7 bits is exact on signed bytes (R68). -/
theorem unbias_toInt {len : Nat} (field : BitVec len) (bias : Nat) (hlen : len ≤ 7) (hbias : bias ≤ 128) :
    (unbias field (BitVec.ofNat 8 bias)).toInt = (field.toNat : Int) - bias := by
  have small : field.toNat < 2 ^ 7 := field.isLt.trans_le (Nat.pow_le_pow_right two_pos hlen)
  have signed := BitVec.toInt_eq_toNat_cond (unbias field (BitVec.ofNat 8 bias))
  have wrapped : (unbias field (BitVec.ofNat 8 bias)).toNat = (2 ^ 8 - bias % 2 ^ 8 + field.toNat % 2 ^ 8) % 2 ^ 8 := by
    rw [unbias, BitVec.toNat_sub, BitVec.toNat_ofNat, BitVec.toNat_setWidth]
  split at signed <;> omega

/-- The count that a RUN byte names: its low six bits plus 1 (R65, R97). -/
theorem run_field_toNat (b : Byte) : ((b.extractLsb' 0 6).setWidth 8 + 1#8).toNat = b.toNat % 64 + 1 := by
  have field : (b.extractLsb' 0 6).toNat = b.toNat % 64 := lowField_toNat b 6
  rw [BitVec.toNat_add, BitVec.toNat_setWidth, field, BitVec.toNat_ofNat]
  omega

/-! ## The pixel of a delta op (R100, R147, R148) -/

theorem applyDelta_toNat (prev : Byte) (d : Int) : ((applyDelta prev d).toNat : Int) = ((prev.toNat : Int) + d) % 256 :=
  u8_toNat _

/-! ## The effect as a whole (R142) -/

/-- What an op step leaves, whichever op it is. -/
theorem opDone_afterOp (px : Pixel) {cnt : Nat} (len : Nat) (cache : Cache) (hb : s.dec.inBody = true)
    (h : s.dec.opos.toNat + cnt ≤ s.dec.npix.toNat) :
    OpDone s { s with dec := afterOp s.dec px cnt len cache } px len cnt where
  outside := sameOutsideDec_with s _
  config := ⟨rfl, rfl, rfl, rfl, rfl, rfl, rfl, rfl⟩
  prev := rfl
  pixels := storedRun_fill _ _ _ _
  advanced := ⟨rfl, count_add_toNat h, by rw [← ((inBody_iff _).1 hb).1]; rfl⟩

/-- An op that stores its pixel, in BODY: it writes the pixel once and nothing is refused. -/
theorem commit_literal (px : Pixel) (len : Nat) (hb : s.dec.inBody = true) :
    ∃ t, commit s s.dec.inBody (s.dec.literal px len) = .next t ∧ OpDone s t px len 1 ∧
      StoredSlot s.dec.cache t.dec.cache px :=
  ⟨_, commit_true s hb _, opDone_literal px len hb, storedSlot_store s.dec.cache px⟩

/-- An op that adds integer deltas to PREV: each channel of its pixel wraps once, and alpha is kept (R147, R148). -/
theorem commit_shift (dr dg db : Int) (len : Nat) (hb : s.dec.inBody = true) :
    ∃ (t : State) (px : Pixel),
      commit s s.dec.inBody (s.dec.literal (shiftPixel s.dec.prev dr dg db) len) = .next t ∧
      (px.r.toNat : Int) = (s.dec.prev.r.toNat + dr) % 256 ∧ (px.g.toNat : Int) = (s.dec.prev.g.toNat + dg) % 256 ∧
      (px.b.toNat : Int) = (s.dec.prev.b.toNat + db) % 256 ∧ px.a = s.dec.prev.a ∧
      OpDone s t px len 1 ∧ StoredSlot s.dec.cache t.dec.cache px := by
  obtain ⟨t, executed, done, stored⟩ := commit_literal (shiftPixel s.dec.prev dr dg db) len hb
  exact ⟨t, shiftPixel s.dec.prev dr dg db, executed, applyDelta_toNat s.dec.prev.r dr, applyDelta_toNat s.dec.prev.g dg,
    applyDelta_toNat s.dec.prev.b db, rfl, done, stored⟩

/-- Presented bytes of an op whose pixels fit: DEC's turn is the op's effect. -/
theorem step_of_op {bytes : List Byte} {i : Instr} {px : Pixel} {cnt : Nat} {cache : Cache} (hm : s.mover = .dec)
    (hpres : s.dec.Presents bytes .body) (hd : decodeOp bytes = .ok (i, []))
    (heff : opEffect i ⟨s.dec.prev, s.dec.cache⟩ = (px, cnt, cache))
    (fits : s.dec.opos.toNat + cnt ≤ s.dec.npix.toNat) :
    step s = .next { s.popTurn with dec := afterOp s.dec px cnt bytes.length cache } := by
  obtain ⟨-, hp, own, he, rfl⟩ := decodeOp_spec hd
  rw [step_of_item hm (fetch_of_presents hpres hd), exec_op hp he s.popTurn s.dec rfl hpres.1, heff,
    if_neg (Nat.not_lt.2 fits), List.append_nil]

end Sys2Proof.Machine
end

section
/-! PROOFS of the statements about the six ops and the op step. -/

namespace Sys2Proof.Machine

/-- Settles O22: the two tests in the fetch, then the op's effect, whose counters do not wrap since the op lies in the
stream and its pixels in the image. -/
theorem opStepFetchesExecutesAdvances : Obligations.OpStepFetchesExecutesAdvances := by
  refine fun s hm hb =>
    ⟨fun hl => ?atEnd, fun b0 h0 hl => ?inside, fun bytes i px cnt cache hpres hd heff fits => ?effect⟩
  case atEnd => exact step_of_raise hm (fetch_op_at_end hb hl)
  case inside => exact step_of_raise hm (fetch_op_short hb h0 hl)
  case effect =>
    have done := opDone_afterOp (s := s.popTurn) px bytes.length cache hb fits
    have ⟨_, inStream, _⟩ := hpres
    exact ⟨_, step_of_op hm hpres hd heff fits, rfl, done.config, rfl, rfl, count_add_toNat inStream,
      done.advanced.opos, done.pixels, fun full => done.advanced.phase.trans (if_pos full),
      fun more => done.advanced.phase.trans (if_neg more)⟩

/-- Settles O12: the payload bytes are decoded as they stand, and the op stores and writes them. -/
theorem rgbaWritesItsPixel : Obligations.RgbaWritesItsPixel :=
  ⟨fun _ _ _ _ _ => rfl, fun r g b a _ hb => commit_literal ⟨r, g, b, a⟩ 5 hb, opTruncates .rgba⟩

/-- Settles O13: as RGBA, with the alpha of PREV in the pixel stored and written. -/
theorem rgbInheritsAlpha : Obligations.RgbInheritsAlpha :=
  ⟨fun _ _ _ _ => rfl, fun r g b s hb => commit_literal ⟨r, g, b, s.dec.prev.a⟩ 4 hb, opTruncates .rgb⟩

/-- Settles O14: the count is the byte's field plus 1, and the test of the room left comes before the write. -/
theorem runRepeatsPrevOrOverruns : Obligations.RunRepeatsPrevOrOverruns := by
  refine ⟨fun b0 rest low high => ⟨_, decodeOp_of_run (classify_eq_run low high), run_field_toNat b0⟩,
    fun count s hb fits => ⟨_, ?fits, opDone_replay _ _ hb fits, rfl⟩, fun count s hb overruns => ?overrun⟩
  case fits => exact (commit_true s hb _).trans (by rw [if_neg (Nat.not_lt.2 fits)])
  case overrun => exact (commit_true s hb _).trans (by rw [if_pos overruns])

/-- Settles O15: the slot's number is the whole byte, and the op replays the slot without a store. -/
theorem indexReplaysTheSlot : Obligations.IndexReplaysTheSlot := by
  refine ⟨fun b0 rest high => ⟨_, decodeOp_of_index (classify_eq_index high), ?slot⟩,
    fun idx s hb => ⟨_, commit_true s hb _, opDone_replay _ _ hb ((inBody_iff _).1 hb).2, rfl⟩⟩
  case slot =>
    rw [lowField_toNat]
    exact Nat.mod_eq_of_lt (Nat.lt_succ_of_le high)

/-- Settles O16: three 2-bit fields less 2, each added to its channel with wraparound. -/
theorem diffAddsToPrev : Obligations.DiffAddsToPrev := by
  refine ⟨fun b0 rest low high => ⟨_, _, _, decodeOp_of_diff (classify_eq_diff low high), ?dr, ?dg, ?db⟩,
    fun dr dg db _ hb => commit_shift dr.toInt dg.toInt db.toInt 1 hb⟩
  case dr => rw [unbias_toInt _ 2 (by decide) (by decide), field_toNat]; rfl
  case dg => rw [unbias_toInt _ 2 (by decide) (by decide), field_toNat]; rfl
  case db => rw [unbias_toInt _ 2 (by decide) (by decide), lowField_toNat]; rfl

/-- Settles O17: a 6-bit field less 32 and two nibbles less 8, whose sums are formed on integers before they wrap. -/
theorem lumaAddsToPrev : Obligations.LumaAddsToPrev := by
  refine ⟨fun b0 b1 rest low high => ⟨_, _, _, decodeOp_of_luma (classify_eq_luma low high), ?dg, ?drg, ?dbg⟩,
    fun dg drg dbg _ hb => commit_shift (drg.toInt + dg.toInt) dg.toInt (dbg.toInt + dg.toInt) 2 hb, opTruncates .luma⟩
  case dg => rw [unbias_toInt _ 32 (by decide) (by decide), lowField_toNat]; rfl
  case drg => rw [unbias_toInt _ 8 (by decide) (by decide), highNibble_toNat]; rfl
  case dbg => rw [unbias_toInt _ 8 (by decide) (by decide), lowField_toNat]; rfl

end Sys2Proof.Machine
end

section
/-! SUPPORT. START and the header step of DEC: the CTRL write that starts a call, the fetch of the 14 bytes, and the
outcomes of HEADER that raise (44_decoder.md R140, R141, 60_exceptions.md R180). -/

namespace Sys2Proof.Machine

variable {s : State} {m w h : BitVec 32} {c cs : Byte}

/-- A CTRL write with bit 0 set performs START while DEC is not BUSY. -/
theorem step_of_startDec {v : Byte} {rest : List HostMove} (hm : s.mover = .host) (hq : s.hostq = .writeDCtrl v :: rest)
    (hv : v.getLsbD 0 = true) (notBusy : s.dec.phase.busy = false) :
    step s = .next { s.popTurn with hostq := rest, dec := s.dec.start s.freeIx, freeIx := s.freeIx + 1 } := by
  rw [step_of_hostMove hm hq]
  exact (if_neg (ne_true_of_eq_false notBusy)).trans (if_pos hv)

/-- With fewer than 14 bytes in the stream, the fetch itself raises. -/
theorem fetch_header_short {d : Decoder} (hp : d.phase = .header) (hl : d.slen.toNat < 14) :
    d.fetch = .raise .truncated := by
  rw [fetch_header hp, Decoder.fetchHeader, if_pos hl]

/-- A header's bytes decode to it, with nothing left over. -/
theorem decode_header_be32 (m w h : BitVec 32) (c cs : Byte) :
    decode .header (be32 m ++ be32 w ++ be32 h ++ [c, cs]) = .ok (.header m w h c cs, []) :=
  decodeHeader_bytes m w h c cs []

/-! ## The checks in their order (R112) -/

theorem readHeader_badMagic (hm : m ≠ Config.magic) : readHeader m w h c cs = .error .badMagic := if_pos hm

theorem readHeader_badChannels (hc : ¬ (c.toNat = 3 ∨ c.toNat = 4)) :
    readHeader Config.magic w h c cs = .error .badChannels := by
  have illegal : legalChannels c = false := Bool.eq_false_iff.2 (mt (legalChannels_iff c).1 hc)
  rw [readHeader, if_neg (not_not_intro rfl), if_pos illegal]

theorem readHeader_badColorspace (hc : c.toNat = 3 ∨ c.toNat = 4) (hs : ¬ (cs.toNat = 0 ∨ cs.toNat = 1)) :
    readHeader Config.magic w h c cs = .error .badColorspace := by
  have legal : ¬ legalChannels c = false := ne_false_of_eq_true ((legalChannels_iff c).2 hc)
  have illegal : legalColorspace cs = false := Bool.eq_false_iff.2 (mt (legalColorspace_iff cs).1 hs)
  rw [readHeader, if_neg (not_not_intro rfl), if_neg legal, if_pos illegal]

/-- HEADER raises what its checks answer. -/
theorem execHeader_rejected {cause : Cause} (hp : s.dec.phase = .header) (hr : readHeader m w h c cs = .error cause) :
    exec (.header m w h c cs) s = .next { s with dec := s.dec.raise cause } := by
  simp only [exec, execHeader, hr]
  exact commit_true s (decide_eq_true hp) _

/-- The size is tested after the checks. -/
theorem execHeader_zero_size (hp : s.dec.phase = .header) (hc : c.toNat = 3 ∨ c.toNat = 4)
    (hs : cs.toNat = 0 ∨ cs.toNat = 1) (hz : w.toNat * h.toNat = 0) :
    exec (.header Config.magic w h c cs) s = .next { s with dec := s.dec.raise .zeroSize } := by
  have read : readHeader Config.magic w h c cs = .ok ⟨w, h, c, cs⟩ :=
    readHeader_ok.2 ⟨rfl, (legalChannels_iff c).2 hc, (legalColorspace_iff cs).2 hs, rfl⟩
  simp only [exec, execHeader, read, if_pos ((size_eq_zero w h).2 hz)]
  exact commit_true s (decide_eq_true hp) _

end Sys2Proof.Machine
end

section
/-! PROOFS of the statements about START and the header step of DEC. -/

namespace Sys2Proof.Machine

/-- Settles O18: the length in the fetch, the checks in HEADER's own order, and the exact product of two 32-bit sizes. -/
theorem headerOpensTheBody : Obligations.HeaderOpensTheBody := by
  refine ⟨fun s hm hp hl => step_of_raise hm (fetch_header_short hp hl),
    fun m w h c cs s hm hpres => step_of_item hm (fetch_of_presents hpres (decode_header_be32 m w h c cs)),
    fun m w h c cs s hp => ⟨fun hm => ?magic, ?channels, ?colorspace, ?size, ?accepted⟩⟩
  case magic => exact execHeader_rejected hp (readHeader_badMagic hm)
  case channels =>
    rintro rfl hc
    exact execHeader_rejected hp (readHeader_badChannels hc)
  case colorspace =>
    rintro rfl hc hs
    exact execHeader_rejected hp (readHeader_badColorspace hc hs)
  case size =>
    rintro rfl hc hs hz
    exact execHeader_zero_size hp hc hs hz
  case accepted =>
    rintro rfl hc hs hz
    exact ⟨_, size_toNat w h, execHeader_accepted (md := ⟨w, h, c, cs⟩) hp ((legalMetadata_iff _).2 ⟨hc, hs⟩) hz⟩

/-- Settles O33: START's registers are what the update writes; the cache is read slot by slot. -/
theorem decStartInitialises : Obligations.DecStartInitialises :=
  fun _ _ _ hm hq hv notBusy =>
    ⟨_, step_of_startDec hm hq hv notBusy, rfl, rfl, rfl, rfl, lookup_zero, rfl, rfl, fun _ => rfl, rfl, rfl, rfl, rfl⟩

end Sys2Proof.Machine
end

section
/-! SUPPORT. Errors: what `raise` leaves, what ERR shows, the CTRL write in every phase, and a step of the machine seen
from ENC, in every state (60_exceptions.md R160, R161, R170, R171, R173, R180). -/

namespace Sys2Proof.Machine

variable {s t : State}

/-! ## `raise` (R170, R171) and the fields of ERR (R22, R160, R161) -/

/-- After `raise` ENC is in ERROR, so it has no enabled step and no result. -/
theorem Encoder.raise_stops (e : Encoder) (c : Cause) :
    (e.raise c).enabled = false ∧ (e.raise c).step = e.raise c ∧ (e.raise c).result = none := by
  have waits : (e.raise c).enabled = false := Encoder.not_enabled_of_not_busy rfl
  exact ⟨waits, Encoder.step_of_not_enabled waits, Encoder.result_of_not_done (by rw [Encoder.raise_phase]; decide)⟩

/-- After `raise` DEC is in ERROR, so its fetch waits and it has no result. -/
theorem Decoder.raise_stops (d : Decoder) (c : Cause) :
    (d.raise c).enabled = false ∧ (d.raise c).fetch = .wait ∧ (d.raise c).result = none := by
  have waits : (d.raise c).fetch = .wait := fetch_of_not_busy rfl
  exact ⟨decide_eq_false (not_not_intro waits), waits, Decoder.result_of_not_done (by rw [Decoder.raise_phase]; decide)⟩

/-- Bits 3:0 of ERR are CAUSE. -/
theorem errByte_toNat_mod (c : Cause) : (errByte c).toNat % 16 = (causeCode c).toNat := by
  cases c <;> rfl

/-- The bits of ERR above CAUSE are KIND. -/
theorem errByte_toNat_div (c : Cause) : (errByte c).toNat / 16 = (kindCode (kindOf c)).toNat := by
  cases c <;> rfl

/-- The kinds are ranges of the table's rows. -/
theorem kindOf_by_code (c : Cause) :
    (kindOf c = .formatError ↔ 1 ≤ (causeCode c).toNat ∧ (causeCode c).toNat ≤ 6) ∧
    (kindOf c = .bufferOverrun ↔ (causeCode c).toNat = 7) ∧
    (kindOf c = .invalidArgument ↔ 8 ≤ (causeCode c).toNat) ∧ (causeCode c).toNat ≤ 10 := by
  cases c <;> decide

/-! ## The CTRL write (R180) -/

/-- The phases that are not BUSY (R15). -/
theorem Phase.not_busy_iff (p : Phase) : p.busy = false ↔ p = .idle ∨ p = .done ∨ p = .error := by
  cases p <;> simp [Phase.busy]

/-- A CTRL write with bit 0 set performs START while ENC is not BUSY. -/
theorem step_of_startEnc {v : Byte} {rest : List HostMove} (hm : s.mover = .host) (hq : s.hostq = .writeECtrl v :: rest)
    (hv : v.getLsbD 0 = true) (notBusy : s.enc.phase.busy = false) :
    step s = .next { s.popTurn with hostq := rest, enc := s.enc.start } := by
  rw [step_of_hostMove hm hq]
  exact (if_neg (ne_true_of_eq_false notBusy)).trans (if_pos hv)

/-- A write of ENC.CTRL has no step while ENC is BUSY. -/
theorem step_of_writeECtrl_busy {v : Byte} {rest : List HostMove} (hm : s.mover = .host)
    (hq : s.hostq = .writeECtrl v :: rest) (busy : s.enc.phase.busy = true) : step s = .refused .startWhileBusy := by
  rw [step_of_hostMove hm hq]
  exact if_pos busy

/-- A write of DEC.CTRL has no step while DEC is BUSY. -/
theorem step_of_writeDCtrl_busy {v : Byte} {rest : List HostMove} (hm : s.mover = .host)
    (hq : s.hostq = .writeDCtrl v :: rest) (busy : s.dec.phase.busy = true) : step s = .refused .startWhileBusy := by
  rw [step_of_hostMove hm hq]
  exact if_pos busy

/-! ## Into ERROR and out of it (R171, R173) -/

/-- A call goes on only from a BUSY phase. -/
theorem Phase.busy_of_advance {p q : Phase} (h : p.advance q = true) : p.busy = true := by
  cases p with
  | header | body | footer => rfl
  | idle | done | error => cases q <;> cases h

/-- What any step does to ENC, whether or not ENC meets its invariant: it leaves PHASE, or it is ENC's own step, START
or hardware reset. -/
theorem step_enc_cases (h : step s = .next t) :
    t.enc.phase = s.enc.phase ∨ t.enc = s.enc.step ∨
    (t.enc = s.enc.start ∧ ∃ v : Byte, v.getLsbD 0 = true ∧ s.HostMakes (.writeECtrl v)) ∨
    (t.enc.phase = .idle ∧ s.HostMakes .resetEnc) := by
  rcases step_cases h with ⟨hm, -⟩ | ⟨-, rfl⟩ | ⟨hm, ⟨-, rfl⟩ | ⟨m, rest, hq, hx⟩⟩
  · exact Or.inl (by rw [step_enc_of_dec hm h])
  · exact Or.inr (Or.inl rfl)
  · exact Or.inl rfl
  · rcases hostMove_enc hx with same | ⟨-, written⟩ | ⟨-, started, v, hv, rfl⟩ | ⟨reset, rfl⟩
    · exact Or.inl (congrArg Encoder.phase same)
    · exact Or.inl written.phase
    · exact Or.inr (Or.inr (Or.inl ⟨started, v, hv, hm, rest, hq⟩))
    · exact Or.inr (Or.inr (Or.inr ⟨by rw [reset]; rfl, hm, rest, hq⟩))

/-- A START that does not begin a call raises, with nothing else written (R120, R172). -/
theorem Encoder.start_refused {e : Encoder} (h : e.start.phase ≠ .header) : ∃ c, c ≠ .noError ∧ e.start = e.raise c := by
  rcases encStart_cases e with refused | ⟨-, -, accepted⟩
  · exact refused
  · exact absurd (by rw [accepted]) h

/-- A step of ENC that fails raises, with nothing else written. -/
theorem Encoder.step_failed {e : Encoder} (alive : e.phase ≠ .error) (failed : e.step.phase = .error) :
    ∃ c, c ≠ .noError ∧ e.step = e.raise c := by
  rcases encStep_cases e with raised | stays | advances
  · exact raised
  · exact absurd (stays.symm.trans failed) alive
  · exact absurd failed (Phase.advance_ne_error advances)

/-- A turn of DEC that fails raises, with nothing else written: the error is the fetch's or the item's own. -/
theorem step_dec_failed (hm : s.mover = .dec) (h : step s = .next t) (alive : s.dec.phase ≠ .error)
    (failed : t.dec.phase = .error) : ∃ c, c ≠ .noError ∧ t.dec = s.dec.raise c := by
  cases hf : s.dec.fetch with
  | item i =>
    rw [step_of_item hm hf] at h
    obtain ⟨-, ⟨c, hc, rfl⟩ | stays | advances⟩ := dec_fetch_cases (s := s.popTurn) hf h
    · exact ⟨c, hc, rfl⟩
    · exact absurd (stays.symm.trans failed) alive
    · exact absurd failed (Phase.advance_ne_error advances)
  | raise c =>
    rw [step_of_raise hm hf] at h
    cases h
    exact ⟨c, (fetch_raise hf).2, rfl⟩
  | wait =>
    rw [step_of_wait hm hf] at h
    cases h
    exact absurd failed alive

end Sys2Proof.Machine
end

section
/-! PROOFS of the statements about errors and about the CTRL write. -/

namespace Sys2Proof.Machine

/-- Settles O40: an engine in ERROR is not BUSY, so it neither steps nor advances; what is left is START, by a CTRL write
with bit 0 set, and hardware reset. -/
theorem errorEndsOnlyByStart : Obligations.ErrorEndsOnlyByStart := by
  refine ⟨fun s t h error left => ?enc, fun s t h error left => ?dec⟩
  case enc =>
    rcases step_enc_cases h with stays | own | ⟨-, v, hv, hm, rest, hq⟩ | ⟨-, hm, rest, hq⟩
    · exact absurd (stays.trans error) left
    · rw [Encoder.step_of_not_enabled (Encoder.not_enabled_of_not_busy (by rw [error]; rfl))] at own
      exact absurd (by rw [own, error]) left
    · exact ⟨hm, rest, Or.inr ⟨v, hv, hq⟩⟩
    · exact ⟨hm, rest, Or.inl hq⟩
  case dec =>
    have notBusy : s.dec.phase.busy ≠ true := by rw [error]; decide
    rcases step_dec_phase h with
      stays | ⟨-, advances⟩ | ⟨-, busy, -⟩ | ⟨-, ⟨v, hv, hm, rest, hq⟩, -⟩ | ⟨⟨hm, rest, hq⟩, -⟩
    · exact absurd (stays.trans error) left
    · exact absurd (Phase.busy_of_advance advances) notBusy
    · exact absurd busy notBusy
    · exact ⟨hm, rest, Or.inr ⟨v, hv, hq⟩⟩
    · exact ⟨hm, rest, Or.inl hq⟩

/-- Settles O56: only an engine's own turn and ENC's START go to ERROR, and each of them raises before it writes. -/
theorem errorsWriteNothingOfTheirOwn : Obligations.ErrorsWriteNothingOfTheirOwn := by
  refine ⟨fun s t h alive failed => ?enc, fun s t h alive failed => ?dec, fun e => Encoder.start_refused⟩
  case enc =>
    rcases step_enc_cases h with stays | own | ⟨started, -⟩ | ⟨idle, -⟩
    · exact absurd (stays.symm.trans failed) alive
    · rw [own] at failed ⊢
      exact Encoder.step_failed alive failed
    · rw [started] at failed ⊢
      exact Encoder.start_refused (by rw [failed]; decide)
    · rw [idle] at failed; cases failed
  case dec =>
    rcases step_dec_phase h with stays | ⟨-, advances⟩ | ⟨hm, -⟩ | ⟨-, -, header⟩ | ⟨-, idle⟩
    · exact absurd (stays.symm.trans failed) alive
    · exact absurd failed (Phase.advance_ne_error advances)
    · exact step_dec_failed hm h alive failed
    · rw [header] at failed; cases failed
    · rw [idle] at failed; cases failed

/-- Settles O34: BUSY is what the three accepting phases lack and the three others have. -/
theorem startIsAcceptedUnlessBusy : Obligations.StartIsAcceptedUnlessBusy :=
  fun _ _ _ hm hv =>
    ⟨fun hq => ⟨fun hp => step_of_startEnc hm hq hv ((Phase.not_busy_iff _).2 hp),
      fun hp => step_of_writeECtrl_busy hm hq ((Phase.busy_iff _).2 hp)⟩,
    fun hq => ⟨fun hp => step_of_startDec hm hq hv ((Phase.not_busy_iff _).2 hp),
      fun hp => step_of_writeDCtrl_busy hm hq ((Phase.busy_iff _).2 hp)⟩⟩

/-- Settles O39: an engine in ERROR is not BUSY, so it has stopped; the tables of codes and kinds by computation. -/
theorem raiseRecordsAndStops : Obligations.RaiseRecordsAndStops :=
  ⟨fun c => ⟨fun e => ⟨rfl, rfl, rfl, e.raise_stops c⟩, fun d => ⟨rfl, rfl, rfl, d.raise_stops c⟩,
    errByte_toNat_mod c, errByte_toNat_div c, kindOf_by_code c⟩, by decide, by decide, by decide⟩

end Sys2Proof.Machine
end

section
/-! PROOFS of the statement about what START forgets (70_reset_and_hazards.md R191, R199). -/

namespace Sys2Proof.Machine

variable {s t : State} {e e' : Encoder} {d d' : Decoder}

/-! ## ENC: an accepted START -/

/-- START is accepted only on legal metadata of a size that is not 0 (R120). -/
theorem Encoder.legal_of_start_accepted (accepted : e.start.phase = .header) :
    legalMetadata e.metadata = true ∧ e.width.toNat * e.height.toNat ≠ 0 := by
  rcases encStart_cases e with ⟨c, -, refused⟩ | ⟨legal, nonzero, -⟩
  · rw [refused] at accepted; cases accepted
  · exact ⟨legal, nonzero⟩

/-- An accepted START keeps the configuration and PIXIN and writes all the rest, by the configuration alone. -/
theorem Encoder.start_congr (metadata : e.metadata = e'.metadata) (pixin : e.pixin = e'.pixin)
    (accepted : e.start.phase = .header) : e.start = e'.start := by
  obtain ⟨legal, nonzero⟩ := Encoder.legal_of_start_accepted accepted
  obtain ⟨width, height, channels, colorspace⟩ := Metadata.mk.inj metadata
  have legal' : legalMetadata e'.metadata = true := metadata ▸ legal
  have nonzero' : e'.width.toNat * e'.height.toNat ≠ 0 := width ▸ height ▸ nonzero
  rw [Encoder.start_of_legal legal nonzero, Encoder.start_of_legal legal' nonzero']
  simp only [width, height, channels, colorspace, pixin]

/-! ## DEC: START, then an accepted header -/

/-- START keeps SLEN, SIN and the D_ registers and writes all the rest (R140). -/
theorem Decoder.start_congr (draw : Nat) (slen : d.slen = d'.slen) (sin : d.sin = d'.sin)
    (metadata : d.metadata = d'.metadata) : d.start draw = d'.start draw := by
  obtain ⟨width, height, channels, colorspace⟩ := Metadata.mk.inj metadata
  simp only [Decoder.start, slen, sin, width, height, channels, colorspace]

/-- An accepted header writes what START left over or drew, the D_ registers and NPIX: only SLEN and SIN stay (R141). -/
theorem Decoder.opened_start_congr (md : Metadata) (draw draw' : Nat) (slen : d.slen = d'.slen) (sin : d.sin = d'.sin) :
    (d.start draw).opened md = (d'.start draw').opened md := by
  simp only [Decoder.opened, Decoder.start, slen, sin]

/-- A header after which DEC is in the body has passed every check. -/
theorem execHeader_opened {m w h : BitVec 32} {c cs : Byte} (hx : exec (.header m w h c cs) s = .next t)
    (body : t.dec.phase = .body) :
    m = Config.magic ∧ legalMetadata ⟨w, h, c, cs⟩ = true ∧ w.toNat * h.toNat ≠ 0 ∧
      t = { s with dec := s.dec.opened ⟨w, h, c, cs⟩ } := by
  obtain ⟨header, ⟨cause, -, raised⟩ | ⟨legal, nonzero, opened⟩⟩ := execHeader_cases hx
  · rw [raised] at body; cases body
  refine ⟨?_, legal, nonzero, opened⟩
  by_contra bad
  rw [execHeader_rejected header (readHeader_badMagic bad)] at hx
  cases hx
  cases body

/-- Settles O49: what START keeps is the configuration and HOST's inputs; the D_ registers and the draw for NPIX, which
DEC's START does not initialise, are written by the header it accepts. -/
theorem startForgetsEarlierCalls : Obligations.StartForgetsEarlierCalls := by
  refine ⟨fun _ _ => Encoder.start_congr, fun _ _ draw => Decoder.start_congr draw, ?header⟩
  intro s t d d' draw draw' m w h c cs slen sin hx body
  obtain ⟨rfl, legal, nonzero, rfl⟩ := execHeader_opened hx body
  rw [Decoder.opened_start_congr _ draw draw' slen sin]
  exact execHeader_accepted (md := ⟨w, h, c, cs⟩) rfl legal nonzero

end Sys2Proof.Machine
end

section
/-! SUPPORT. ENC in the middle of a call: after the header step and `k` pixel steps it has walked over the first `k`
pixels, so SOUT and the pending run together are the reference's bytes of those pixels (10_state.md R25). -/

namespace Sys2Proof.Machine

variable {e e' : Encoder} {md : Metadata} {ps : List Pixel}

/-- ENC's pending run after a walk is the scan's. -/
theorem Encoder.Walked.runCnt_eq (h : e.opened.Walked e' ps) : e'.runCnt.toNat = (Machine.scan Scan.start ps).2.run :=
  congrArg Scan.run h.scan

/-- The pending run of ENC stays below 62 (R11). -/
theorem Encoder.Walked.runCnt_le (h : e.opened.Walked e' ps) : e'.runCnt.toNat ≤ 61 := by
  rw [h.runCnt_eq]
  exact scan_run (Nat.zero_le _) ps

/-- What ENC has emitted after it has walked over pixels from the start of the body: their ops, but for the pending
run. -/
theorem Encoder.Walked.encodeOps (h : e.opened.Walked e' ps) :
    ∃ own, Machine.encodeOps ps = .ok (own ++ e'.pendingBytes) ∧ e'.sout = writeHeader e.metadata ++ own := by
  obtain ⟨own, emitted, sout⟩ := h.bytes
  refine ⟨own, ?_, sout⟩
  rw [Machine.encodeOps, encodeItems_eq_scan, ← h.runCnt_eq]
  exact encodeAll_append emitted (encodeAll_flushItems h.runCnt_le)

theorem Encoder.Ready.metadata (h : e.Ready md ps) : e.metadata = md := by
  rw [Encoder.metadata, h.width, h.height, h.channels, h.colorspace]

/-- A call on legal metadata: the header step after START opens the body, and `k` more steps walk over `k` pixels. -/
theorem Encoder.Ready.walked {k : Nat} (h : e.Ready md ps) (hl : legalMetadata md = true) (hne : ps ≠ [])
    (hk : k ≤ ps.length) : e.opened.Walked (Encoder.step^[k + 1] e.start) (ps.take k) := by
  have size : e.width.toNat * e.height.toNat = ps.length := by rw [h.width, h.height, h.size]
  have nonzero : e.width.toNat * e.height.toNat ≠ 0 := by
    rw [size]; exact fun h0 => hne (List.length_eq_zero_iff.1 h0)
  have npix : e.opened.npix.toNat = ps.length := (size_toNat _ _).trans size
  have taken : (ps.take k).length = k := List.length_take_of_le hk
  rw [Function.iterate_succ_apply, start_step (h.metadata ▸ hl) nonzero]
  have walked : e.opened.Walked (Encoder.step^[(ps.take k).length] e.opened) (ps.take k) := by
    refine iterate_walked rfl (Nat.zero_le _) ?room fun j hj => ?supplied
    case room => rw [npix, taken]; exact (Nat.zero_add k).trans_le hk
    case supplied =>
      rw [taken] at hj
      rw [List.getElem?_take_of_lt hj]
      show Space.read e.pixin (0 + j) = _
      rw [Nat.zero_add]
      exact h.pixels j (hj.trans_le hk)
  rwa [taken] at walked

end Sys2Proof.Machine
end

section
/-! PROOFS of the statements about an encode call. -/

namespace Sys2Proof.Machine

/-- Settles O50: turns of ENC are iterations of its own step, and those are the reference's encode. -/
theorem encodeCallIsTheReference : Obligations.EncodeCallIsTheReference := by
  intro s md ps turns ready legal nonempty
  obtain ⟨encoded, done, prev, cache⟩ := encode_call ready legal nonempty rfl
  exact ⟨_, _, run_enc (ps.length + 3) s s.enc.start turns, encoded, done, rfl, prev, cache, rfl, rfl⟩

/-- Settles O51: `k` pixel steps walk over the first `k` pixels, as the scan does; the scan's ops lack the flush of the
pending run, which is its RUN byte. -/
theorem outputLagsByThePendingRun : Obligations.OutputLagsByThePendingRun := by
  intro s md ps turns k ready legal nonempty hk
  have walked := ready.walked legal nonempty hk
  obtain ⟨own, ops, sout⟩ := walked.encodeOps
  refine ⟨_, _, run_enc (k + 1) s s.enc.start turns, ops, walked.phase, ?position, walked.runCnt_le, ?lag⟩
  case position =>
    rw [walked.ppos, List.length_take_of_le hk]
    exact Nat.zero_add k
  case lag => rw [sout, ready.metadata, List.append_assoc]

end Sys2Proof.Machine
end

section
/-! SUPPORT. The frames decoded: a header or a footer packs back to the bytes it was read from, and fails for want of
bytes alone (42_framecodec.md R114, 44_decoder.md R141, R150). -/

namespace Sys2Proof

variable {bytes tail : List Byte} {i : Instr} {c : Cause}

theorem decodeHeader_ok (h : decodeHeader bytes = .ok (i, tail)) :
    ∃ m w ht ch cs, i = .header m w ht ch cs ∧ bytes = be32 m ++ be32 w ++ be32 ht ++ [ch, cs] ++ tail := by
  unfold decodeHeader at h
  split at h
  · cases h
    exact ⟨_, _, _, _, _, rfl, by simp only [be32_unbe32]; rfl⟩
  · cases h

theorem decodeFooter_ok (h : decodeFooter bytes = .ok (i, tail)) :
    ∃ marker, i = .footer marker ∧ bytes = be64 marker ++ tail := by
  unfold decodeFooter at h
  split at h
  · cases h
    exact ⟨_, rfl, by rw [be64_append, be32_unbe32, be32_unbe32]; rfl⟩
  · cases h

theorem decodeHeader_error (h : decodeHeader bytes = .error c) : c = .truncated ∧ bytes.length < 14 := by
  unfold decodeHeader at h
  split at h
  · cases h
  · next short =>
    cases h
    refine ⟨rfl, ?_⟩
    by_contra long
    exact short bytes[0] bytes[1] bytes[2] bytes[3] bytes[4] bytes[5] bytes[6] bytes[7] bytes[8] bytes[9] bytes[10]
      bytes[11] bytes[12] bytes[13] (bytes.drop 14) (by simp only [List.getElem_cons_drop, List.drop_zero])

theorem decodeFooter_error (h : decodeFooter bytes = .error c) : c = .badFooter ∧ bytes.length < 8 := by
  unfold decodeFooter at h
  split at h
  · cases h
  · next short =>
    cases h
    refine ⟨rfl, ?_⟩
    by_contra long
    exact short bytes[0] bytes[1] bytes[2] bytes[3] bytes[4] bytes[5] bytes[6] bytes[7] (bytes.drop 8)
      (by simp only [List.getElem_cons_drop, List.drop_zero])

end Sys2Proof
end

section
/-! SUPPORT. A decode call of DEC on a stream that the reference rejects: the step at which R151 fails is the step at
which DEC raises, for the same cause (44_decoder.md R151, R153 (d)). -/

namespace Sys2Proof.Machine

variable {d : Decoder} {stream left tail own : List Byte} {md : Metadata} {written : List Pixel} {m : Mirror}
  {want : Nat} {c : Cause}

/-! ## The stream from SPOS on -/

/-- SLEN lies as far beyond SPOS as bytes are left. -/
theorem Decoder.Midway.slen (h : d.Midway stream md written m want left) :
    d.slen.toNat = d.spos.toNat + left.length := by
  obtain ⟨before, hstream, hspos⟩ := h.parsed
  rw [h.ready.slen, hstream, hspos, List.length_append]

/-- The bytes left are read from SPOS on. -/
theorem Decoder.Midway.readN (h : d.Midway stream md written m want (own ++ tail)) :
    Space.readN d.sin d.spos.toNat own.length = some own := by
  obtain ⟨before, hstream, hspos⟩ := h.parsed
  have ready := h.ready
  rw [hstream, ← List.append_assoc] at ready
  rw [hspos]
  exact ready.readN

/-- DEC is in BODY while pixels are wanted. -/
theorem Decoder.Midway.inBody (h : d.Midway stream md written m (want + 1) left) : d.inBody = true :=
  (inBody_iff d).2 ⟨h.phase, by rw [h.opos, h.npix]; omega⟩

/-! ## The header step -/

/-- DEC fetches the header that the stream begins with. -/
theorem Decoder.Ready.fetch_header {mg w ht : BitVec 32} {ch cs : Byte} (draw : Nat)
    (h : d.Ready (be32 mg ++ be32 w ++ be32 ht ++ [ch, cs] ++ tail)) :
    (d.start draw).fetch = .item (.header mg w ht ch cs) := by
  have read := Decoder.Ready.readN (before := []) h
  have presents : (d.start draw).Presents (be32 mg ++ be32 w ++ be32 ht ++ [ch, cs]) .header :=
    ⟨rfl, rfl, by rw [Decoder.start_slen, h.slen, List.length_append]; exact Nat.le_add_right 14 _, read⟩
  exact fetch_of_presents presents (decode_header_be32 mg w ht ch cs)

/-- A header that the reference rejects is rejected by DEC, for the same cause (R141). -/
theorem header_step_fails (s : State) (draw : Nat) (h : d.Ready stream) (ho : openHeader stream = .error c) :
    Reaches s 1 (d.start draw) ((d.start draw).raise c) := by
  cases hd : decodeHeader stream with
  | error cause =>
    obtain ⟨rfl, short⟩ := decodeHeader_error hd
    simp only [openHeader, hd] at ho
    cases ho
    exact reach_raise (fetch_header_short rfl (by rw [Decoder.start_slen, h.slen]; exact short))
  | ok answer =>
    obtain ⟨mg, w, ht, ch, cs, -, rfl⟩ := decodeHeader_ok hd
    simp only [openHeader, decodeHeader_bytes] at ho
    refine reach_exec (h.fetch_header draw) fun t hdec => ?_
    have header : t.dec.phase = .header := by rw [hdec]; rfl
    rw [← hdec]
    split at ho
    · next rejected =>
      cases ho
      exact execHeader_rejected header rejected
    · next md accepted =>
      obtain ⟨rfl, hch, hcs, rfl⟩ := readHeader_ok.1 accepted
      split at ho
      · next zero =>
        cases ho
        exact execHeader_zero_size header ((legalChannels_iff ch).1 hch) ((legalColorspace_iff cs).1 hcs) zero
      · cases ho

/-! ## The op steps -/

/-- An op that is not all there raises TRUNCATED (R142). -/
theorem Decoder.Midway.op_step_truncated (s : State) (h : d.Midway stream md written m (want + 1) left)
    (hd : decodeOp left = .error c) : Reaches s 1 d (d.raise c) := by
  obtain ⟨rfl, short⟩ := decodeOp_error hd
  apply reach_raise
  cases left with
  | nil => exact fetch_op_at_end h.inBody (by rw [h.slen]; exact Nat.lt_succ_self _)
  | cons b0 more =>
    have read : Space.readN d.sin d.spos.toNat 1 = some [b0] := Decoder.Midway.readN (own := [b0]) (tail := more) h
    have first : Space.read d.sin d.spos.toNat = some b0 := ((Space.readN_eq_some _ _ _ _).1 read).2 0 Nat.one_pos
    exact fetch_op_short h.inBody first (by rw [h.slen]; exact Nat.add_lt_add_left (short b0 more rfl) _)

/-- An op whose pixels do not fit raises RUN_OVERRUN (R145). -/
theorem Decoder.Midway.op_step_overrun {i : Instr} (s : State) (h : d.Midway stream md written m (want + 1) left)
    (hd : decodeOp left = .ok (i, tail)) (hc : want + 1 < (opEffect i m).2.1) :
    Reaches s 1 d (d.raise .runOverrun) := by
  obtain ⟨hw, hp, own, he, rfl⟩ := decodeOp_spec hd
  obtain ⟨body, fetched⟩ := h.fetch_op hw hp he
  have mirror : (⟨d.prev, d.cache⟩ : Mirror) = m := by rw [h.prev, h.cache]
  have overruns : d.npix.toNat < d.opos.toNat + (opEffect i m).2.1 := by rw [h.opos, h.npix]; omega
  refine reach_exec fetched fun t ht => ?_
  rw [exec_op hp he t d ht body, mirror, if_pos overruns]

/-- Where a round of R151's loop fails: at its op, at the room left, or in a later round. -/
theorem decodeFrom_succ_error {fuel : Nat} (h : decodeFrom (fuel + 1) (want + 1) m left = .error c) :
    decodeOp left = .error c ∨
    ∃ i rest, decodeOp left = .ok (i, rest) ∧
      ((want + 1 < (opEffect i m).2.1 ∧ c = .runOverrun) ∨
       ((opEffect i m).2.1 ≤ want + 1 ∧
         decodeFrom fuel (want + 1 - (opEffect i m).2.1) ⟨(opEffect i m).1, (opEffect i m).2.2⟩ rest = .error c)) := by
  simp only [decodeFrom] at h
  split at h
  · next hd => cases h; exact .inl hd
  · next i rest hd =>
    refine .inr ⟨i, rest, hd, ?_⟩
    split at h
    · next hc => cases h; exact .inl ⟨hc, rfl⟩
    · next hc =>
      split at h
      · next later => cases h; exact .inr ⟨Nat.not_lt.1 hc, later⟩
      · cases h

/-- Where R151's loop fails, DEC raises the loop's cause. -/
theorem Decoder.Midway.ops_fail {fuel : Nat} (s : State) (h : d.Midway stream md written m want left)
    (hd : decodeFrom fuel want m left = .error c) : ∃ (n : Nat) (d' : Decoder), Reaches s n d (d'.raise c) := by
  induction fuel generalizing d written m want left with
  | zero => cases hd
  | succ fuel ih =>
    cases want with
    | zero => cases hd
    | succ want =>
      rcases decodeFrom_succ_error hd with truncated | ⟨i, rest, hi, ⟨overruns, rfl⟩ | ⟨fits, later⟩⟩
      · exact ⟨1, d, h.op_step_truncated s truncated⟩
      · exact ⟨1, d, h.op_step_overrun s hi overruns⟩
      · obtain ⟨d₁, first, mid⟩ := h.op_step (s := s) hi fits
        obtain ⟨n, d₂, more⟩ := ih mid later
        exact ⟨1 + n, d₂, first.trans more⟩

/-! ## The footer step -/

/-- DEC fetches the footer that the bytes left begin with. -/
theorem Decoder.Midway.fetch_footer {marker : BitVec 64} (h : d.Midway stream md written m 0 (be64 marker ++ tail)) :
    d.fetch = .item (.footer marker) := by
  have inStream : d.spos.toNat + 8 ≤ d.slen.toNat := by
    rw [h.slen, List.length_append]; exact Nat.add_le_add_left (Nat.le_add_right 8 _) _
  exact fetch_of_presents (pos := .footer) ⟨h.phase, rfl, inStream, h.readN⟩ (decode_footer_be64 marker)

/-- A stream that the reference rejects at its end is rejected by DEC, for the same cause (R150). -/
theorem Decoder.Midway.footer_step_fails (s : State) (h : d.Midway stream md written m 0 left)
    (he : checkEnd left = .error c) : Reaches s 1 d (d.raise c) := by
  cases hd : decodeFooter left with
  | error cause =>
    obtain ⟨rfl, short⟩ := decodeFooter_error hd
    simp only [checkEnd, hd] at he
    cases he
    exact reach_raise (fetch_footer_short h.phase (by rw [h.slen]; exact Nat.add_lt_add_left short _))
  | ok answer =>
    obtain ⟨marker, -, rfl⟩ := decodeFooter_ok hd
    refine reach_exec h.fetch_footer fun t ht => ?_
    have footer : t.dec.phase = .footer := by rw [ht]; exact h.phase
    rw [← ht]
    by_cases hm : marker = Config.footerMarker
    · subst hm
      have verified : verifyFooter Config.footerMarker = .ok () := if_pos rfl
      simp only [checkEnd, decodeFooter_bytes, verified] at he
      split at he
      · cases he
      · next more =>
        cases he
        refine execFooter_trailing footer ?_
        have trailing := List.length_pos_iff.2 more
        have eight : (be64 Config.footerMarker).length = 8 := rfl
        rw [ht, h.slen, List.length_append]
        omega
    · have rejected : verifyFooter marker = .error .badFooter := if_neg hm
      simp only [checkEnd, decodeFooter_bytes, rejected] at he
      cases he
      exact execFooter_mismatch footer hm

/-! ## The whole call -/

/-- A decode call of DEC on a stream that does not decode ends in ERROR with the reference's cause (R151, R153 (d)). -/
theorem decode_call_fails (s : State) (draw : Nat) (h : d.Ready stream) (hd : decodeStream stream = .error c) :
    ∃ (n : Nat) (d' : Decoder), Reaches s n (d.start draw) (d'.raise c) := by
  simp only [decodeStream] at hd
  split at hd
  · next rejected => cases hd; exact ⟨1, _, header_step_fails s draw h rejected⟩
  · next md body ho =>
    obtain ⟨opened, mid⟩ := header_step s draw h ho
    split at hd
    · next failed =>
      cases hd
      obtain ⟨n, d', raised⟩ := mid.ops_fail s failed
      exact ⟨1 + n, d', opened.trans raised⟩
    · next ps left final hops =>
      obtain ⟨n, d₁, -, walked, fin⟩ := mid.ops s le_rfl hops
      split at hd
      · next rejected =>
        cases hd
        exact ⟨1 + (n + 1), d₁, opened.trans (walked.trans (fin.footer_step_fails s rejected))⟩
      · cases hd

end Sys2Proof.Machine
end

section
/-! PROOF of the statement about a decode call. -/

namespace Sys2Proof.Machine

/-- Settles O52: the call ends as the reference's decode does, step by step, in DONE or at the step that raises. -/
theorem decodeCallIsTheReference : Obligations.DecodeCallIsTheReference := by
  intro s bytes draw ready
  cases hd : decodeStream bytes with
  | ok answer =>
    obtain ⟨md, ps, final⟩ := answer
    obtain ⟨n, d', short, reached, done, metadata, pixout, prev, cache⟩ := decode_call s draw ready hd
    refine ⟨n, fun turns => ⟨_, reached turns, rfl, rfl, ?decoded, fun c failed => nomatch failed⟩⟩
    case decoded =>
      rintro _ _ _ ⟨⟩
      exact ⟨short, done, metadata, by rw [pixout]; exact holds_ofList ps, by rw [pixout]; exact filledTo_ofList ps,
        prev, cache⟩
  | error cause =>
    obtain ⟨n, d', raised⟩ := decode_call_fails s draw ready hd
    refine ⟨n, fun turns => ⟨_, raised turns, rfl, rfl, fun md ps final decoded => (nomatch decoded), ?failed⟩⟩
    case failed =>
      rintro _ ⟨⟩
      exact ⟨rfl, rfl, rfl⟩

end Sys2Proof.Machine
end

section
/-! SUPPORT. Executing an item, said once for all eight: it raises, or it is an op that goes on, or a frame that does
(44_decoder.md sections 1 to 4). -/

namespace Sys2Proof.Machine

variable {s t : State} {i : Instr} {px : Pixel} {len cnt : Nat}

/-- What a frame that goes on leaves: it writes no pixel, and neither PREV nor the cache. -/
structure FrameDone (s t : State) : Prop where
  outside : SameOutsideDec s t
  slen : t.dec.slen = s.dec.slen
  sin : t.dec.sin = s.dec.sin
  err : t.dec.err = s.dec.err
  prev : t.dec.prev = s.dec.prev
  cache : t.dec.cache = s.dec.cache
  opos : t.dec.opos = s.dec.opos
  pixout : t.dec.pixout = s.dec.pixout

/-- An op that stores its pixel always goes on. -/
theorem opDone_of_literal (h : commit s s.dec.inBody (s.dec.literal px len) = .next t) :
    ∃ px len cnt, OpDone s t px len cnt := by
  obtain ⟨body, rfl⟩ := commit_eq_next.1 h
  exact ⟨px, len, 1, opDone_literal px len body⟩

/-- Everything that executing an item can do. -/
theorem exec_cases (h : exec i s = .next t) :
    (∃ c, t = { s with dec := s.dec.raise c }) ∨
    (i.position = .body ∧ (∃ px len cnt, OpDone s t px len cnt) ∧
      (∀ count, i = .run count → t.dec.cache = s.dec.cache) ∧
      (∀ idx, i = .index idx → t.dec.cache = s.dec.cache)) ∨
    (i.position ≠ .body ∧ FrameDone s t ∧
      (t.dec.phase = .body ∨
       (s.dec.phase = .footer ∧ s.dec.spos.toNat + 8 = s.dec.slen.toNat ∧
         t.dec = { s.dec with spos := s.dec.spos + 8, phase := .done }))) := by
  cases i with
  | rgba r g b a => exact .inr (.inl ⟨rfl, opDone_of_literal h, nofun, nofun⟩)
  | rgb r g b => exact .inr (.inl ⟨rfl, opDone_of_literal h, nofun, nofun⟩)
  | diff dr dg db => exact .inr (.inl ⟨rfl, opDone_of_literal h, nofun, nofun⟩)
  | luma dg drg dbg => exact .inr (.inl ⟨rfl, opDone_of_literal h, nofun, nofun⟩)
  | run count =>
    obtain ⟨body, ⟨-, rfl⟩ | ⟨fits, rfl⟩⟩ := execRun_cases h
    · exact .inl ⟨.runOverrun, rfl⟩
    · exact .inr (.inl ⟨rfl, ⟨_, _, _, opDone_replay _ _ body fits⟩, fun _ _ => rfl, fun _ _ => rfl⟩)
  | index idx =>
    obtain ⟨body, rfl⟩ := execIndex_cases h
    have fits : s.dec.opos.toNat + 1 ≤ s.dec.npix.toNat := ((inBody_iff _).1 body).2
    exact .inr (.inl ⟨rfl, ⟨_, _, _, opDone_replay _ _ body fits⟩, fun _ _ => rfl, fun _ _ => rfl⟩)
  | header m w ht c cs =>
    obtain ⟨-, ⟨cause, -, rfl⟩ | ⟨-, -, rfl⟩⟩ := execHeader_cases h
    · exact .inl ⟨cause, rfl⟩
    · exact .inr (.inr ⟨nofun, ⟨sameOutsideDec_with s _, rfl, rfl, rfl, rfl, rfl, rfl, rfl⟩, .inl rfl⟩)
  | footer marker =>
    obtain ⟨footer, ⟨cause, -, rfl⟩ | ⟨-, last, rfl⟩⟩ := execFooter_cases h
    · exact .inl ⟨cause, rfl⟩
    · exact .inr (.inr ⟨nofun, ⟨sameOutsideDec_with s _, rfl, rfl, rfl, rfl, rfl, rfl, rfl⟩,
        .inr ⟨footer, last, rfl⟩⟩)

/-- An op that goes on stays BUSY. -/
theorem OpDone.phase_ne {p : Phase} (h : OpDone s t px len cnt) (notBusy : p.busy = false) : t.dec.phase ≠ p := by
  rintro rfl
  rw [h.advanced.phase] at notBusy
  split at notBusy <;> cases notBusy

theorem SameConfig.metadata {d d' : Decoder} (h : SameConfig d d') : d'.metadata = d.metadata := by
  rw [Decoder.metadata, h.width, h.height, h.channels, h.colorspace]; rfl

/-- The one way to DONE is a footer that ends the stream (R150, R152). -/
theorem exec_done (h : exec i s = .next t) (done : t.dec.phase = .done) :
    s.dec.phase = .footer ∧ s.dec.spos.toNat + 8 = s.dec.slen.toNat ∧
      t.dec = { s.dec with spos := s.dec.spos + 8, phase := .done } := by
  rcases exec_cases h with ⟨c, rfl⟩ | ⟨-, ⟨px, len, cnt, op⟩, -⟩ | ⟨-, -, opened | closed⟩
  · cases done
  · exact absurd done (op.phase_ne rfl)
  · rw [opened] at done; cases done
  · exact closed

/-- A step to DONE is DEC's footer step (R152). -/
theorem step_to_done (h : step s = .next t) (before : s.dec.phase ≠ .done) (done : t.dec.phase = .done) :
    s.dec.phase = .footer ∧ s.dec.spos.toNat + 8 = s.dec.slen.toNat ∧
      t.dec = { s.dec with spos := s.dec.spos + 8, phase := .done } := by
  have hm : s.mover = .dec := by
    rcases step_dec_phase h with stays | ⟨hm, -⟩ | ⟨hm, -⟩ | ⟨-, -, header⟩ | ⟨-, idle⟩
    · exact absurd (stays.symm.trans done) before
    · exact hm
    · exact hm
    · rw [header] at done; cases done
    · rw [idle] at done; cases done
  cases hf : s.dec.fetch with
  | item i =>
    rw [step_of_item hm hf] at h
    exact exec_done (s := s.popTurn) h done
  | raise c =>
    rw [step_of_raise hm hf] at h
    cases h
    cases done
  | wait =>
    rw [step_of_wait hm hf] at h
    cases h
    exact absurd done before

end Sys2Proof.Machine
end

section
/-! SUPPORT. How many bytes and how many pixels a sequence of ops has (43_encoder.md R134 (c)). -/

namespace Sys2Proof.Machine

/-- A well-formed item yields at most 62 pixels (R65). -/
theorem effect_le {i : Instr} {m : Mirror} (hw : i.wellFormed = true) : (opEffect i m).2.1 ≤ 62 := by
  have single : 1 ≤ 62 := by decide
  cases i with
  | run count =>
    simp only [Instr.wellFormed, Bool.and_eq_true, decide_eq_true_eq] at hw
    exact hw.2
  | rgba | rgb | index | diff | luma => exact single
  | header | footer => exact Nat.zero_le 62

/-- Each op has 1 to 5 bytes and 1 to 62 pixels, so the bytes of a sequence of ops bound its pixels, and are bounded by
them. -/
theorem encodeAll_length {is : List Instr} {bytes : List Byte} (m : Mirror) (hw : ∀ i ∈ is, i.wellFormed = true)
    (hp : ∀ i ∈ is, i.position = .body) (he : encodeAll is = .ok bytes) :
    bytes.length ≤ 5 * (replayItems m is).1.length ∧ (replayItems m is).1.length ≤ 62 * bytes.length := by
  induction is generalizing m bytes with
  | nil => cases he; exact ⟨le_rfl, le_rfl⟩
  | cons i is ih =>
    obtain ⟨own, more, hown, hmore, rfl⟩ := encodeAll_cons he
    obtain ⟨upper, lower⟩ := ih ⟨(opEffect i m).1, (opEffect i m).2.2⟩
      (fun j hj => hw j (List.mem_cons_of_mem _ hj)) (fun j hj => hp j (List.mem_cons_of_mem _ hj)) hmore
    have ownLength := encode_len (hp i List.mem_cons_self) hown
    have atLeast := effect_pos (m := m) (hw i List.mem_cons_self) (hp i List.mem_cons_self)
    have atMost := effect_le (m := m) (hw i List.mem_cons_self)
    simp only [replayItems, List.length_append, List.length_replicate]
    omega

end Sys2Proof.Machine
end

section
/-! SUPPORT. HOST's moves on registers and buffers: a write while the engine is not BUSY, and while it is; what ERR
reads as (10_state.md R20 to R22, R24, 70_reset_and_hazards.md R196). -/

namespace Sys2Proof.Machine

variable {s : State} {rest : List HostMove}

/-- A move of HOST that is a write to ENC. -/
theorem step_of_writeEnc {m : HostMove} {e : Encoder} (hm : s.mover = .host) (hq : s.hostq = m :: rest)
    (write : hostMove m { s.popTurn with hostq := rest } = writeEnc { s.popTurn with hostq := rest } e) :
    (s.enc.phase.busy = false → step s = .next { s.popTurn with hostq := rest, enc := e }) ∧
    (s.enc.phase.busy = true → step s = .refused .hostWriteWhileBusy) := by
  rw [step_of_hostMove hm hq, write]
  exact ⟨fun notBusy => if_neg (ne_true_of_eq_false notBusy), fun busy => if_pos busy⟩

/-- A move of HOST that is a write to DEC. -/
theorem step_of_writeDec {m : HostMove} {d : Decoder} (hm : s.mover = .host) (hq : s.hostq = m :: rest)
    (write : hostMove m { s.popTurn with hostq := rest } = writeDec { s.popTurn with hostq := rest } d) :
    (s.dec.phase.busy = false → step s = .next { s.popTurn with hostq := rest, dec := d }) ∧
    (s.dec.phase.busy = true → step s = .refused .hostWriteWhileBusy) := by
  rw [step_of_hostMove hm hq, write]
  exact ⟨fun notBusy => if_neg (ne_true_of_eq_false notBusy), fun busy => if_pos busy⟩

/-- A write of ENC.CTRL with bit 0 clear issues nothing while ENC is not BUSY (R22). -/
theorem step_of_writeECtrl_clear {v : Byte} (hm : s.mover = .host) (hq : s.hostq = .writeECtrl v :: rest)
    (clear : v.getLsbD 0 = false) (notBusy : s.enc.phase.busy = false) :
    step s = .next { s.popTurn with hostq := rest } := by
  rw [step_of_hostMove hm hq]
  exact (if_neg (ne_true_of_eq_false notBusy)).trans (if_neg (ne_true_of_eq_false clear))

/-- A write of DEC.CTRL with bit 0 clear issues nothing while DEC is not BUSY (R22). -/
theorem step_of_writeDCtrl_clear {v : Byte} (hm : s.mover = .host) (hq : s.hostq = .writeDCtrl v :: rest)
    (clear : v.getLsbD 0 = false) (notBusy : s.dec.phase.busy = false) :
    step s = .next { s.popTurn with hostq := rest } := by
  rw [step_of_hostMove hm hq]
  exact (if_neg (ne_true_of_eq_false notBusy)).trans (if_neg (ne_true_of_eq_false clear))

/-- ERR as HOST reads it: KIND above the four bits of CAUSE (R22). -/
theorem readErr_toNat (c : Cause) :
    ((errByte c).setWidth 64 : Count).toNat = (kindCode (kindOf c)).toNat * 16 + (causeCode c).toNat := by
  have cause := errByte_toNat_mod c
  have kind := errByte_toNat_div c
  rw [BitVec.toNat_setWidth_of_le (by decide)]
  omega

end Sys2Proof.Machine
end

section
/-! PROOFS of the statements about the codec, the items' frames and the ends of a call. -/

namespace Sys2Proof.Machine

/-- Settles O2: an op's bytes are those of its first byte's row, a frame's are its fields in byte order. -/
theorem decodedBytesPackBack : Obligations.DecodedBytesPackBack := by
  intro pos bytes rest i h
  cases pos with
  | header =>
    obtain ⟨m, w, ht, c, cs, rfl, split⟩ := decodeHeader_ok h
    exact ⟨⟨_, rfl, split⟩, rfl, fun body => nomatch body⟩
  | body =>
    obtain ⟨wellFormed, position, own⟩ := decodeOp_spec h
    exact ⟨own, position, fun _ => wellFormed⟩
  | footer =>
    obtain ⟨marker, rfl, split⟩ := decodeFooter_ok h
    exact ⟨⟨_, rfl, split⟩, rfl, fun body => nomatch body⟩

/-- Settles O9: the wrapped difference added back, channel by channel, for whichever literal is chosen. -/
theorem deltasAndLiteralsInvert : Obligations.DeltasAndLiteralsInvert :=
  ⟨apply_delta, fun px prev cache => ⟨literalItem_wellFormed px prev, opEffect_literalItem px prev cache⟩⟩

/-- Settles O20: an error writes nothing but itself, an op leaves what `OpDone` says, a frame what `FrameDone` says. -/
theorem itemsLeaveTheRestAlone : Obligations.ItemsLeaveTheRestAlone := by
  intro i s t h
  rcases exec_cases h with ⟨c, rfl⟩ | ⟨hp, ⟨px, len, cnt, op⟩, run, index⟩ | ⟨hp, frame, phase⟩
  · exact ⟨sameOutsideDec_with s _, rfl, rfl, fun _ => ⟨rfl, rfl⟩, fun _ => ⟨rfl, rfl, rfl⟩, fun _ _ => rfl,
      fun _ _ => rfl, fun alive => absurd rfl alive, fun _ => ⟨rfl, rfl, rfl, rfl, fun _ => rfl⟩⟩
  · refine ⟨op.outside, op.config.slen, op.config.sin, fun _ => ⟨op.config.metadata, op.config.npix⟩,
      fun notBody => absurd hp notBody, run, index,
      fun _ => ⟨op.config.err, fun j unwritten => op.pixels.others j ?_⟩,
      fun error => absurd error (op.phase_ne rfl)⟩
    rwa [op.advanced.opos] at unwritten
  · have alive : t.dec.phase ≠ .error := by
      rcases phase with opened | ⟨-, -, closed⟩
      · rw [opened]; nofun
      · rw [closed]; nofun
    exact ⟨frame.outside, frame.slen, frame.sin, fun body => absurd body hp,
      fun _ => ⟨frame.prev, frame.cache, frame.opos⟩, fun _ _ => frame.cache, fun _ _ => frame.cache,
      fun _ => ⟨frame.err, fun j _ => by rw [frame.pixout]⟩, fun error => absurd error alive⟩

/-- Settles O45: the step to DONE is the footer step, which leaves the output as it is in FOOTER, where it is full, and
takes SPOS to SLEN. -/
theorem doneMeansFull : Obligations.DoneMeansFull := by
  intro s t hinv h before done
  obtain ⟨footer, last, closed⟩ := step_to_done h before done
  obtain ⟨running, full⟩ := hinv.dec.footer footer
  have filled := running.filled
  rw [full] at filled
  have used : s.dec.spos + 8 = s.dec.slen := BitVec.eq_of_toNat_eq ((count_add_toNat (k := 8) last.le).trans last)
  rw [closed]
  exact ⟨full, filled, used, running.npix, running.legal⟩

/-- Settles O55: the ops replay the pixels, and each has 1 to 5 bytes and 1 to 62 pixels. -/
theorem opStreamLengthBounds : Obligations.OpStreamLengthBounds := by
  intro ps bytes h
  have bounds := encodeAll_length Mirror.start (encodeItems_wellFormed ps) (encodeItems_body ps) h
  rwa [replayItems_encodeItems] at bounds

/-- Settles O4: the decoder, run on each word. -/
theorem specWordsDecode : Obligations.SpecWordsDecode := by
  unfold Obligations.SpecWordsDecode
  decide

/-- Settles O21: presented bytes are what DEC fetches. -/
theorem stepRunsTheDecodedItem : Obligations.StepRunsTheDecodedItem :=
  fun _ _ _ _ hm hpres hd => step_of_item hm (fetch_of_presents hpres hd)

/-- Settles O43: both engines are IDLE, where the invariant asks for no error and empty outputs. -/
theorem resetMeetsTheInvariant : Obligations.ResetMeetsTheInvariant where
  enc := ⟨rfl, fun _ => ⟨rfl, rfl⟩, nofun, nofun, nofun, nofun, nofun⟩
  dec := ⟨rfl, rfl, fun _ => ⟨rfl, rfl⟩, nofun, nofun, nofun, nofun, nofun⟩

end Sys2Proof.Machine
end

section
/-! PROOFS of the statements about HOST's moves. -/

namespace Sys2Proof.Machine

/-- Settles O37: the space of a sequence reads back as the sequence, and a pixel passes the port unchanged. -/
theorem hostSuppliesBuffers : Obligations.HostSuppliesBuffers := by
  refine ⟨fun s bytes rest hm hq => ?sin, fun s pixels rest hm hq => ?pixin⟩
  case sin =>
    obtain ⟨written, refused⟩ := step_of_writeDec hm hq rfl
    exact ⟨fun notBusy => ⟨_, Space.wf_ofList bytes, Space.read_ofList bytes, written notBusy⟩, refused⟩
  case pixin =>
    obtain ⟨written, refused⟩ := step_of_writeEnc hm hq rfl
    have port : (pixels.map Pixel.toWord).map Pixel.ofWord = pixels := by
      rw [List.map_map]
      exact List.map_id'' Pixel.ofWord_toWord pixels
    rw [port] at written
    exact ⟨fun notBusy => ⟨_, Space.wf_ofList pixels, Space.read_ofList pixels, written notBusy⟩, refused⟩

/-- Settles O35: five of the moves are writes to an engine, two are writes of CTRL that start nothing. -/
theorem configurationWrites : Obligations.ConfigurationWrites :=
  fun _ _ hm =>
    ⟨fun _ hq => step_of_writeEnc hm hq rfl, fun _ hq => step_of_writeEnc hm hq rfl,
      fun _ hq => step_of_writeEnc hm hq rfl, fun _ hq => step_of_writeEnc hm hq rfl,
      fun _ hq => step_of_writeDec hm hq rfl,
      fun _ clear hq => ⟨step_of_writeECtrl_clear hm hq clear, step_of_writeECtrl_busy hm hq⟩,
      fun _ clear hq => ⟨step_of_writeDCtrl_clear hm hq clear, step_of_writeDCtrl_busy hm hq⟩⟩

/-- Settles O36: a read returns the register zero-extended, which keeps its value. -/
theorem registerReads : Obligations.RegisterReads := by
  refine fun s rest hm => ⟨fun r hq => ⟨_, _, step_of_readEnc hm hq, rfl, rfl, rfl, rfl, ?enc⟩,
    fun r hq => ⟨_, _, step_of_readDec hm hq, rfl, rfl, rfl, rfl, ?dec⟩⟩
  case enc =>
    refine ⟨?_, ?_, ?_, ?_, ?_, ?_⟩ <;> rintro rfl
    · exact BitVec.toNat_setWidth_of_le (by decide)
    · exact BitVec.toNat_setWidth_of_le (by decide)
    · exact BitVec.toNat_setWidth_of_le (by decide)
    · exact BitVec.toNat_setWidth_of_le (by decide)
    · rfl
    · exact readErr_toNat _
  case dec =>
    refine ⟨?_, ?_, ?_, ?_, ?_, ?_, ?_⟩ <;> rintro rfl
    · rfl
    · exact BitVec.toNat_setWidth_of_le (by decide)
    · exact BitVec.toNat_setWidth_of_le (by decide)
    · exact BitVec.toNat_setWidth_of_le (by decide)
    · exact BitVec.toNat_setWidth_of_le (by decide)
    · rfl
    · exact readErr_toNat _

/-- Settles O41: hardware reset is the next state in which only that engine's fields are written. -/
theorem hardwareResetLeavesIdle : Obligations.HardwareResetLeavesIdle :=
  ⟨fun _ _ hm hq => ⟨_, step_of_hostMove hm hq, rfl, rfl, rfl, rfl, rfl, rfl⟩,
    fun _ _ hm hq => ⟨_, step_of_hostMove hm hq, rfl, rfl, fun _ => rfl, rfl, rfl, rfl⟩,
    rfl, rfl, rfl, rfl, rfl, rfl⟩

end Sys2Proof.Machine
end
